-- ==== Sys2Proof/Word.lean ====
section
/-! DEFINITION. The word types of CMCORE: bytes, 32-bit bus words and byte strings. -/

namespace Sys2Proof

/-- A byte (00_scope.md R10, R13): bit 7 is the most significant. -/
abbrev Byte := BitVec 8

/-- A 32-bit word of the host bus (20_memory.md R212), also the word of the hash functions (41_mac.md R502). -/
abbrev Word := BitVec 32

/-- A byte string (00_scope.md R11): first byte first. -/
abbrev Bytes := List Byte

end Sys2Proof
end

