-- ==== Sys2Proof/Syntax.lean ====
section
/-! DEFINITION. The commands of CMCORE, one constructor per row of the opcode table (30_encoding.md R310). -/

namespace Sys2Proof

/-- A command with its fields (30_encoding.md R301). `raw` is FMT = 1 (R303), `ttlEn` is TTL_EN (R304), `forTime` is
FOR_TIME (R305), `hsel` is HSEL (R306), of which only 0 and 1 are legal. Every other operand is read from a fixed
register or IBUF region (R312). -/
inductive Instr where
  | keyLoad (raw : Bool)
  | keyGenerate (raw : Bool)
  | tokenEncrypt (raw : Bool)
  | tokenDecrypt (raw ttlEn : Bool)
  | cbcEncrypt
  | cbcDecrypt
  | mac (hsel : BitVec 2)
  | secretLoad (raw : Bool)
  | otpGenerate
  | otpNow
  | otpVerify (forTime : Bool)
  | otpUri
  | zeroize
  deriving DecidableEq, Repr

end Sys2Proof
end

