-- ==== Sys2Proof/WellFormed.lean ====
section
/-! DEFINITION. Which commands have an encoding. -/

namespace Sys2Proof

/-- HSEL is 0 (HMAC-SHA-1) or 1 (HMAC-SHA-256); 2 and 3 are reserved (30_encoding.md R306). -/
abbrev hselLegal (hsel : BitVec 2) : Prop := hsel.toNat ≤ 1

/-- The check on a command's fields. Every field but HSEL is one bit and legal at both values (30_encoding.md R303 to R306). -/
def Instr.wellFormed : Instr → Bool
  | .keyLoad _ => true
  | .keyGenerate _ => true
  | .tokenEncrypt _ => true
  | .tokenDecrypt _ _ => true
  | .cbcEncrypt => true
  | .cbcDecrypt => true
  | .mac hsel => decide (hselLegal hsel)
  | .secretLoad _ => true
  | .otpGenerate => true
  | .otpNow => true
  | .otpVerify _ => true
  | .otpUri => true
  | .zeroize => true

end Sys2Proof
end

