-- ==== Sys2Proof/Decode.lean ====
section
/-! DEFINITION. Decoding of command words by match and mask (30_encoding.md R308, R310), rejection by name (R309), and the
encoder written from the same field table (R301). -/

namespace Sys2Proof

/-- Why a word is no command (30_encoding.md R309). The host sees one code for all of them, ILLEGAL_COMMAND. -/
inductive Reject where
  /-- OPCODE 0x00 or 0x0E to 0xFF (R302). -/
  | unassignedOpcode
  /-- Bit 11 or a bit of 31:14 is set (R307). -/
  | reservedBit
  /-- A MAC word with HSEL = 2 or 3 (R306). -/
  | reservedHsel
  /-- A field is set that the opcode does not allow (R307). -/
  | fieldNotAllowed
  /-- Fewer than the four bytes of a command word (R300). -/
  | truncated
  deriving DecidableEq, Repr

/-- OPCODE, bits 7:0 (30_encoding.md R302). -/
def opcodeField (w : Word) : Nat := (w.extractLsb' 0 8).toNat

/-- FMT, bit 8 (30_encoding.md R303). -/
def fmtField (w : Word) : Bool := w.getLsbD 8

/-- TTL_EN, bit 9 (30_encoding.md R304). -/
def ttlEnField (w : Word) : Bool := w.getLsbD 9

/-- FOR_TIME, bit 10 (30_encoding.md R305). -/
def forTimeField (w : Word) : Bool := w.getLsbD 10

/-- HSEL, bits 13:12 (30_encoding.md R306). -/
def hselField (w : Word) : BitVec 2 := w.extractLsb' 12 2

/-- One row of the opcode map (30_encoding.md R310): its match and mask, and the command with the fields of a word. -/
structure OpcodeRow where
  matchWord : Word
  mask : Word
  command : Word → Instr

/-- The opcode map (30_encoding.md R310), rows in the spec's order. -/
def opcodeRows : List OpcodeRow :=
  [⟨0x00000001, 0xFFFFFEFF, fun w => .keyLoad (fmtField w)⟩,
   ⟨0x00000002, 0xFFFFFEFF, fun w => .keyGenerate (fmtField w)⟩,
   ⟨0x00000003, 0xFFFFFEFF, fun w => .tokenEncrypt (fmtField w)⟩,
   ⟨0x00000004, 0xFFFFFCFF, fun w => .tokenDecrypt (fmtField w) (ttlEnField w)⟩,
   ⟨0x00000005, 0xFFFFFFFF, fun _ => .cbcEncrypt⟩,
   ⟨0x00000006, 0xFFFFFFFF, fun _ => .cbcDecrypt⟩,
   ⟨0x00000007, 0xFFFFEFFF, fun w => .mac (hselField w)⟩] ++
  [⟨0x00000008, 0xFFFFFEFF, fun w => .secretLoad (fmtField w)⟩,
   ⟨0x00000009, 0xFFFFFFFF, fun _ => .otpGenerate⟩,
   ⟨0x0000000A, 0xFFFFFFFF, fun _ => .otpNow⟩,
   ⟨0x0000000B, 0xFFFFFBFF, fun w => .otpVerify (forTimeField w)⟩,
   ⟨0x0000000C, 0xFFFFFFFF, fun _ => .otpUri⟩,
   ⟨0x0000000D, 0xFFFFFFFF, fun _ => .zeroize⟩]

/-- Which clause of 30_encoding.md R309 a word that matches no row falls under. -/
def rejectReason (w : Word) : Reject :=
  if opcodeField w = 0 ∨ 0x0D < opcodeField w then .unassignedOpcode
  else if w &&& 0xFFFFC800 ≠ 0 then .reservedBit
  else if w &&& 0x000027FF = 0x00002007 then .reservedHsel
  else .fieldNotAllowed

/-- `decode` of 30_encoding.md R308: the row r with (w and mask_r) = match_r, or ILLEGAL. -/
def decode (w : Word) : Except Reject Instr :=
  match opcodeRows.find? (fun r => decide (w &&& r.mask = r.matchWord)) with
  | some r => .ok (r.command w)
  | none => .error (rejectReason w)

/-- The four bytes of a command word in the bus's little-endian lanes (20_memory.md R220), first byte first. -/
def laneBytes (w : Word) : Bytes :=
  [w.extractLsb' 0 8, w.extractLsb' 8 8, w.extractLsb' 16 8, w.extractLsb' 24 8]

/-- A word from its four byte lanes (20_memory.md R210, R220). -/
def ofLanes (b0 b1 b2 b3 : Byte) : Word :=
  BitVec.ofNat 32 (b0.toNat + b1.toNat * 2 ^ 8 + b2.toNat * 2 ^ 16 + b3.toNat * 2 ^ 24)

/-- Decoding of bytes: a command is one word of four bytes (30_encoding.md R300); the rest is left over. -/
def decodeBytes : Bytes → Except Reject (Instr × Bytes)
  | b0 :: b1 :: b2 :: b3 :: rest =>
    match decode (ofLanes b0 b1 b2 b3) with
    | .ok i => .ok (i, rest)
    | .error r => .error r
  | _ => .error .truncated

/-- The command word of OPCODE and the fields of 30_encoding.md R301. -/
def commandWord (opcode : Nat) (fmt ttlEn forTime : Bool) (hsel : BitVec 2) : Word :=
  BitVec.ofNat 32 (opcode + fmt.toNat * 2 ^ 8 + ttlEn.toNat * 2 ^ 9 + forTime.toNat * 2 ^ 10 + hsel.toNat * 2 ^ 12)

/-- The encoder: OPCODE of 30_encoding.md R310 and the fields the command has; every other bit 0 (R307). -/
def encode : Instr → Word
  | .keyLoad raw => commandWord 0x01 raw false false 0
  | .keyGenerate raw => commandWord 0x02 raw false false 0
  | .tokenEncrypt raw => commandWord 0x03 raw false false 0
  | .tokenDecrypt raw ttlEn => commandWord 0x04 raw ttlEn false 0
  | .cbcEncrypt => commandWord 0x05 false false false 0
  | .cbcDecrypt => commandWord 0x06 false false false 0
  | .mac hsel => commandWord 0x07 false false false hsel
  | .secretLoad raw => commandWord 0x08 raw false false 0
  | .otpGenerate => commandWord 0x09 false false false 0
  | .otpNow => commandWord 0x0A false false false 0
  | .otpVerify forTime => commandWord 0x0B false false forTime 0
  | .otpUri => commandWord 0x0C false false false 0
  | .zeroize => commandWord 0x0D false false false 0

/-- What the decoder reads from a row's word, its bits numbered as spec/opcode_table.json numbers them; the bits from
`nbits` up are 0, and the word's bytes lie in the bus's lanes (20_memory.md R220). -/
def decodeTableWord (nbits w : Nat) : Option Instr :=
  match decodeBytes (laneBytes (BitVec.ofNat 32 (w % 2 ^ nbits))) with
  | .ok (i, _) => some i
  | .error _ => none

end Sys2Proof
end

