-- ==== Sys2Proof/Machine/Bytes.lean ====
section
/-! DEFINITION. Byte strings and their conversions to and from integers (00_scope.md R10 to R13). -/

namespace Sys2Proof.Machine

/-- `be(n, k)`: the k-byte big-endian encoding of n (00_scope.md R12). -/
def be (n k : Nat) : Bytes :=
  (List.range k).map fun i => BitVec.ofNat 8 (n / 2 ^ (8 * (k - 1 - i)))

/-- `be64(n)` (00_scope.md R12). -/
def be64 (n : Nat) : Bytes := be n 8

/-- `from_be(s)`: the integer whose big-endian encoding is s (00_scope.md R12). -/
def fromBe (s : Bytes) : Nat :=
  s.foldl (fun acc b => acc * 2 ^ 8 + b.toNat) 0

/-- `bytes(n, v)`: n bytes each equal to v (00_scope.md R11). -/
def bytesOf (n : Nat) (v : Byte) : Bytes := List.replicate n v

/-- `s[i..j)`: the bytes of s at indices i <= k < j (00_scope.md R11). -/
def slice (s : Bytes) (i j : Nat) : Bytes := (s.take j).drop i

/-- `a xor b` on byte strings of equal length (00_scope.md R11). -/
def xorBytes (a b : Bytes) : Bytes := List.zipWith (· ^^^ ·) a b

/-- The groups of k elements of s in order; the last one may be shorter. -/
def groupsOf (k : Nat) (s : Bytes) : List Bytes :=
  (List.range ((s.length + (k - 1)) / k)).map fun j => (s.drop (k * j)).take k

/-- `ascii_dec(n, d)`: n as exactly d ASCII decimal digits, left-padded with 0x30 (00_scope.md R12). -/
def asciiDec (n d : Nat) : Bytes :=
  (List.range d).map fun i => BitVec.ofNat 8 (0x30 + n / 10 ^ (d - 1 - i) % 10)

end Sys2Proof.Machine
end

