-- ==== Sys2Proof/Config.lean ====
section
/-! DEFINITION. The implementation parameters of 00_scope.md R7 and their legal values. Entropy bytes and the latency are
no numbers of a configuration: they come with the machine's inputs (Machine/State.lean). -/

namespace Sys2Proof

/-- The parameters a model of CMCORE takes as arguments (00_scope.md R7, 10_state.md R161). -/
structure Config where
  /-- Bus address of offset 0 of the window. -/
  base : Nat
  /-- Size of the input buffer in bytes. -/
  ibufBytes : Nat
  /-- Size of the output buffer in bytes. -/
  obufBytes : Nat
  /-- Capacity of the OTP secret store in bytes. -/
  secretMax : Nat
  deriving DecidableEq, Repr

/-- The legal values of the parameters (00_scope.md R7). -/
abbrev Config.Legal (c : Config) : Prop :=
  c.base % 0x40000 = 0 ∧
  c.ibufBytes % 4 = 0 ∧ 128 ≤ c.ibufBytes ∧ c.ibufBytes ≤ 65536 ∧
  c.obufBytes % 4 = 0 ∧ c.ibufBytes ≤ c.obufBytes ∧ c.obufBytes ≤ 65536 ∧
  1 ≤ c.secretMax ∧ c.secretMax ≤ c.ibufBytes

/-- The defaults of 00_scope.md R7; BASE is "platform's choice" there and 0 here (DESIGN CHOICE, log 2). -/
def Config.default : Config where
  base := 0
  ibufBytes := 4096
  obufBytes := 8192
  secretMax := 64

end Sys2Proof
end

