-- ==== Sys2Proof/Machine/State.lean ====
section
/-! DEFINITION. The state of CMCORE (10_state.md) with what the outside world does next, the reasons a step can stop, and the
state after reset (10_state.md R170). -/

namespace Sys2Proof.Machine

/-- The contents of a buffer: (index, byte) pairs in canonical form, indices strictly rising and no zero byte listed;
an unlisted byte is 0, the reset contents of both buffers (10_state.md R153, R170; log 11). -/
abbrev Memory := List Host.Cell

/-- The sequencer SEQ (10_state.md R102); while BUSY the command word is hidden state (R103, R160). -/
inductive Seq where
  | idle
  | busy (word : Word)
  deriving DecidableEq, Repr

/-- The outstanding entropy request (10_state.md R150) and, once answered, the bytes the command in progress has drawn
(hidden state, R160). -/
inductive EntropyPort where
  /-- No request. -/
  | idle
  /-- A request for n bytes is outstanding and not yet answered: STATUS.ENT_WAIT (10_state.md R122). -/
  | waiting (n : Nat)
  /-- The request has been answered with these bytes; the command has not completed yet. -/
  | answered (bytes : Bytes)
  deriving DecidableEq, Repr

/-- The completion codes (60_exceptions.md R901). The reserved codes 11 to 15 are never written and have no constructor. -/
inductive ErrCode where
  | ok
  | illegalCommand
  | noKey
  | noSecret
  | locked
  | length
  | outputOverflow
  | invalidKeyMaterial
  | invalidToken
  | invalidArgument
  | padding
  deriving DecidableEq, Repr

/-- What the outside world does next, and the instants at which the sequencer goes on (logs 3 to 6 and 10). -/
inductive Input where
  /-- A host read of `bits` bits at a bus address (20_memory.md R210, R212). -/
  | read (bits addr : Nat)
  /-- A host write of a 32-bit value by an access of `bits` bits at a bus address (20_memory.md R211, R212). -/
  | write (bits addr : Nat) (value : Word)
  /-- The entropy source answers the outstanding request (10_state.md R150). The bytes are a free draw
  (93_implementation_defined.md I1). -/
  | entropyAnswer (bytes : Bytes)
  /-- Bytes arrive for a request that a reset cancelled: they are discarded (10_state.md R150). -/
  | staleEntropy (bytes : Bytes)
  /-- The command in progress goes on: to its entropy request or to its completion (70_reset_and_hazards.md R1012, R1020). -/
  | progress
  /-- The platform asserts or releases RST (10_state.md R152). -/
  | rst (asserted : Bool)
  deriving DecidableEq, Repr

/-- Why a step stops with a fault. -/
inductive Fault where
  /-- A host access outside [BASE, BASE + 0x40000), which is no access to CMCORE (20_memory.md R201). Raised by the bus.
  Safe: the model stops where the platform would answer. Log 9. -/
  | outsideWindow
  deriving DecidableEq, Repr

/-- Why a step has no meaning. -/
inductive Refusal where
  /-- An instruction without a meaning, by mnemonic. No arm of this model raises it. Safe. -/
  | notModelled (mnemonic : String)
  /-- A bus access that is not 32 bits wide (20_memory.md R212: "a model refuses it"). Raised by the bus. Safe. Log 8. -/
  | accessWidth
  /-- An entropy answer whose length is not the requested one; the source "answers each request for n bytes with n bytes"
  (00_scope.md R7), so no entropy source does this. Raised by the entropy port. Safe. Log 5. -/
  | entropyLength
  deriving DecidableEq, Repr

/-- The whole state: the registers of 10_state.md R104, the buffers (R153), the key store (R140), the secret store (R142),
the sequencer (R102), the entropy request (R150); then the parameters, the outside world's next inputs, the last bus
answer and the RST level, which are the model's own (logs 1, 3, 7, 10). -/
structure State where
  /-- SEQ, with the command word while BUSY. -/
  seq : Seq
  /-- The entropy request of the command in progress. -/
  entropy : EntropyPort
  /-- CTRL.IRQ_EN (R114). -/
  irqEn : Bool
  /-- STATUS.DONE (R117). -/
  done : Bool
  /-- STATUS.OVERRUN (R121). -/
  overrun : Bool
  /-- STATUS.ERRCODE (R123). -/
  errCode : ErrCode
  /-- IN_LEN (R125). -/
  inLen : Word
  /-- AUX_LEN (R126). -/
  auxLen : Word
  /-- OUT_LEN (R127). -/
  outLen : Word
  /-- RESULT.MATCH (R128). -/
  matched : Bool
  /-- TIME_LO and TIME_HI (R129). -/
  timeLo : Word
  timeHi : Word
  /-- TTL_LO and TTL_HI (R130). -/
  ttlLo : Word
  ttlHi : Word
  /-- ARG_LO and ARG_HI (R131). -/
  argLo : Word
  argHi : Word
  /-- INTERVAL (R132). -/
  interval : Word
  /-- WINDOW.W (R133). -/
  window : BitVec 8
  /-- OTP_CFG bits 5:0: DIGITS in 3:0, HASH in 5:4 (R134). -/
  otpCfg : BitVec 6
  /-- IBUF and OBUF (R153). -/
  ibuf : Memory
  obuf : Memory
  /-- KEY.SK, KEY.EK and KEY.VALID (R140). -/
  keySk : Bytes
  keyEk : Bytes
  keyValid : Bool
  /-- SECRET (SECRET_MAX_BYTES bytes of storage), SECRET_LEN and SECRET.VALID (R142). -/
  secret : Bytes
  secretLen : Nat
  secretValid : Bool
  /-- The parameters (00_scope.md R7). -/
  cfg : Config
  /-- What the outside world does next. -/
  inputs : List Input
  /-- The word the last host read returned. -/
  rdata : Option Word
  /-- The RST input is asserted (70_reset_and_hazards.md R1000). -/
  rst : Bool
  deriving DecidableEq, Repr

/-- The reset values of 10_state.md R170 for the parameters `c`. -/
def State.resetFor (c : Config) : State where
  seq := .idle
  entropy := .idle
  irqEn := false
  done := false
  overrun := false
  errCode := .ok
  inLen := 0
  auxLen := 0
  outLen := 0
  matched := false
  timeLo := 0
  timeHi := 0
  ttlLo := 0
  ttlHi := 0
  argLo := 0
  argHi := 0
  interval := 30
  window := 0
  otpCfg := 6
  ibuf := []
  obuf := []
  keySk := List.replicate 16 0
  keyEk := List.replicate 16 0
  keyValid := false
  secret := List.replicate c.secretMax 0
  secretLen := 0
  secretValid := false
  cfg := c
  inputs := []
  rdata := none
  rst := false

/-- The machine right after reset (10_state.md R170) with the default parameters (logs 1, 2), RST released and nothing
to come from outside (log 3). -/
def State.reset : State := State.resetFor Config.default

end Sys2Proof.Machine
end

