-- ==== Sys2Proof/Machine/Ops.lean ====
section
/-! DEFINITION. The named operations over the buffers, the stores and a command's life-cycle: memory reads and writes, reset,
start, completion, `raise E`, `finish(out)`, the entropy draw. -/

namespace Sys2Proof.Machine

/-! ### Buffers -/

/-- The canonical form of a buffer (log 11): indices strictly rising, no zero byte listed. -/
abbrev Memory.wf (m : Memory) : Prop :=
  m.Pairwise (fun x y => x.1 < y.1) ∧ ∀ c ∈ m, c.2 ≠ 0

/-- Every listed index lies below n. -/
abbrev Memory.Below (m : Memory) (n : Nat) : Prop := ∀ c ∈ m, c.1 < n

/-- The byte at an index; an unlisted byte is 0 (10_state.md R153). -/
def Memory.read : Memory → Nat → Byte
  | [], _ => 0
  | (k, v) :: rest, a => if k = a then v else Memory.read rest a

/-- Writing a byte keeps the canonical form: a zero byte is not listed. -/
def Memory.write : Memory → Nat → Byte → Memory
  | [], a, b => if b = 0 then [] else [(a, b)]
  | (k, v) :: rest, a, b =>
    if a < k then (if b = 0 then (k, v) :: rest else (a, b) :: (k, v) :: rest)
    else if a = k then (if b = 0 then rest else (a, b) :: rest)
    else (k, v) :: Memory.write rest a b

/-- The bytes at the indices i <= k < j (00_scope.md R14). -/
def Memory.readBytes (m : Memory) (i j : Nat) : Bytes :=
  (List.range (j - i)).map fun k => m.read (i + k)

/-- The buffer that holds a byte string from index k on and zeros elsewhere. -/
def Memory.ofBytesFrom : Nat → Bytes → Memory
  | _, [] => []
  | k, b :: rest => if b = 0 then Memory.ofBytesFrom (k + 1) rest else (k, b) :: Memory.ofBytesFrom (k + 1) rest

/-- The buffer that holds a byte string from index 0 on and zeros elsewhere (60_exceptions.md R903). -/
def Memory.ofBytes (s : Bytes) : Memory := Memory.ofBytesFrom 0 s

/-- The buffer of zeros. -/
def Memory.zeros : Memory := []

/-- The word of the four bytes from a on, in little-endian lanes (20_memory.md R210, R220). -/
def Memory.readWord (m : Memory) (a : Nat) : Word :=
  ofLanes (m.read a) (m.read (a + 1)) (m.read (a + 2)) (m.read (a + 3))

/-- Storing a word into the four bytes from a on, in little-endian lanes (20_memory.md R211, R220). -/
def Memory.writeWord (m : Memory) (a : Nat) (v : Word) : Memory :=
  (((m.write a (v.extractLsb' 0 8)).write (a + 1) (v.extractLsb' 8 8)).write (a + 2) (v.extractLsb' 16 8)).write
    (a + 3) (v.extractLsb' 24 8)

/-! ### Reset -/

/-- The effect of a reset (70_reset_and_hazards.md R1001, R1002): every piece of state at its reset value; the parameters,
the outside world's inputs, its last bus answer and the RST level are no state of CMCORE. -/
def State.toReset (s : State) : State :=
  { State.resetFor s.cfg with inputs := s.inputs, rdata := s.rdata, rst := s.rst }

/-- The platform drives RST (10_state.md R152, 70_reset_and_hazards.md R1000): asserting it resets; releasing it only lets
accesses through again. -/
def State.driveRst (s : State) (asserted : Bool) : State :=
  if asserted then { s.toReset with rst := true } else { s with rst := false }

/-! ### A command's life-cycle -/

/-- Start (70_reset_and_hazards.md R1010): a write of w to CMD while SEQ = IDLE. -/
def State.start (s : State) (w : Word) : State :=
  { s with
    seq := .busy w, entropy := .idle, done := false, errCode := .ok, outLen := 0, matched := false,
    obuf := Memory.zeros }

/-- The completion writes common to success and error (60_exceptions.md R902, R903; 70_reset_and_hazards.md R1020): the
code, OUT_LEN and all of OBUF, RESULT.MATCH, SEQ, DONE; nothing of the hidden state survives (10_state.md R160). -/
def State.complete (s : State) (code : ErrCode) (out : Bytes) (matched : Bool) : State :=
  { s with
    seq := .idle, entropy := .idle, done := true, errCode := code, outLen := BitVec.ofNat 32 out.length,
    matched := matched, obuf := Memory.ofBytes out }

/-- `raise E` (60_exceptions.md R900, R902). CMCORE's one way of reporting an error: there is no trap (R920). -/
def State.raiseError (s : State) (code : ErrCode) : State := s.complete code [] false

/-- `finish(out)` (60_exceptions.md R903). -/
def State.finish (s : State) (out : Bytes) : State := s.complete .ok out false

/-- The completion of OTP_VERIFY: RESULT.MATCH <- match, finish("") (43_otp.md R740). -/
def State.finishMatch (s : State) (matched : Bool) : State := s.complete .ok [] matched

/-- `draw_entropy(n)` (10_state.md R150, 70_reset_and_hazards.md R1012, R1031): the first time the command reaches it, it
makes the request; while the request is unanswered the command holds; with the answer it goes on to its completion. -/
def State.drawEntropy (s : State) (n : Nat) (cont : Bytes → State) : State :=
  match s.entropy with
  | .idle => { s with entropy := .waiting n }
  | .waiting _ => s
  | .answered bytes => cont bytes

/-- How many entropy bytes a command draws, if it draws any (70_reset_and_hazards.md R1012). -/
def drawBytes : Instr → Option Nat
  | .keyGenerate _ => some 32
  | .tokenEncrypt _ => some 16
  | _ => none

/-! ### The stores -/

/-- IBUF <- bytes(IBUF_BYTES, 0). -/
def State.zeroIbuf (s : State) : State := { s with ibuf := Memory.zeros }

/-- KEY.SK <- m[0..16); KEY.EK <- m[16..32); KEY.VALID <- 1 (42_token_codec.md R620). -/
def State.loadKey (s : State) (m : Bytes) : State :=
  { s with keySk := slice m 0 16, keyEk := slice m 16 32, keyValid := true }

/-- SECRET <- b, zero-filled; SECRET_LEN <- len(b); SECRET.VALID <- 1 (43_otp.md R720). -/
def State.loadSecret (s : State) (b : Bytes) : State :=
  { s with secret := b ++ bytesOf (s.cfg.secretMax - b.length) 0, secretLen := b.length, secretValid := true }

/-- Both stores cleared (44_control.md R800). -/
def State.clearStores (s : State) : State :=
  { s with
    keySk := bytesOf 16 0, keyEk := bytesOf 16 0, keyValid := false,
    secret := bytesOf s.cfg.secretMax 0, secretLen := 0, secretValid := false }

end Sys2Proof.Machine
end

