-- ==== Sys2Proof/Machine/Flags.lean ====
section
/-! DEFINITION. The flags as the host sees and writes them: STATUS (10_state.md R115 to R123), CTRL (R114), RESULT (R128), the
interrupt output (R151). -/

namespace Sys2Proof.Machine

/-- The number of a completion code (60_exceptions.md R901). -/
def errNumber : ErrCode → Nat
  | .ok => 0
  | .illegalCommand => 1
  | .noKey => 2
  | .noSecret => 3
  | .locked => 4
  | .length => 5
  | .outputOverflow => 6
  | .invalidKeyMaterial => 7
  | .invalidToken => 8
  | .invalidArgument => 9
  | .padding => 10

/-- STATUS.BUSY (10_state.md R116). -/
def State.busyFlag (s : State) : Bool :=
  match s.seq with
  | .idle => false
  | .busy _ => true

/-- STATUS.ERR (10_state.md R118): a view of ERRCODE. -/
def State.errFlag (s : State) : Bool := decide (errNumber s.errCode ≠ 0)

/-- STATUS.ENT_WAIT (10_state.md R122): BUSY with an entropy request outstanding and unanswered. -/
def State.entWaitFlag (s : State) : Bool :=
  match s.entropy with
  | .waiting _ => s.busyFlag
  | .idle => false
  | .answered _ => false

/-- The word read from STATUS (10_state.md R115). -/
def State.statusWord (s : State) : Word :=
  BitVec.ofNat 32
    (s.busyFlag.toNat * 2 ^ 0 + s.done.toNat * 2 ^ 1 + s.errFlag.toNat * 2 ^ 2 + s.keyValid.toNat * 2 ^ 3 +
      s.secretValid.toNat * 2 ^ 4 + s.overrun.toNat * 2 ^ 5 + s.entWaitFlag.toNat * 2 ^ 6 +
      errNumber s.errCode * 2 ^ 8)

/-- A write of v to STATUS (10_state.md R115): DONE and OVERRUN are cleared by a 1, every other bit is ignored. -/
def State.writeStatus (s : State) (v : Word) : State :=
  { s with done := s.done && !v.getLsbD 1, overrun := s.overrun && !v.getLsbD 5 }

/-- The word read from CTRL (10_state.md R114): SRST and the reserved bits read 0. -/
def State.ctrlWord (s : State) : Word := BitVec.ofNat 32 s.irqEn.toNat

/-- A write of v to CTRL (10_state.md R114, 70_reset_and_hazards.md R1003): bit 1 performs a soft reset and discards bit 0. -/
def State.writeCtrl (s : State) (v : Word) : State :=
  if v.getLsbD 1 then s.toReset else { s with irqEn := v.getLsbD 0 }

/-- The word read from RESULT (10_state.md R128). -/
def State.resultWord (s : State) : Word := BitVec.ofNat 32 s.matched.toNat

/-- A write of w to CMD (10_state.md R124): a start while IDLE, an overrun while BUSY. -/
def State.writeCmd (s : State) (w : Word) : State :=
  match s.seq with
  | .idle => s.start w
  | .busy _ => { s with overrun := true }

/-- The interrupt output IRQ (10_state.md R151). -/
def State.irq (s : State) : Bool := s.irqEn && s.done

end Sys2Proof.Machine
end

