-- ==== Sys2Proof/Machine/Hash.lean ====
section
/-! DEFINITION. SHA-256 and SHA-1 (41_mac.md R500 to R511). -/

namespace Sys2Proof.Machine

/-- The two hash functions of the MAC unit (41_mac.md R500). -/
inductive HashAlg where
  | sha1
  | sha256
  deriving DecidableEq, Repr

/-- A hash selector: 0 SHA-1, 1 SHA-256, 2 and 3 none (10_state.md R134, 30_encoding.md R306). -/
def hashOfSelector (sel : BitVec 2) : Option HashAlg :=
  if sel.toNat = 0 then some .sha1 else if sel.toNat = 1 then some .sha256 else none

/-- The digest length in bytes (41_mac.md R500). -/
def HashAlg.digestLength : HashAlg → Nat
  | .sha1 => 20
  | .sha256 => 32

/-- MDPad (41_mac.md R501): z is the least number with (n + 1 + z + 8) mod 64 = 0. -/
def mdPad (m : Bytes) : Bytes :=
  m ++ [0x80] ++ bytesOf ((119 - m.length % 64) % 64) 0x00 ++ be64 (8 * m.length)

/-- The sixteen words W_0 .. W_15 of a 64-byte block (41_mac.md R501). -/
def blockWords (b : Bytes) : List Word :=
  (groupsOf 4 b).map fun w => BitVec.ofNat 32 (fromBe w)

/-- `Ch`, `Maj`, `Σ0`, `Σ1`, `σ0`, `σ1` of 41_mac.md R502. -/
def shaCh (x y z : Word) : Word := (x &&& y) ^^^ (~~~x &&& z)
def shaMaj (x y z : Word) : Word := (x &&& y) ^^^ (x &&& z) ^^^ (y &&& z)
def bigSigma0 (x : Word) : Word := x.rotateRight 2 ^^^ x.rotateRight 13 ^^^ x.rotateRight 22
def bigSigma1 (x : Word) : Word := x.rotateRight 6 ^^^ x.rotateRight 11 ^^^ x.rotateRight 25
def smallSigma0 (x : Word) : Word := x.rotateRight 7 ^^^ x.rotateRight 18 ^^^ (x >>> 3)
def smallSigma1 (x : Word) : Word := x.rotateRight 17 ^^^ x.rotateRight 19 ^^^ (x >>> 10)

/-- K_0 .. K_63 (41_mac.md R503). -/
def sha256K : List Word :=
  [0x428a2f98, 0x71374491, 0xb5c0fbcf, 0xe9b5dba5, 0x3956c25b, 0x59f111f1, 0x923f82a4, 0xab1c5ed5] ++
  [0xd807aa98, 0x12835b01, 0x243185be, 0x550c7dc3, 0x72be5d74, 0x80deb1fe, 0x9bdc06a7, 0xc19bf174] ++
  [0xe49b69c1, 0xefbe4786, 0x0fc19dc6, 0x240ca1cc, 0x2de92c6f, 0x4a7484aa, 0x5cb0a9dc, 0x76f988da] ++
  [0x983e5152, 0xa831c66d, 0xb00327c8, 0xbf597fc7, 0xc6e00bf3, 0xd5a79147, 0x06ca6351, 0x14292967] ++
  [0x27b70a85, 0x2e1b2138, 0x4d2c6dfc, 0x53380d13, 0x650a7354, 0x766a0abb, 0x81c2c92e, 0x92722c85] ++
  [0xa2bfe8a1, 0xa81a664b, 0xc24b8b70, 0xc76c51a3, 0xd192e819, 0xd6990624, 0xf40e3585, 0x106aa070] ++
  [0x19a4c116, 0x1e376c08, 0x2748774c, 0x34b0bcb5, 0x391c0cb3, 0x4ed8aa4a, 0x5b9cca4f, 0x682e6ff3] ++
  [0x748f82ee, 0x78a5636f, 0x84c87814, 0x8cc70208, 0x90befffa, 0xa4506ceb, 0xbef9a3f7, 0xc67178f2]

/-- The eight 32-bit words of the SHA-256 chaining state and working variables (41_mac.md R504, R505). -/
structure Sha256State where
  a : Word
  b : Word
  c : Word
  d : Word
  e : Word
  f : Word
  g : Word
  h : Word
  deriving DecidableEq, Repr

/-- H_0 .. H_7 (41_mac.md R504). -/
def sha256Init : Sha256State :=
  ⟨0x6a09e667, 0xbb67ae85, 0x3c6ef372, 0xa54ff53a, 0x510e527f, 0x9b05688c, 0x1f83d9ab, 0x5be0cd19⟩

/-- n more words of the SHA-256 message schedule (41_mac.md R505), the newest word first in the list. -/
def sha256Schedule : Nat → List Word → List Word
  | 0, w => w
  | n + 1, w =>
    sha256Schedule n
      ((smallSigma1 (w.getD 1 0) + w.getD 6 0 + smallSigma0 (w.getD 14 0) + w.getD 15 0) :: w)

/-- One round of SHA-256 with K[t] and W[t] (41_mac.md R505). -/
def sha256Round (s : Sha256State) (kw : Word × Word) : Sha256State :=
  let t1 := s.h + bigSigma1 s.e + shaCh s.e s.f s.g + kw.1 + kw.2
  let t2 := bigSigma0 s.a + shaMaj s.a s.b s.c
  ⟨t1 + t2, s.a, s.b, s.c, s.d + t1, s.e, s.f, s.g⟩

/-- SHA-256's work on one block (41_mac.md R505). -/
def sha256Compress (hs : Sha256State) (b : Bytes) : Sha256State :=
  let w := (sha256Schedule 48 (blockWords b).reverse).reverse
  let s := (sha256K.zip w).foldl sha256Round hs
  ⟨hs.a + s.a, hs.b + s.b, hs.c + s.c, hs.d + s.d, hs.e + s.e, hs.f + s.f, hs.g + s.g, hs.h + s.h⟩

/-- SHA256(m) (41_mac.md R505). -/
def sha256Hash (m : Bytes) : Bytes :=
  let hs := (groupsOf 64 (mdPad m)).foldl sha256Compress sha256Init
  [hs.a, hs.b, hs.c, hs.d, hs.e, hs.f, hs.g, hs.h].flatMap fun x => be x.toNat 4

/-- f_t(b, c, d) of 41_mac.md R510. -/
def sha1F (t : Nat) (b c d : Word) : Word :=
  if t < 20 then (b &&& c) ||| (~~~b &&& d)
  else if t < 40 then b ^^^ c ^^^ d
  else if t < 60 then (b &&& c) ||| (b &&& d) ||| (c &&& d)
  else b ^^^ c ^^^ d

/-- K_t of 41_mac.md R510. -/
def sha1K (t : Nat) : Word :=
  if t < 20 then 0x5a827999
  else if t < 40 then 0x6ed9eba1
  else if t < 60 then 0x8f1bbcdc
  else 0xca62c1d6

/-- The five 32-bit words of the SHA-1 chaining state and working variables (41_mac.md R510, R511). -/
structure Sha1State where
  a : Word
  b : Word
  c : Word
  d : Word
  e : Word
  deriving DecidableEq, Repr

/-- H_0 .. H_4 (41_mac.md R510). -/
def sha1Init : Sha1State :=
  ⟨0x67452301, 0xefcdab89, 0x98badcfe, 0x10325476, 0xc3d2e1f0⟩

/-- n more words of the SHA-1 message schedule (41_mac.md R511), the newest word first in the list. -/
def sha1Schedule : Nat → List Word → List Word
  | 0, w => w
  | n + 1, w =>
    sha1Schedule n ((w.getD 2 0 ^^^ w.getD 7 0 ^^^ w.getD 13 0 ^^^ w.getD 15 0).rotateLeft 1 :: w)

/-- Round t of SHA-1 with W[t] (41_mac.md R511). -/
def sha1Round (s : Sha1State) (tw : Nat × Word) : Sha1State :=
  ⟨s.a.rotateLeft 5 + sha1F tw.1 s.b s.c s.d + s.e + sha1K tw.1 + tw.2, s.a, s.b.rotateLeft 30, s.c, s.d⟩

/-- SHA-1's work on one block (41_mac.md R511). -/
def sha1Compress (hs : Sha1State) (b : Bytes) : Sha1State :=
  let w := (sha1Schedule 64 (blockWords b).reverse).reverse
  let s := ((List.range 80).zip w).foldl sha1Round hs
  ⟨hs.a + s.a, hs.b + s.b, hs.c + s.c, hs.d + s.d, hs.e + s.e⟩

/-- SHA1(m) (41_mac.md R511). -/
def sha1Hash (m : Bytes) : Bytes :=
  let hs := (groupsOf 64 (mdPad m)).foldl sha1Compress sha1Init
  [hs.a, hs.b, hs.c, hs.d, hs.e].flatMap fun x => be x.toNat 4

/-- H(m) for the selected hash function (41_mac.md R500). -/
def HashAlg.digest : HashAlg → Bytes → Bytes
  | .sha1, m => sha1Hash m
  | .sha256, m => sha256Hash m

end Sys2Proof.Machine
end

