-- ==== Sys2Proof/Machine/Operands.lean ====
section
/-! DEFINITION. Where a command's operands come from: the regions of IBUF (20_memory.md R240), the registers (30_encoding.md
R312), the 64-bit pairs (20_memory.md R223), OTP_CFG (43_otp.md R711), the secret (43_otp.md R713). -/

namespace Sys2Proof.Machine

/-- L = IN_LEN as an unsigned integer (10_state.md R125). -/
def State.inLength (s : State) : Nat := s.inLen.toNat

/-- A = AUX_LEN as an unsigned integer (10_state.md R126). -/
def State.auxLength (s : State) : Nat := s.auxLen.toNat

/-- IBUF[i..j) (00_scope.md R14). -/
def State.ibufRange (s : State) (i j : Nat) : Bytes := s.ibuf.readBytes i j

/-- IBUF[0..L): the primary input (20_memory.md R240). -/
def State.primaryInput (s : State) : Bytes := s.ibufRange 0 s.inLength

/-- The value HI·2^32 + LO of a register pair (20_memory.md R223). -/
def pairValue (hi lo : Word) : Nat := hi.toNat * 2 ^ 32 + lo.toNat

/-- TIME (10_state.md R129). -/
def State.time (s : State) : Nat := pairValue s.timeHi s.timeLo

/-- TTL (10_state.md R130). -/
def State.ttl (s : State) : Nat := pairValue s.ttlHi s.ttlLo

/-- ARG (10_state.md R131). -/
def State.arg (s : State) : Nat := pairValue s.argHi s.argLo

/-- The time OTP_VERIFY uses: ARG if FOR_TIME = 1, else TIME (30_encoding.md R305, 43_otp.md R740). -/
def State.verifyTime (s : State) (forTime : Bool) : Nat := if forTime then s.arg else s.time

/-- OTP_CFG.DIGITS (10_state.md R134). -/
def State.digits (s : State) : Nat := (s.otpCfg.extractLsb' 0 4).toNat

/-- OTP_CFG.HASH (10_state.md R134). -/
def State.hashSelector (s : State) : BitVec 2 := s.otpCfg.extractLsb' 4 2

/-- OtpCfg (43_otp.md R711): the digits and the hash; none raises INVALID_ARGUMENT. -/
def State.otpConfig (s : State) : Option (Nat × HashAlg) :=
  if s.digits < 1 ∨ 10 < s.digits then none
  else
    match hashOfSelector s.hashSelector with
    | some h => some (s.digits, h)
    | none => none

/-- The secret the OTP commands use: SECRET[0..SECRET_LEN) (43_otp.md R713). -/
def State.secretBytes (s : State) : Bytes := s.secret.take s.secretLen

end Sys2Proof.Machine
end

