-- ==== Sys2Proof/Machine/Bus.lean ====
section
/-! DEFINITION. The host bus window: the register map, MemRead and MemWrite, the host's accesses (10_state.md R104, R105,
R110 to R135; 20_memory.md R200 to R220). -/

namespace Sys2Proof.Machine

/-- The host-visible registers (10_state.md R104). -/
inductive Reg where
  | id
  | ibufSize
  | obufSize
  | secretMax
  | ctrl
  | status
  | cmd
  | inLen
  | auxLen
  | outLen
  | result
  | timeLo
  | timeHi
  | ttlLo
  | ttlHi
  | argLo
  | argHi
  | interval
  | window
  | otpCfg
  deriving DecidableEq, Repr

/-- The register map (10_state.md R104): every other offset below 0x10000 is reserved (R135). -/
def registerMap : List (Nat × Reg) :=
  [(0x000, .id), (0x004, .ibufSize), (0x008, .obufSize), (0x00C, .secretMax), (0x010, .ctrl), (0x014, .status),
   (0x018, .cmd), (0x01C, .inLen), (0x020, .auxLen), (0x024, .outLen), (0x028, .result)] ++
  [(0x030, .timeLo), (0x034, .timeHi), (0x038, .ttlLo), (0x03C, .ttlHi), (0x040, .argLo), (0x044, .argHi),
   (0x048, .interval), (0x04C, .window), (0x050, .otpCfg)]

/-- The register at a word offset, none where the offset is reserved. -/
def registerAt (woff : Nat) : Option Reg := registerMap.lookup woff

/-- What an aligned word of the window is (20_memory.md R202, R204, R205). -/
inductive Location where
  | register (r : Reg)
  /-- IBUF bytes k .. k+3. -/
  | ibufWord (k : Nat)
  /-- OBUF bytes k .. k+3. -/
  | obufWord (k : Nat)
  | reserved
  deriving DecidableEq, Repr

/-- woff = off[17:2]·4: bits 1:0 of an offset are ignored (20_memory.md R201, R213). -/
def wordOffset (off : Nat) : Nat := off / 4 % 2 ^ 16 * 4

/-- The map of the window by word offset (20_memory.md R202, R204, R205). -/
def locate (c : Config) (woff : Nat) : Location :=
  if woff < 0x10000 then
    match registerAt woff with
    | some r => .register r
    | none => .reserved
  else if woff < 0x20000 then
    if woff - 0x10000 < c.ibufBytes then .ibufWord (woff - 0x10000) else .reserved
  else if woff < 0x30000 then
    if woff - 0x20000 < c.obufBytes then .obufWord (woff - 0x20000) else .reserved
  else .reserved

/-- The value a read of a register returns (10_state.md R110 to R134). -/
def State.readReg (s : State) : Reg → Word
  | .id => 0x434D0001
  | .ibufSize => BitVec.ofNat 32 s.cfg.ibufBytes
  | .obufSize => BitVec.ofNat 32 s.cfg.obufBytes
  | .secretMax => BitVec.ofNat 32 s.cfg.secretMax
  | .ctrl => s.ctrlWord
  | .status => s.statusWord
  | .cmd => 0
  | .inLen => s.inLen
  | .auxLen => s.auxLen
  | .outLen => s.outLen
  | .result => s.resultWord
  | .timeLo => s.timeLo
  | .timeHi => s.timeHi
  | .ttlLo => s.ttlLo
  | .ttlHi => s.ttlHi
  | .argLo => s.argLo
  | .argHi => s.argHi
  | .interval => s.interval
  | .window => s.window.setWidth 32
  | .otpCfg => s.otpCfg.setWidth 32

/-- A write to an input-locked register or to IBUF: ignored while SEQ = BUSY (10_state.md R106). -/
def State.unlessBusy (s t : State) : State :=
  match s.seq with
  | .idle => t
  | .busy _ => s

/-- The effect of a write of v to a register (10_state.md R105, R110 to R134). -/
def State.writeReg (s : State) (r : Reg) (v : Word) : State :=
  match r with
  | .id => s
  | .ibufSize => s
  | .obufSize => s
  | .secretMax => s
  | .ctrl => s.writeCtrl v
  | .status => s.writeStatus v
  | .cmd => s.writeCmd v
  | .inLen => s.unlessBusy { s with inLen := v }
  | .auxLen => s.unlessBusy { s with auxLen := v }
  | .outLen => s
  | .result => s
  | .timeLo => s.unlessBusy { s with timeLo := v }
  | .timeHi => s.unlessBusy { s with timeHi := v }
  | .ttlLo => s.unlessBusy { s with ttlLo := v }
  | .ttlHi => s.unlessBusy { s with ttlHi := v }
  | .argLo => s.unlessBusy { s with argLo := v }
  | .argHi => s.unlessBusy { s with argHi := v }
  | .interval => s.unlessBusy { s with interval := v }
  | .window => s.unlessBusy { s with window := v.setWidth 8 }
  | .otpCfg => s.unlessBusy { s with otpCfg := v.setWidth 6 }

/-- `MemRead(off, 4)` (20_memory.md R210): no side effect. While BUSY an OBUF word reads 0 (R206). -/
def State.memRead (s : State) (off : Nat) : Word :=
  match locate s.cfg (wordOffset off) with
  | .register r => s.readReg r
  | .ibufWord k => s.ibuf.readWord k
  | .obufWord k => if s.busyFlag then 0 else s.obuf.readWord k
  | .reserved => 0

/-- `MemWrite(off, 4, v)` (20_memory.md R211): an OBUF or reserved word ignores it. -/
def State.memWrite (s : State) (off : Nat) (v : Word) : State :=
  match locate s.cfg (wordOffset off) with
  | .register r => s.writeReg r v
  | .ibufWord k => s.unlessBusy { s with ibuf := s.ibuf.writeWord k v }
  | .obufWord _ => s
  | .reserved => s

/-- The offset of a bus address in the window [BASE, BASE + 0x40000) (20_memory.md R201). -/
def windowOffset (c : Config) (addr : Nat) : Option Nat :=
  if c.base ≤ addr ∧ addr < c.base + 0x40000 then some (addr - c.base) else none

/-- A host read (20_memory.md R210, R212). While RST is held asserted a read returns 0 (70_reset_and_hazards.md R1000). -/
def hostRead (bits addr : Nat) (s : State) : Host.Outcome State Fault Refusal :=
  match windowOffset s.cfg addr with
  | none => .fault .outsideWindow
  | some off =>
    if bits ≠ 32 then .refused .accessWidth
    else .next { s with rdata := some (if s.rst then 0 else s.memRead off) }

/-- A host write (20_memory.md R211, R212). While RST is held asserted a write is ignored (70_reset_and_hazards.md R1000). -/
def hostWrite (bits addr : Nat) (v : Word) (s : State) : Host.Outcome State Fault Refusal :=
  match windowOffset s.cfg addr with
  | none => .fault .outsideWindow
  | some off =>
    if bits ≠ 32 then .refused .accessWidth
    else .next (if s.rst then s else s.memWrite off v)

/-- The entropy source answers (10_state.md R150): taken by a request of that length, discarded where none is
outstanding. -/
def entropyAnswered (bytes : Bytes) (s : State) : Host.Outcome State Fault Refusal :=
  match s.entropy with
  | .waiting n =>
    if bytes.length = n then .next { s with entropy := .answered bytes } else .refused .entropyLength
  | .idle => .next s
  | .answered _ => .next s

end Sys2Proof.Machine
end

