-- ==== Sys2Proof/Machine/Aes.lean ====
section
/-! DEFINITION. AES-128: the field GF(2^8), the S-boxes, the round transformations, the key schedule, the single-block
cipher and its inverse (40_block_cipher.md R402 to R426). -/

namespace Sys2Proof.Machine

/-- Multiplication by x in GF(2^8) (40_block_cipher.md R402). -/
def xtime (a : Byte) : Byte := (a <<< 1) ^^^ (if a.getLsbD 7 then 0x1B else 0x00)

/-- xtime applied n times. -/
def xtimes : Nat → Byte → Byte
  | 0, a => a
  | n + 1, a => xtimes n (xtime a)

/-- The product a • b of GF(2^8): the xor over the set bits i of b of xtime applied i times to a (40_block_cipher.md R402). -/
def gmul (a b : Byte) : Byte :=
  (List.range 8).foldl (fun acc i => if b.getLsbD i then acc ^^^ xtimes i a else acc) 0

/-- The table S of 40_block_cipher.md R403: row = high hex digit, column = low hex digit. -/
def sboxTable : List (List Byte) :=
  [[0x63, 0x7c, 0x77, 0x7b, 0xf2, 0x6b, 0x6f, 0xc5, 0x30, 0x01, 0x67, 0x2b, 0xfe, 0xd7, 0xab, 0x76],
   [0xca, 0x82, 0xc9, 0x7d, 0xfa, 0x59, 0x47, 0xf0, 0xad, 0xd4, 0xa2, 0xaf, 0x9c, 0xa4, 0x72, 0xc0],
   [0xb7, 0xfd, 0x93, 0x26, 0x36, 0x3f, 0xf7, 0xcc, 0x34, 0xa5, 0xe5, 0xf1, 0x71, 0xd8, 0x31, 0x15],
   [0x04, 0xc7, 0x23, 0xc3, 0x18, 0x96, 0x05, 0x9a, 0x07, 0x12, 0x80, 0xe2, 0xeb, 0x27, 0xb2, 0x75],
   [0x09, 0x83, 0x2c, 0x1a, 0x1b, 0x6e, 0x5a, 0xa0, 0x52, 0x3b, 0xd6, 0xb3, 0x29, 0xe3, 0x2f, 0x84],
   [0x53, 0xd1, 0x00, 0xed, 0x20, 0xfc, 0xb1, 0x5b, 0x6a, 0xcb, 0xbe, 0x39, 0x4a, 0x4c, 0x58, 0xcf],
   [0xd0, 0xef, 0xaa, 0xfb, 0x43, 0x4d, 0x33, 0x85, 0x45, 0xf9, 0x02, 0x7f, 0x50, 0x3c, 0x9f, 0xa8],
   [0x51, 0xa3, 0x40, 0x8f, 0x92, 0x9d, 0x38, 0xf5, 0xbc, 0xb6, 0xda, 0x21, 0x10, 0xff, 0xf3, 0xd2],
   [0xcd, 0x0c, 0x13, 0xec, 0x5f, 0x97, 0x44, 0x17, 0xc4, 0xa7, 0x7e, 0x3d, 0x64, 0x5d, 0x19, 0x73],
   [0x60, 0x81, 0x4f, 0xdc, 0x22, 0x2a, 0x90, 0x88, 0x46, 0xee, 0xb8, 0x14, 0xde, 0x5e, 0x0b, 0xdb],
   [0xe0, 0x32, 0x3a, 0x0a, 0x49, 0x06, 0x24, 0x5c, 0xc2, 0xd3, 0xac, 0x62, 0x91, 0x95, 0xe4, 0x79],
   [0xe7, 0xc8, 0x37, 0x6d, 0x8d, 0xd5, 0x4e, 0xa9, 0x6c, 0x56, 0xf4, 0xea, 0x65, 0x7a, 0xae, 0x08],
   [0xba, 0x78, 0x25, 0x2e, 0x1c, 0xa6, 0xb4, 0xc6, 0xe8, 0xdd, 0x74, 0x1f, 0x4b, 0xbd, 0x8b, 0x8a],
   [0x70, 0x3e, 0xb5, 0x66, 0x48, 0x03, 0xf6, 0x0e, 0x61, 0x35, 0x57, 0xb9, 0x86, 0xc1, 0x1d, 0x9e],
   [0xe1, 0xf8, 0x98, 0x11, 0x69, 0xd9, 0x8e, 0x94, 0x9b, 0x1e, 0x87, 0xe9, 0xce, 0x55, 0x28, 0xdf],
   [0x8c, 0xa1, 0x89, 0x0d, 0xbf, 0xe6, 0x42, 0x68, 0x41, 0x99, 0x2d, 0x0f, 0xb0, 0x54, 0xbb, 0x16]]

/-- The table IS of 40_block_cipher.md R405: row = high hex digit, column = low hex digit. -/
def invSboxTable : List (List Byte) :=
  [[0x52, 0x09, 0x6a, 0xd5, 0x30, 0x36, 0xa5, 0x38, 0xbf, 0x40, 0xa3, 0x9e, 0x81, 0xf3, 0xd7, 0xfb],
   [0x7c, 0xe3, 0x39, 0x82, 0x9b, 0x2f, 0xff, 0x87, 0x34, 0x8e, 0x43, 0x44, 0xc4, 0xde, 0xe9, 0xcb],
   [0x54, 0x7b, 0x94, 0x32, 0xa6, 0xc2, 0x23, 0x3d, 0xee, 0x4c, 0x95, 0x0b, 0x42, 0xfa, 0xc3, 0x4e],
   [0x08, 0x2e, 0xa1, 0x66, 0x28, 0xd9, 0x24, 0xb2, 0x76, 0x5b, 0xa2, 0x49, 0x6d, 0x8b, 0xd1, 0x25],
   [0x72, 0xf8, 0xf6, 0x64, 0x86, 0x68, 0x98, 0x16, 0xd4, 0xa4, 0x5c, 0xcc, 0x5d, 0x65, 0xb6, 0x92],
   [0x6c, 0x70, 0x48, 0x50, 0xfd, 0xed, 0xb9, 0xda, 0x5e, 0x15, 0x46, 0x57, 0xa7, 0x8d, 0x9d, 0x84],
   [0x90, 0xd8, 0xab, 0x00, 0x8c, 0xbc, 0xd3, 0x0a, 0xf7, 0xe4, 0x58, 0x05, 0xb8, 0xb3, 0x45, 0x06],
   [0xd0, 0x2c, 0x1e, 0x8f, 0xca, 0x3f, 0x0f, 0x02, 0xc1, 0xaf, 0xbd, 0x03, 0x01, 0x13, 0x8a, 0x6b],
   [0x3a, 0x91, 0x11, 0x41, 0x4f, 0x67, 0xdc, 0xea, 0x97, 0xf2, 0xcf, 0xce, 0xf0, 0xb4, 0xe6, 0x73],
   [0x96, 0xac, 0x74, 0x22, 0xe7, 0xad, 0x35, 0x85, 0xe2, 0xf9, 0x37, 0xe8, 0x1c, 0x75, 0xdf, 0x6e],
   [0x47, 0xf1, 0x1a, 0x71, 0x1d, 0x29, 0xc5, 0x89, 0x6f, 0xb7, 0x62, 0x0e, 0xaa, 0x18, 0xbe, 0x1b],
   [0xfc, 0x56, 0x3e, 0x4b, 0xc6, 0xd2, 0x79, 0x20, 0x9a, 0xdb, 0xc0, 0xfe, 0x78, 0xcd, 0x5a, 0xf4],
   [0x1f, 0xdd, 0xa8, 0x33, 0x88, 0x07, 0xc7, 0x31, 0xb1, 0x12, 0x10, 0x59, 0x27, 0x80, 0xec, 0x5f],
   [0x60, 0x51, 0x7f, 0xa9, 0x19, 0xb5, 0x4a, 0x0d, 0x2d, 0xe5, 0x7a, 0x9f, 0x93, 0xc9, 0x9c, 0xef],
   [0xa0, 0xe0, 0x3b, 0x4d, 0xae, 0x2a, 0xf5, 0xb0, 0xc8, 0xeb, 0xbb, 0x3c, 0x83, 0x53, 0x99, 0x61],
   [0x17, 0x2b, 0x04, 0x7e, 0xba, 0x77, 0xd6, 0x26, 0xe1, 0x69, 0x14, 0x63, 0x55, 0x21, 0x0c, 0x7d]]

/-- The entry of a 16 by 16 table for the byte a. -/
def tableAt (t : List (List Byte)) (a : Byte) : Byte := (t.getD (a.toNat / 16) []).getD (a.toNat % 16) 0

/-- S[a] (40_block_cipher.md R403). -/
def sbox (a : Byte) : Byte := tableAt sboxTable a

/-- IS[a] (40_block_cipher.md R405). -/
def invSbox (a : Byte) : Byte := tableAt invSboxTable a

/-- s[r][c] of a block: byte r + 4c (40_block_cipher.md R410). -/
def cell (s : Bytes) (r c : Nat) : Byte := s.getD (r + 4 * c) 0

/-- The block whose s[r][c] is f r c (40_block_cipher.md R410). -/
def block (f : Nat → Nat → Byte) : Bytes := (List.range 16).map fun k => f (k % 4) (k / 4)

/-- SubBytes (40_block_cipher.md R411). -/
def subBytes (s : Bytes) : Bytes := block fun r c => sbox (cell s r c)

/-- ShiftRows (40_block_cipher.md R412). -/
def shiftRows (s : Bytes) : Bytes := block fun r c => cell s r ((c + r) % 4)

/-- MixColumns (40_block_cipher.md R413). -/
def mixColumns (s : Bytes) : Bytes :=
  block fun r c =>
    let a0 := cell s 0 c
    let a1 := cell s 1 c
    let a2 := cell s 2 c
    let a3 := cell s 3 c
    match r with
    | 0 => gmul 0x02 a0 ^^^ gmul 0x03 a1 ^^^ a2 ^^^ a3
    | 1 => a0 ^^^ gmul 0x02 a1 ^^^ gmul 0x03 a2 ^^^ a3
    | 2 => a0 ^^^ a1 ^^^ gmul 0x02 a2 ^^^ gmul 0x03 a3
    | _ => gmul 0x03 a0 ^^^ a1 ^^^ a2 ^^^ gmul 0x02 a3

/-- AddRoundKey (40_block_cipher.md R414). -/
def addRoundKey (s rk : Bytes) : Bytes := block fun r c => cell s r c ^^^ cell rk r c

/-- InvSubBytes (40_block_cipher.md R415). -/
def invSubBytes (s : Bytes) : Bytes := block fun r c => invSbox (cell s r c)

/-- InvShiftRows (40_block_cipher.md R416): s'[r][(c + r) mod 4] = s[r][c]. -/
def invShiftRows (s : Bytes) : Bytes := block fun r c => cell s r ((c + 4 - r) % 4)

/-- InvMixColumns (40_block_cipher.md R417). -/
def invMixColumns (s : Bytes) : Bytes :=
  block fun r c =>
    let a0 := cell s 0 c
    let a1 := cell s 1 c
    let a2 := cell s 2 c
    let a3 := cell s 3 c
    match r with
    | 0 => gmul 0x0e a0 ^^^ gmul 0x0b a1 ^^^ gmul 0x0d a2 ^^^ gmul 0x09 a3
    | 1 => gmul 0x09 a0 ^^^ gmul 0x0e a1 ^^^ gmul 0x0b a2 ^^^ gmul 0x0d a3
    | 2 => gmul 0x0d a0 ^^^ gmul 0x09 a1 ^^^ gmul 0x0e a2 ^^^ gmul 0x0b a3
    | _ => gmul 0x0b a0 ^^^ gmul 0x0d a1 ^^^ gmul 0x09 a2 ^^^ gmul 0x0e a3

/-- Rcon[j] = xtime applied j - 1 times to 0x01 (40_block_cipher.md R420). -/
def rcon (j : Nat) : Byte := xtimes (j - 1) 0x01

/-- RotWord (40_block_cipher.md R420). -/
def rotWord (t : Bytes) : Bytes := t.drop 1 ++ t.take 1

/-- SubWord (40_block_cipher.md R420). -/
def subWord (t : Bytes) : Bytes := t.map sbox

/-- One turn of the loop of KeyExpansion (40_block_cipher.md R420): w[i] from the words before it. -/
def nextKeyWord (w : List Bytes) (i : Nat) : List Bytes :=
  let t := w.getD (i - 1) []
  let t := if i % 4 = 0 then xorBytes (subWord (rotWord t)) [rcon (i / 4), 0x00, 0x00, 0x00] else t
  w ++ [xorBytes (w.getD (i - 4) []) t]

/-- KeyExpansion (40_block_cipher.md R420): the 44 words of the schedule. -/
def keyExpansion (key : Bytes) : List Bytes :=
  (List.range' 4 40).foldl nextKeyWord ((List.range 4).map fun i => slice key (4 * i) (4 * i + 4))

/-- RK[r], the 16-byte round key r of a schedule (40_block_cipher.md R421). -/
def roundKey (w : List Bytes) (r : Nat) : Bytes :=
  w.getD (4 * r) [] ++ w.getD (4 * r + 1) [] ++ w.getD (4 * r + 2) [] ++ w.getD (4 * r + 3) []

/-- One of the rounds 1 to 9 of the cipher (40_block_cipher.md R425). -/
def aesRound (w : List Bytes) (s : Bytes) (r : Nat) : Bytes :=
  addRoundKey (mixColumns (shiftRows (subBytes s))) (roundKey w r)

/-- AES_Enc(K, P) (40_block_cipher.md R425). -/
def aesEnc (key p : Bytes) : Bytes :=
  let w := keyExpansion key
  let s := (List.range' 1 9).foldl (aesRound w) (addRoundKey p (roundKey w 0))
  addRoundKey (shiftRows (subBytes s)) (roundKey w 10)

/-- One of the rounds 9 down to 1 of the inverse cipher (40_block_cipher.md R426). -/
def aesInvRound (w : List Bytes) (s : Bytes) (r : Nat) : Bytes :=
  invMixColumns (addRoundKey (invSubBytes (invShiftRows s)) (roundKey w r))

/-- AES_Dec(K, C) (40_block_cipher.md R426). -/
def aesDec (key c : Bytes) : Bytes :=
  let w := keyExpansion key
  let s := (List.range' 1 9).reverse.foldl (aesInvRound w) (addRoundKey c (roundKey w 10))
  addRoundKey (invSubBytes (invShiftRows s)) (roundKey w 0)

end Sys2Proof.Machine
end

