-- ==== Sys2Proof/Machine/Cbc.lean ====
section
/-! DEFINITION. PKCS#7 padding and cipher-block chaining (40_block_cipher.md R430 to R438). -/

namespace Sys2Proof.Machine

/-- The raw failures of the cipher layer (40_block_cipher.md R438). -/
inductive CipherFailure where
  /-- The ciphertext is empty or not whole blocks (R436). -/
  | lenFail
  /-- The decrypted tail is no PKCS#7 pad (R431). -/
  | padFail
  deriving DecidableEq, Repr

/-- PKCS7_Pad (40_block_cipher.md R430). -/
def pkcs7Pad (p : Bytes) : Bytes :=
  let k := 16 - p.length % 16
  p ++ bytesOf k (BitVec.ofNat 8 k)

/-- PKCS7_Unpad (40_block_cipher.md R431). -/
def pkcs7Unpad (q : Bytes) : Except CipherFailure Bytes :=
  let m := q.length
  let k := (q.getD (m - 1) 0).toNat
  if k < 1 ∨ 16 < k then .error .padFail
  else if slice q (m - k) m ≠ bytesOf k (BitVec.ofNat 8 k) then .error .padFail
  else .ok (slice q 0 (m - k))

/-- The loop of CBC_Encrypt over the blocks of the padded input (40_block_cipher.md R435). -/
def cbcEncBlocks (key : Bytes) : Bytes → List Bytes → Bytes
  | _, [] => []
  | prev, b :: rest =>
    let c := aesEnc key (xorBytes b prev)
    c ++ cbcEncBlocks key c rest

/-- CBC_Encrypt (40_block_cipher.md R435). -/
def cbcEncrypt (key iv p : Bytes) : Bytes :=
  cbcEncBlocks key iv (groupsOf 16 (pkcs7Pad p))

/-- The loop of CBC_Decrypt over the blocks of the ciphertext (40_block_cipher.md R436). -/
def cbcDecBlocks (key : Bytes) : Bytes → List Bytes → Bytes
  | _, [] => []
  | prev, c :: rest => xorBytes (aesDec key c) prev ++ cbcDecBlocks key c rest

/-- CBC_Decrypt (40_block_cipher.md R436). -/
def cbcDecrypt (key iv c : Bytes) : Except CipherFailure Bytes :=
  if c.length = 0 ∨ c.length % 16 ≠ 0 then .error .lenFail
  else pkcs7Unpad (cbcDecBlocks key iv (groupsOf 16 c))

end Sys2Proof.Machine
end

