-- ==== Sys2Proof/Machine/BlockCipher.lean ====
section
/-! DEFINITION. The meanings of CBC_ENCRYPT and CBC_DECRYPT (40_block_cipher.md R440, R441). -/

namespace Sys2Proof.Machine

/-- CBC_ENCRYPT (40_block_cipher.md R440). -/
def execCbcEncrypt (s : State) : Host.Outcome State Fault Refusal :=
  .next <|
    if s.cfg.ibufBytes < s.inLength ∨ s.inLength < 32 then s.raiseError .length
    else if s.cfg.obufBytes < 16 * ((s.inLength - 32) / 16 + 1) then s.raiseError .outputOverflow
    else s.finish (cbcEncrypt (s.ibufRange 0 16) (s.ibufRange 16 32) (s.ibufRange 32 s.inLength))

/-- CBC_DECRYPT (40_block_cipher.md R441). -/
def execCbcDecrypt (s : State) : Host.Outcome State Fault Refusal :=
  .next <|
    if s.cfg.ibufBytes < s.inLength ∨ s.inLength < 48 ∨ (s.inLength - 32) % 16 ≠ 0 then s.raiseError .length
    else
      match cbcDecrypt (s.ibufRange 0 16) (s.ibufRange 16 32) (s.ibufRange 32 s.inLength) with
      | .error .lenFail => s.raiseError .length
      | .error .padFail => s.raiseError .padding
      | .ok r => s.finish r

end Sys2Proof.Machine
end

