-- ==== Sys2Proof/Machine/Control.lean ====
section
/-! DEFINITION. The meaning of ZEROIZE (44_control.md R800). -/

namespace Sys2Proof.Machine

/-- ZEROIZE (44_control.md R800). -/
def execZeroize (s : State) : Host.Outcome State Fault Refusal :=
  .next (s.clearStores.zeroIbuf.finish [])

end Sys2Proof.Machine
end

