-- ==== Sys2Proof/Machine/Hmac.lean ====
section
/-! DEFINITION. HMAC and the tag comparison (41_mac.md R520 to R522). -/

namespace Sys2Proof.Machine

/-- K0 of 41_mac.md R520: a key longer than a block is hashed first, then zero-filled to 64 bytes. -/
def hmacKeyBlock (h : HashAlg) (key : Bytes) : Bytes :=
  let key := if 64 < key.length then h.digest key else key
  key ++ bytesOf (64 - key.length) 0x00

/-- HMAC_H(key, msg) (41_mac.md R520). -/
def hmac (h : HashAlg) (key msg : Bytes) : Bytes :=
  let k0 := hmacKeyBlock h key
  let inner := h.digest (xorBytes k0 (bytesOf 64 0x36) ++ msg)
  h.digest (xorBytes k0 (bytesOf 64 0x5c) ++ inner)

/-- CT_EQ(a, b): all 32 byte pairs are equal (41_mac.md R522). -/
def ctEq (a b : Bytes) : Bool :=
  (List.range 32).all fun i => decide (a.getD i 0 = b.getD i 0)

end Sys2Proof.Machine
end

