-- ==== Sys2Proof/Machine/Mac.lean ====
section
/-! DEFINITION. The meaning of MAC (41_mac.md R530). -/

namespace Sys2Proof.Machine

/-- MAC (41_mac.md R530). HSEL = 2 or 3 is an illegal word (30_encoding.md R309), which the decoder gives no MAC for. -/
def execMac (hsel : BitVec 2) (s : State) : Host.Outcome State Fault Refusal :=
  .next <|
    match hashOfSelector hsel with
    | none => s.raiseError .illegalCommand
    | some h =>
      if s.cfg.ibufBytes < s.inLength ∨ s.inLength < s.auxLength then s.raiseError .length
      else s.finish (hmac h (s.ibufRange 0 s.auxLength) (s.ibufRange s.auxLength s.inLength))

end Sys2Proof.Machine
end

