-- ==== Sys2Proof/Machine/Base64.lean ====
section
/-! DEFINITION. Base64url with padding: the alphabet, encoding, strict decoding (42_token_codec.md R600 to R602). -/

namespace Sys2Proof.Machine

/-- The pad character `=` of base64url and base32 (42_token_codec.md R600, 43_otp.md R700). -/
def padChar : Byte := 0x3D

/-- The character of a 6-bit value (42_token_codec.md R600). -/
def b64Char (v : Nat) : Byte :=
  if v < 26 then BitVec.ofNat 8 (0x41 + v)
  else if v < 52 then BitVec.ofNat 8 (0x61 + (v - 26))
  else if v < 62 then BitVec.ofNat 8 (0x30 + (v - 52))
  else if v = 62 then 0x2D
  else 0x5F

/-- The 6-bit value of a character, none outside the alphabet (42_token_codec.md R600). -/
def b64Val (c : Byte) : Option Nat :=
  let n := c.toNat
  if 0x41 ≤ n ∧ n ≤ 0x5A then some (n - 0x41)
  else if 0x61 ≤ n ∧ n ≤ 0x7A then some (n - 0x61 + 26)
  else if 0x30 ≤ n ∧ n ≤ 0x39 then some (n - 0x30 + 52)
  else if n = 0x2D then some 62
  else if n = 0x5F then some 63
  else none

/-- The characters of the 6-bit values v[23:18], v[17:12], v[11:6], v[5:0] (42_token_codec.md R601). -/
def b64Digit (v k : Nat) : Byte := b64Char (v / 2 ^ (6 * (3 - k)) % 64)

/-- B64E(b) (42_token_codec.md R601), group by group of 3 bytes. -/
def b64Encode : Bytes → Bytes
  | a :: b :: c :: rest =>
    let v := a.toNat * 2 ^ 16 + b.toNat * 2 ^ 8 + c.toNat
    b64Digit v 0 :: b64Digit v 1 :: b64Digit v 2 :: b64Digit v 3 :: b64Encode rest
  | [a, b] =>
    let v := a.toNat * 2 ^ 16 + b.toNat * 2 ^ 8
    [b64Digit v 0, b64Digit v 1, b64Digit v 2, padChar]
  | [a] =>
    let v := a.toNat * 2 ^ 16
    [b64Digit v 0, b64Digit v 1, padChar, padChar]
  | [] => []

/-- One group of 4 characters of B64D (42_token_codec.md R602); `last` says that it is the final group. -/
def b64Group (last : Bool) (q0 q1 q2 q3 : Byte) : Option Bytes :=
  if q0 = padChar ∨ q1 = padChar then none
  else if q2 = padChar ∧ q3 ≠ padChar then none
  else if (q2 = padChar ∨ q3 = padChar) ∧ last = false then none
  else
    match b64Val q0, b64Val q1 with
    | some v0, some v1 =>
      if q2 = padChar then
        let v := v0 * 64 + v1
        if v % 2 ^ 4 ≠ 0 then none else some [BitVec.ofNat 8 (v / 2 ^ 4)]
      else
        match b64Val q2 with
        | some v2 =>
          if q3 = padChar then
            let v := (v0 * 64 + v1) * 64 + v2
            if v % 2 ^ 2 ≠ 0 then none else some (be (v / 2 ^ 2) 2)
          else
            match b64Val q3 with
            | some v3 => some (be (((v0 * 64 + v1) * 64 + v2) * 64 + v3) 3)
            | none => none
        | none => none
    | _, _ => none

/-- The loop of B64D over the groups of 4 characters (42_token_codec.md R602). -/
def b64Groups : Bytes → Option Bytes
  | [] => some []
  | q0 :: q1 :: q2 :: q3 :: rest =>
    match b64Group rest.isEmpty q0 q1 q2 q3, b64Groups rest with
    | some g, some out => some (g ++ out)
    | _, _ => none
  | _ => none

/-- B64D(s) (42_token_codec.md R602); none is DECODE_FAIL. -/
def b64Decode (s : Bytes) : Option Bytes :=
  if s.length % 4 ≠ 0 then none else b64Groups s

end Sys2Proof.Machine
end

