-- ==== Sys2Proof/Machine/Base32.lean ====
section
/-! DEFINITION. Base32: the alphabet, unpadded encoding, case-folding and padding decoding (43_otp.md R700 to R702). -/

namespace Sys2Proof.Machine

/-- The character of a 5-bit value (43_otp.md R700). -/
def b32Char (v : Nat) : Byte :=
  if v < 26 then BitVec.ofNat 8 (0x41 + v) else BitVec.ofNat 8 (0x32 + (v - 26))

/-- The 5-bit value of a character, none outside the alphabet (43_otp.md R700). -/
def b32Val (c : Byte) : Option Nat :=
  let n := c.toNat
  if 0x41 ≤ n ∧ n ≤ 0x5A then some (n - 0x41)
  else if 0x32 ≤ n ∧ n ≤ 0x37 then some (n - 0x32 + 26)
  else none

/-- The characters of up to 5 bytes: their 8n bits, zero-filled at the end to a multiple of 5, in groups of 5 bits. Five
bytes are eight groups exactly, so R701's one bit string may be cut after every fifth byte (43_otp.md R701). -/
def b32EncodeGroup (g : Bytes) : Bytes :=
  let m := (8 * g.length + 4) / 5
  let v := fromBe g * 2 ^ (5 * m - 8 * g.length)
  (List.range m).map fun i => b32Char (v / 2 ^ (5 * (m - 1 - i)) % 32)

/-- B32E_NOPAD(b) (43_otp.md R701). -/
def b32EncodeNoPad (b : Bytes) : Bytes := (groupsOf 5 b).flatMap b32EncodeGroup

/-- A byte 0x61..0x7A (a..z) becomes that byte - 0x20 (43_otp.md R702). -/
def upperCase (c : Byte) : Byte := if 0x61 ≤ c.toNat ∧ c.toNat ≤ 0x7A then c - 0x20 else c

/-- The 5-bit values of the characters, concatenated after `acc`; none if a character is outside the alphabet. -/
def b32Number : Nat → Bytes → Option Nat
  | acc, [] => some acc
  | acc, c :: rest =>
    match b32Val c with
    | some v => b32Number (acc * 32 + v) rest
    | none => none

/-- k of 43_otp.md R702: how many bytes a group with p pad characters carries; none for a p outside 0, 1, 3, 4, 6. -/
def b32GroupBytes (p : Nat) : Option Nat :=
  if p = 0 then some 5
  else if p = 1 then some 4
  else if p = 3 then some 3
  else if p = 4 then some 2
  else if p = 6 then some 1
  else none

/-- The bytes of a group's data characters (43_otp.md R702): the leading 8k bits of their 5-bit values. -/
def b32DecodeData (data : Bytes) : Option Bytes :=
  match b32GroupBytes (8 - data.length), b32Number 0 data with
  | some k, some v => some (be (v / 2 ^ (5 * data.length - 8 * k)) k)
  | _, _ => none

/-- A group without its trailing run of "=" (43_otp.md R702). -/
def b32Data (g : Bytes) : Bytes := (g.reverse.dropWhile (· = padChar)).reverse

/-- The loop of B32D over the groups of 8 characters (43_otp.md R702): only the final group drops its pad. -/
def b32Groups : List Bytes → Option Bytes
  | [] => some []
  | [g] => b32DecodeData (b32Data g)
  | g :: g' :: rest =>
    match b32DecodeData g, b32Groups (g' :: rest) with
    | some a, some out => some (a ++ out)
    | _, _ => none

/-- B32D(s) (43_otp.md R702); none is DECODE_FAIL. -/
def b32Decode (s : Bytes) : Option Bytes :=
  let s := s.map upperCase
  let s := if s.length % 8 ≠ 0 then s ++ bytesOf (8 - s.length % 8) padChar else s
  b32Groups (groupsOf 8 s)

end Sys2Proof.Machine
end

