-- ==== Sys2Proof/Machine/Hotp.lean ====
section
/-! DEFINITION. HOTP with dynamic truncation, the time-step, the verify scan, the provisioning URI (43_otp.md R710, R712, R740,
R750). -/

namespace Sys2Proof.Machine

/-- The secret of SECRET_LOAD's operand (43_otp.md R720); none is DECODE_FAIL. -/
def decodeSecret (raw : Bool) (s : Bytes) : Option Bytes := if raw then some s else b32Decode s

/-- The 31-bit value of dynamic truncation of a digest (43_otp.md R710). -/
def truncateDigest (d : Bytes) : Nat :=
  let off := (d.getD (d.length - 1) 0).toNat % 16
  fromBe (slice d off (off + 4)) % 2 ^ 31

/-- HOTP(secret, counter, digits, H) (43_otp.md R710). -/
def hotp (secret : Bytes) (counter digits : Nat) (h : HashAlg) : Bytes :=
  asciiDec (truncateDigest (hmac h secret (be64 counter)) % 10 ^ digits) digits

/-- TimeStep(t) for a positive interval (43_otp.md R712). -/
def timeStep (t interval : Nat) : Nat := t / interval

/-- The scan of OTP_VERIFY: some step of tm - W .. tm + W has the operand as its code (43_otp.md R740, W <= tm). -/
def verifyScan (secret code : Bytes) (tm w digits : Nat) (h : HashAlg) : Bool :=
  (List.range (2 * w + 1)).any fun j => decide (hotp secret (tm - w + j) digits h = code)

/-- "otpauth://totp/" in ASCII (43_otp.md R750). -/
def uriHead : Bytes :=
  [0x6F, 0x74, 0x70, 0x61, 0x75, 0x74, 0x68, 0x3A, 0x2F, 0x2F, 0x74, 0x6F, 0x74, 0x70, 0x2F]

/-- "?secret=" in ASCII (43_otp.md R750). -/
def uriSecret : Bytes := [0x3F, 0x73, 0x65, 0x63, 0x72, 0x65, 0x74, 0x3D]

/-- "&issuer=" in ASCII (43_otp.md R750). -/
def uriIssuer : Bytes := [0x26, 0x69, 0x73, 0x73, 0x75, 0x65, 0x72, 0x3D]

/-- The otpauth URI of 43_otp.md R750; issuer and account are copied as they are. -/
def otpUri (secret issuer account : Bytes) : Bytes :=
  uriHead ++ issuer ++ [0x3A] ++ account ++ uriSecret ++ b32EncodeNoPad secret ++ uriIssuer ++ issuer

end Sys2Proof.Machine
end

