-- ==== Sys2Proof/Machine/Otp.lean ====
section
/-! DEFINITION. The meanings of SECRET_LOAD, OTP_GENERATE, OTP_NOW, OTP_VERIFY and OTP_URI (43_otp.md R720 to R750). -/

namespace Sys2Proof.Machine

/-- SECRET_LOAD (43_otp.md R720): at completion, whatever the outcome, IBUF is zero. -/
def execSecretLoad (raw : Bool) (s : State) : Host.Outcome State Fault Refusal :=
  .next <| State.zeroIbuf <|
    if s.secretValid then s.raiseError .locked
    else if s.cfg.ibufBytes < s.inLength then s.raiseError .length
    else
      match decodeSecret raw s.primaryInput with
      | none => s.raiseError .invalidKeyMaterial
      | some b =>
        if s.cfg.secretMax < b.length then s.raiseError .length
        else (s.loadSecret b).finish []

/-- OTP_GENERATE (43_otp.md R725). -/
def execOtpGenerate (s : State) : Host.Outcome State Fault Refusal :=
  .next <|
    if s.secretValid = false then s.raiseError .noSecret
    else
      match s.otpConfig with
      | none => s.raiseError .invalidArgument
      | some (d, h) => s.finish (hotp s.secretBytes s.arg d h)

/-- OTP_NOW (43_otp.md R730). -/
def execOtpNow (s : State) : Host.Outcome State Fault Refusal :=
  .next <|
    if s.secretValid = false then s.raiseError .noSecret
    else
      match s.otpConfig with
      | none => s.raiseError .invalidArgument
      | some (d, h) =>
        if s.interval.toNat = 0 then s.raiseError .invalidArgument
        else s.finish (hotp s.secretBytes (timeStep s.time s.interval.toNat) d h)

/-- OTP_VERIFY (43_otp.md R740). -/
def execOtpVerify (forTime : Bool) (s : State) : Host.Outcome State Fault Refusal :=
  .next <|
    if s.secretValid = false then s.raiseError .noSecret
    else if s.cfg.ibufBytes < s.inLength then s.raiseError .length
    else
      match s.otpConfig with
      | none => s.raiseError .invalidArgument
      | some (d, h) =>
        if s.interval.toNat = 0 then s.raiseError .invalidArgument
        else
          let tm := timeStep (s.verifyTime forTime) s.interval.toNat
          let w := s.window.toNat
          if tm < w ∨ 2 ^ 64 - 1 < tm + w then s.raiseError .invalidArgument
          else s.finishMatch (verifyScan s.secretBytes s.primaryInput tm w d h)

/-- OTP_URI (43_otp.md R750). -/
def execOtpUri (s : State) : Host.Outcome State Fault Refusal :=
  .next <|
    if s.secretValid = false then s.raiseError .noSecret
    else if s.cfg.ibufBytes < s.inLength ∨ s.inLength < s.auxLength then s.raiseError .length
    else
      let u := otpUri s.secretBytes (s.ibufRange 0 s.auxLength) (s.ibufRange s.auxLength s.inLength)
      if s.cfg.obufBytes < u.length then s.raiseError .outputOverflow
      else s.finish u

end Sys2Proof.Machine
end

