-- ==== Sys2Proof/Machine/Token.lean ====
section
/-! DEFINITION. Key material and the token format: KeyDecode, the raw token, its checks (42_token_codec.md R605 to R643). -/

namespace Sys2Proof.Machine

/-- KeyDecode(s, fmt) (42_token_codec.md R606); none is KEY_FAIL. -/
def keyDecode (raw : Bool) (s : Bytes) : Option Bytes :=
  let m := if raw then some s else b64Decode s
  match m with
  | some m => if m.length ≠ 32 then none else some m
  | none => none

/-- The bytes a token's tag covers: version, timestamp, iv, ciphertext (42_token_codec.md R610). -/
def tokenBody (ek iv : Bytes) (time : Nat) (p : Bytes) : Bytes :=
  [0x80] ++ be64 time ++ iv ++ cbcEncrypt ek iv p

/-- The raw token of a plaintext (42_token_codec.md R610, R630). -/
def rawToken (sk ek iv : Bytes) (time : Nat) (p : Bytes) : Bytes :=
  let body := tokenBody ek iv time p
  body ++ hmac .sha256 sk body

/-- N of 42_token_codec.md R611 for a plaintext of n bytes. -/
def rawTokenLength (n : Nat) : Nat := 73 + 16 * (n / 16)

/-- The characters of base64url text for N bytes: 4·ceil(N/3) (42_token_codec.md R601, R611). -/
def b64Length (n : Nat) : Nat := 4 * ((n + 2) / 3)

/-- The raw token of TOKEN_DECRYPT's operand (42_token_codec.md R640); none is DECODE_FAIL. -/
def decodeToken (raw : Bool) (s : Bytes) : Option Bytes := if raw then some s else b64Decode s

/-- A result in the form FMT selects: raw bytes or base64url text (30_encoding.md R303). -/
def formatOut (raw : Bool) (b : Bytes) : Bytes := if raw then b else b64Encode b

/-- The length of a token in the form FMT selects, for a plaintext of n bytes (42_token_codec.md R611, R630). -/
def tokenLength (raw : Bool) (n : Nat) : Nat := if raw then rawTokenLength n else b64Length (rawTokenLength n)

/-- The time policy of 42_token_codec.md R642 on unbounded integers: with a ttl the token is not older than ttl seconds,
and it is at most 60 seconds in the future. -/
def tokenTimeOk (now : Nat) (ttl : Option Nat) (ts : Nat) : Bool :=
  (match ttl with
    | some ttl => !decide (ts + ttl < now)
    | none => true) && !decide (now + 60 < ts)

/-- The checks and the decryption of TOKEN_DECRYPT on a decoded token, in the order of 42_token_codec.md R640; none is
INVALID_TOKEN, the one code for every failure (R643). -/
def openToken (sk ek : Bytes) (now : Nat) (ttl : Option Nat) (t : Bytes) : Option Bytes :=
  let n := t.length
  if n < 73 then none
  else if ctEq (hmac .sha256 sk (slice t 0 (n - 32))) (slice t (n - 32) n) = false then none
  else if t.getD 0 0 ≠ 0x80 then none
  else if tokenTimeOk now ttl (fromBe (slice t 1 9)) = false then none
  else
    let c := slice t 25 (n - 32)
    if c.length % 16 ≠ 0 then none
    else
      match cbcDecrypt ek (slice t 9 25) c with
      | .ok r => some r
      | .error _ => none

end Sys2Proof.Machine
end

