-- ==== Sys2Proof/Machine/TokenCodec.lean ====
section
/-! DEFINITION. The meanings of KEY_LOAD, KEY_GENERATE, TOKEN_ENCRYPT and TOKEN_DECRYPT (42_token_codec.md R620 to R643). -/

namespace Sys2Proof.Machine

/-- KEY_LOAD (42_token_codec.md R620): at completion, whatever the outcome, IBUF is zero. -/
def execKeyLoad (raw : Bool) (s : State) : Host.Outcome State Fault Refusal :=
  .next <| State.zeroIbuf <|
    if s.keyValid then s.raiseError .locked
    else if s.cfg.ibufBytes < s.inLength then s.raiseError .length
    else
      match keyDecode raw s.primaryInput with
      | none => s.raiseError .invalidKeyMaterial
      | some m => (s.loadKey m).finish []

/-- KEY_GENERATE (42_token_codec.md R625). -/
def execKeyGenerate (raw : Bool) (s : State) : Host.Outcome State Fault Refusal :=
  .next <| s.drawEntropy 32 fun m => s.finish (formatOut raw m)

/-- TOKEN_ENCRYPT (42_token_codec.md R630). -/
def execTokenEncrypt (raw : Bool) (s : State) : Host.Outcome State Fault Refusal :=
  .next <|
    if s.keyValid = false then s.raiseError .noKey
    else if s.cfg.ibufBytes < s.inLength then s.raiseError .length
    else if s.cfg.obufBytes < tokenLength raw s.inLength then s.raiseError .outputOverflow
    else
      s.drawEntropy 16 fun iv =>
        s.finish (formatOut raw (rawToken s.keySk s.keyEk iv s.time s.primaryInput))

/-- TOKEN_DECRYPT (42_token_codec.md R640): every failure of the token has one code (R643). -/
def execTokenDecrypt (raw ttlEn : Bool) (s : State) : Host.Outcome State Fault Refusal :=
  .next <|
    if s.keyValid = false then s.raiseError .noKey
    else if s.cfg.ibufBytes < s.inLength then s.raiseError .length
    else
      match decodeToken raw s.primaryInput with
      | none => s.raiseError .invalidToken
      | some t =>
        match openToken s.keySk s.keyEk s.time (if ttlEn then some s.ttl else none) t with
        | none => s.raiseError .invalidToken
        | some r => s.finish r

end Sys2Proof.Machine
end

