-- ==== Sys2Proof/Machine/Dispatch.lean ====
section
/-! DEFINITION. One arm per command: its meaning at completion (70_reset_and_hazards.md R1011, R1020). -/

namespace Sys2Proof.Machine

def exec (i : Instr) (s : State) : Host.Outcome State Fault Refusal :=
  match i with
  | .keyLoad raw => Sys2Proof.Machine.execKeyLoad raw s
  | .keyGenerate raw => Sys2Proof.Machine.execKeyGenerate raw s
  | .tokenEncrypt raw => Sys2Proof.Machine.execTokenEncrypt raw s
  | .tokenDecrypt raw ttlEn => Sys2Proof.Machine.execTokenDecrypt raw ttlEn s
  | .cbcEncrypt => Sys2Proof.Machine.execCbcEncrypt s
  | .cbcDecrypt => Sys2Proof.Machine.execCbcDecrypt s
  | .mac hsel => Sys2Proof.Machine.execMac hsel s
  | .secretLoad raw => Sys2Proof.Machine.execSecretLoad raw s
  | .otpGenerate => Sys2Proof.Machine.execOtpGenerate s
  | .otpNow => Sys2Proof.Machine.execOtpNow s
  | .otpVerify forTime => Sys2Proof.Machine.execOtpVerify forTime s
  | .otpUri => Sys2Proof.Machine.execOtpUri s
  | .zeroize => Sys2Proof.Machine.execZeroize s

end Sys2Proof.Machine
end

