-- ==== Sys2Proof/Machine/Sequencer.lean ====
section
/-! DEFINITION. The sequencer going on with the command in progress, and one input of the outside world (logs 3 and 4). -/

namespace Sys2Proof.Machine

/-- The command in progress goes on (70_reset_and_hazards.md R1011, R1012, R1020): the hidden command word is decoded and
its command performed as one atomic step; a word that is no command completes with ILLEGAL_COMMAND (30_encoding.md
R309). While SEQ = IDLE there is nothing to go on with. -/
def runCommand (s : State) : Host.Outcome State Fault Refusal :=
  match s.seq with
  | .idle => .next s
  | .busy w =>
    match decode w with
    | .ok i => exec i s
    | .error _ => .next (s.raiseError .illegalCommand)

/-- One input of the outside world. -/
def takeInput (i : Input) (s : State) : Host.Outcome State Fault Refusal :=
  match i with
  | .read bits addr => hostRead bits addr s
  | .write bits addr v => hostWrite bits addr v s
  | .entropyAnswer bytes => entropyAnswered bytes s
  | .staleEntropy _ => .next s
  | .progress => runCommand s
  | .rst asserted => .next (s.driveRst asserted)

/-- One step: the next input, or with none left the command in progress goes on (70_reset_and_hazards.md R1021). -/
def stepInputs (s : State) : Host.Outcome State Fault Refusal :=
  match s.inputs with
  | [] => runCommand s
  | i :: rest => takeInput i { s with inputs := rest }

/-- A command of word w in progress, just started, with the sequencer to go on next (log 3). -/
def State.withCommand (s : State) (w : Word) : State :=
  { s.start w with inputs := .progress :: s.inputs }

end Sys2Proof.Machine
end

