-- ==== Sys2Proof/Machine/Step.lean ====
section
/-! DEFINITION. One step of the machine, and how a command word comes to be the one it runs next. -/

namespace Sys2Proof.Machine

/-- One step of the machine. -/
def step (s : State) : Host.Outcome State Fault Refusal := stepInputs s

/-- The state in which the very next step runs the command of the given word: the command has just been started, as a host
write of the word to CMD does (70_reset_and_hazards.md R1010). CMCORE fetches no instructions (10_state.md R102); its
next command is the hidden command word (R103). Log 3. -/
def State.withFetchWord (s : State) (nbits w : Nat) : State :=
  s.withCommand (BitVec.ofNat 32 (w % 2 ^ nbits))

end Sys2Proof.Machine
end

