-- ==== Sys2Proof/Safety.lean ====
section
/-! DEFINITION. The terms of the claims: what a completion leaves, what a command leaves unchanged, and the invariant of the
machine. -/

namespace Sys2Proof.Machine

/-! ### Frames -/

/-- The registers no command writes (60_exceptions.md R902: "every register other than STATUS, OUT_LEN and RESULT"), with
STATUS.OVERRUN, which a command leaves alone (10_state.md R121), and the model's own fields. -/
structure SameRegisters (s t : State) : Prop where
  irqEn : t.irqEn = s.irqEn
  overrun : t.overrun = s.overrun
  inLen : t.inLen = s.inLen
  auxLen : t.auxLen = s.auxLen
  timeLo : t.timeLo = s.timeLo
  timeHi : t.timeHi = s.timeHi
  ttlLo : t.ttlLo = s.ttlLo
  ttlHi : t.ttlHi = s.ttlHi
  argLo : t.argLo = s.argLo
  argHi : t.argHi = s.argHi
  interval : t.interval = s.interval
  window : t.window = s.window
  otpCfg : t.otpCfg = s.otpCfg
  cfg : t.cfg = s.cfg
  inputs : t.inputs = s.inputs
  rdata : t.rdata = s.rdata
  rst : t.rst = s.rst

/-- The key store is unchanged. -/
structure SameKeyStore (s t : State) : Prop where
  keySk : t.keySk = s.keySk
  keyEk : t.keyEk = s.keyEk
  keyValid : t.keyValid = s.keyValid

/-- The secret store is unchanged. -/
structure SameSecretStore (s t : State) : Prop where
  secret : t.secret = s.secret
  secretLen : t.secretLen = s.secretLen
  secretValid : t.secretValid = s.secretValid

/-- Every byte of IBUF reads as before. -/
abbrev SameIbuf (s t : State) : Prop := ∀ a, t.ibuf.read a = s.ibuf.read a

/-- Every byte of OBUF reads as before. -/
abbrev SameObuf (s t : State) : Prop := ∀ a, t.obuf.read a = s.obuf.read a

/-- Every byte of IBUF is zero. -/
abbrev IbufZero (t : State) : Prop := ∀ a, t.ibuf.read a = 0

/-- The outputs, the flags and the sequencer are unchanged (no completion and no start). -/
structure SameOutputs (s t : State) : Prop where
  done : t.done = s.done
  errCode : t.errCode = s.errCode
  outLen : t.outLen = s.outLen
  matched : t.matched = s.matched
  obuf : SameObuf s t

/-- The completion writes every command makes (60_exceptions.md R902, R903; 70_reset_and_hazards.md R1020): the code, OUT_LEN,
RESULT.MATCH, OBUF[0..len(out)) = out and every other OBUF byte 0, SEQ IDLE, DONE 1, nothing left of the hidden state. -/
structure Completed (t : State) (code : ErrCode) (out : Bytes) (matched : Bool) : Prop where
  seq : t.seq = .idle
  entropy : t.entropy = .idle
  done : t.done = true
  errCode : t.errCode = code
  outLen : t.outLen.toNat = out.length
  matched : t.matched = matched
  obuf : ∀ a, t.obuf.read a = out.getD a 0

/-- The completion with an error (60_exceptions.md R902): the error writes, and everything else as before. -/
structure Fails (s t : State) (code : ErrCode) : Prop where
  completed : Completed t code [] false
  registers : SameRegisters s t
  keyStore : SameKeyStore s t
  secretStore : SameSecretStore s t
  ibuf : SameIbuf s t

/-- The same for KEY_LOAD and SECRET_LOAD, which zero IBUF at every completion (60_exceptions.md R902). -/
structure FailsZeroingIbuf (s t : State) (code : ErrCode) : Prop where
  completed : Completed t code [] false
  registers : SameRegisters s t
  keyStore : SameKeyStore s t
  secretStore : SameSecretStore s t
  ibuf : IbufZero t

/-- The success of a command that only outputs (60_exceptions.md R903): the output, and everything else as before. -/
structure Outputs (s t : State) (out : Bytes) (matched : Bool) : Prop where
  completed : Completed t .ok out matched
  registers : SameRegisters s t
  keyStore : SameKeyStore s t
  secretStore : SameSecretStore s t
  ibuf : SameIbuf s t

/-- Everything but the entropy request is as before: what a command leaves that has just asked for entropy
(70_reset_and_hazards.md R1012), what an answer leaves. -/
structure SameButEntropy (s t : State) : Prop where
  seq : t.seq = s.seq
  registers : SameRegisters s t
  outputs : SameOutputs s t
  keyStore : SameKeyStore s t
  secretStore : SameSecretStore s t
  ibuf : SameIbuf s t

/-- The state is the reset state of 10_state.md R170 for its parameters; the outside world's part is free. -/
abbrev IsReset (t : State) : Prop :=
  t = { State.resetFor t.cfg with inputs := t.inputs, rdata := t.rdata, rst := t.rst }

/-! ### Host accesses -/

/-- The next input is a 32-bit host write of v at offset `off` of the window, with RST released. -/
structure NextWrite (s : State) (off : Nat) (v : Word) (rest : List Input) : Prop where
  head : s.inputs = .write 32 (s.cfg.base + off) v :: rest
  inside : off < 0x40000
  released : s.rst = false

/-- The next input is a 32-bit host read at offset `off` of the window, with RST released. -/
structure NextRead (s : State) (off : Nat) (rest : List Input) : Prop where
  head : s.inputs = .read 32 (s.cfg.base + off) :: rest
  inside : off < 0x40000
  released : s.rst = false

/-- The sequencer goes on next: by its input, or because no input is left (log 3). `rest` are the inputs after it. -/
def SequencerNext (s : State) (rest : List Input) : Prop :=
  s.inputs = .progress :: rest ∨ (s.inputs = [] ∧ rest = [])

/-! ### Operands -/

/-- The raw token t is accepted by TOKEN_DECRYPT with plaintext r (42_token_codec.md R610, R640, R642). -/
structure TokenAccepted (s : State) (ttlEn : Bool) (t r : Bytes) : Prop where
  length : 73 ≤ t.length
  tag : hmac .sha256 s.keySk (slice t 0 (t.length - 32)) = slice t (t.length - 32) t.length
  version : t.getD 0 0 = 0x80
  notOld : ttlEn = true → s.time ≤ fromBe (slice t 1 9) + s.ttl
  notFuture : fromBe (slice t 1 9) ≤ s.time + 60
  plaintext : cbcDecrypt s.keyEk (slice t 9 25) (slice t 25 (t.length - 32)) = .ok r

/-- OTP_CFG names the hash h (10_state.md R134). -/
def OtpHash (s : State) (h : HashAlg) : Prop :=
  (s.hashSelector = 0 ∧ h = .sha1) ∨ (s.hashSelector = 1 ∧ h = .sha256)

/-- OTP_CFG is illegal (43_otp.md R711). -/
def OtpCfgIllegal (s : State) : Prop :=
  s.digits = 0 ∨ 10 < s.digits ∨ 2 ≤ s.hashSelector.toNat

/-! ### Completion codes -/

/-- The codes a command can complete with (60_exceptions.md R901, R905). -/
def codesOf : Instr → List ErrCode
  | .keyLoad _ => [.ok, .locked, .length, .invalidKeyMaterial]
  | .keyGenerate _ => [.ok]
  | .tokenEncrypt _ => [.ok, .noKey, .length, .outputOverflow]
  | .tokenDecrypt _ _ => [.ok, .noKey, .length, .invalidToken]
  | .cbcEncrypt => [.ok, .length, .outputOverflow]
  | .cbcDecrypt => [.ok, .length, .padding]
  | .mac _ => [.ok, .length]
  | .secretLoad _ => [.ok, .locked, .length, .invalidKeyMaterial]
  | .otpGenerate => [.ok, .noSecret, .invalidArgument]
  | .otpNow => [.ok, .noSecret, .invalidArgument]
  | .otpVerify _ => [.ok, .noSecret, .length, .invalidArgument]
  | .otpUri => [.ok, .noSecret, .length, .outputOverflow]
  | .zeroize => [.ok]

/-! ### The invariant -/

/-- An entropy request stands only while BUSY, with the length the command in progress draws, and so does its answer
(10_state.md R122, R150; 70_reset_and_hazards.md R1012). -/
def EntropyFits (s : State) : Prop :=
  match s.entropy with
  | .idle => True
  | .waiting n => ∃ w i, s.seq = .busy w ∧ decode w = .ok i ∧ drawBytes i = some n
  | .answered bytes => ∃ w i, s.seq = .busy w ∧ decode w = .ok i ∧ drawBytes i = some bytes.length

/-- What holds of every state of CMCORE that runs from reset. -/
structure Invariant (s : State) : Prop where
  /-- The parameters are legal (00_scope.md R7). -/
  cfg : s.cfg.Legal
  /-- The buffers are in canonical form and lie inside their sizes (10_state.md R153). -/
  ibufWf : s.ibuf.wf
  ibufBelow : s.ibuf.Below s.cfg.ibufBytes
  obufWf : s.obuf.wf
  /-- Every OBUF byte at and beyond OUT_LEN is 0, and OUT_LEN is at most OBUF_BYTES (60_exceptions.md R903). -/
  obufBelow : s.obuf.Below s.outLen.toNat
  outLen : s.outLen.toNat ≤ s.cfg.obufBytes
  /-- The key store's sizes, and its contents without a key (10_state.md R140). -/
  keySk : s.keySk.length = 16
  keyEk : s.keyEk.length = 16
  keyZero : s.keyValid = false → s.keySk = bytesOf 16 0 ∧ s.keyEk = bytesOf 16 0
  /-- The secret store's sizes, its zero tail, and its contents without a secret (10_state.md R142). -/
  secret : s.secret.length = s.cfg.secretMax
  secretLen : s.secretLen ≤ s.cfg.secretMax
  secretTail : s.secret.drop s.secretLen = bytesOf (s.cfg.secretMax - s.secretLen) 0
  secretZero : s.secretValid = false → s.secretLen = 0
  /-- The entropy request fits the command in progress. -/
  entropy : EntropyFits s
  /-- While BUSY the outputs read as the start left them (20_memory.md R206, 10_state.md R117, R123, R127, R128). -/
  busy : s.busyFlag = true →
    s.done = false ∧ s.errCode = .ok ∧ s.outLen = 0 ∧ s.matched = false ∧ s.obuf = Memory.zeros
  /-- A failed command left no output (60_exceptions.md R902). -/
  failed : s.errCode ≠ .ok → s.outLen = 0 ∧ s.matched = false ∧ s.obuf = Memory.zeros
  /-- RESULT.MATCH is set by a command without output only (43_otp.md R740). -/
  matched : s.matched = true → s.outLen = 0
  /-- While RST is asserted the state is the reset state (70_reset_and_hazards.md R1000, R1001). -/
  rst : s.rst = true → IsReset s

end Sys2Proof.Machine
end

