-- ==== Sys2Proof/Certificates/Slice0/Obligations.lean ====
section
/-! DEFINITION. The statements about CMCORE for the provers, in the order of the spec's files. -/

open Sys2Proof Sys2Proof.Machine

/-! ### Command words (30_encoding.md) -/

/-- Derived from 30_encoding.md R301, R308, R310: the decoder gives the command i for the word w exactly when i is
well-formed and w is its encoding. -/
def Obligations.DecodeInvertsEncode : Prop :=
  ∀ (w : Word) (i : Instr), decode w = .ok i ↔ i.wellFormed = true ∧ encode i = w

/-- Derived from 30_encoding.md R310 ("The number of legal words is ... = 22") and the list of 95_test_vectors.md 2.1: exactly
these 22 words, no two alike, are commands. -/
def Obligations.LegalWordsAreTheTwentyTwo : Prop :=
  let words : List Word :=
    [0x00000001, 0x00000101, 0x00000002, 0x00000102, 0x00000003, 0x00000103, 0x00000004, 0x00000104, 0x00000204,
     0x00000304, 0x00000005, 0x00000006, 0x00000007, 0x00001007, 0x00000008, 0x00000108, 0x00000009, 0x0000000A,
     0x0000000B, 0x0000040B, 0x0000000C, 0x0000000D]
  words.length = 22 ∧ words.Nodup ∧ ∀ w : Word, (∃ i, decode w = .ok i) ↔ w ∈ words

/-- Derived from 30_encoding.md R308, R310: a word is the command of a row exactly when (w and mask) = match, and at most one
row matches any word. -/
def Obligations.AtMostOneRowMatches : Prop :=
  (∀ (w : Word) (i : Instr),
    decode w = .ok i ↔ ∃ r ∈ opcodeRows, w &&& r.mask = r.matchWord ∧ i = r.command w) ∧
  (∀ (w : Word), ∀ r ∈ opcodeRows, ∀ r' ∈ opcodeRows,
    w &&& r.mask = r.matchWord → w &&& r'.mask = r'.matchWord → r.matchWord = r'.matchWord)

/-- Derived from 30_encoding.md R313: words of its mnemonics, one or more for each family of the opcode table. -/
def Obligations.WordsOfTheMnemonics : Prop :=
  decode 0x00000001 = .ok (.keyLoad false) ∧ decode 0x00000103 = .ok (.tokenEncrypt true) ∧
  decode 0x00000304 = .ok (.tokenDecrypt true true) ∧ decode 0x00000005 = .ok .cbcEncrypt ∧
  decode 0x00001007 = .ok (.mac 1) ∧ decode 0x0000040B = .ok (.otpVerify true) ∧ decode 0x0000000D = .ok .zeroize ∧
  decode 0x00000105 = .error .fieldNotAllowed ∧ decode 0x00002007 = .error .reservedHsel

/-- Derived from 30_encoding.md R309: a word with OPCODE 0x00 or 0x0E to 0xFF, with a reserved bit set (11, 31:14), with a field set that
its opcode does not allow, or a MAC word with HSEL = 2 or 3, completes with ILLEGAL_COMMAND and changes nothing else. -/
def Obligations.IllegalWordCompletes : Prop :=
  ∀ (s : State) (w : Word) (rest : List Input), s.seq = .busy w → SequencerNext s rest →
    (opcodeField w = 0 ∨ 0x0E ≤ opcodeField w ∨ w.getLsbD 11 = true ∨ w.extractLsb' 14 18 ≠ 0 ∨
      (fmtField w = true ∧ opcodeField w ∉ [0x01, 0x02, 0x03, 0x04, 0x08]) ∨
      (ttlEnField w = true ∧ opcodeField w ≠ 0x04) ∨
      (forTimeField w = true ∧ opcodeField w ≠ 0x0B) ∨
      (hselField w ≠ 0 ∧ opcodeField w ≠ 0x07) ∨
      (opcodeField w = 0x07 ∧ 2 ≤ (hselField w).toNat)) →
    ∃ t, step s = .next t ∧ Fails { s with inputs := rest } t .illegalCommand

/-! ### The command life-cycle (70_reset_and_hazards.md) -/

/-- Derived from 70_reset_and_hazards.md R1010, R1011: when the sequencer goes on and the hidden command word decodes to i,
the step is exec of i at that state, less the input the step used. When the sequencer goes on is the model's choice (logs 3
and 4). -/
def Obligations.StepRunsCommandInProgress : Prop :=
  ∀ (s : State) (w : Word) (i : Instr) (rest : List Input),
    s.seq = .busy w → decode w = .ok i → SequencerNext s rest → step s = exec i { s with inputs := rest }

/-- 10_state.md R124, with 70_reset_and_hazards.md R1010: a write to CMD while IDLE starts the command: BUSY, DONE 0, ERRCODE 0,
OUT_LEN 0, RESULT 0, OBUF all zero, everything else unchanged; a write while BUSY only sets OVERRUN; a read returns 0. -/
def Obligations.CmdWriteStartsOrOverruns : Prop :=
  (∀ (s : State) (w : Word) (rest : List Input), NextWrite s 0x018 w rest → s.seq = .idle →
    ∃ t, step s = .next t ∧ t.seq = .busy w ∧ t.entropy = .idle ∧ t.done = false ∧ t.errCode = .ok ∧ t.outLen = 0 ∧
      t.matched = false ∧ (∀ a, t.obuf.read a = 0) ∧ SameRegisters { s with inputs := rest } t ∧ SameKeyStore s t ∧
      SameSecretStore s t ∧ SameIbuf s t) ∧
  (∀ (s : State) (w v : Word) (rest : List Input), NextWrite s 0x018 w rest → s.seq = .busy v →
    step s = .next { s with inputs := rest, overrun := true }) ∧
  (∀ s : State, s.memRead 0x018 = 0)

/-- Derived from 10_state.md R106: while BUSY a host write to an input-locked register or to the IBUF window is ignored. -/
def Obligations.BusyLocksInputs : Prop :=
  ∀ (s : State) (w v : Word) (off : Nat) (rest : List Input), NextWrite s off v rest → s.seq = .busy w →
    (wordOffset off ∈ [0x01C, 0x020, 0x030, 0x034, 0x038, 0x03C, 0x040, 0x044, 0x048, 0x04C, 0x050] ∨
      (0x10000 ≤ off ∧ off < 0x20000)) →
    step s = .next { s with inputs := rest }

/-- Derived from 70_reset_and_hazards.md R1011 and 10_state.md R160: performing a command from the state before its start or
from the state right after it gives the same completion. For a command that draws entropy: with the drawn bytes. -/
def Obligations.CommandIsAtomic : Prop :=
  (∀ (i : Instr) (s : State) (w : Word), drawBytes i = none → exec i (s.start w) = exec i s) ∧
  (∀ (i : Instr) (s : State) (w : Word) (b : Bytes),
    exec i { s.start w with entropy := .answered b } = exec i { s with entropy := .answered b })

/-- Derived from 70_reset_and_hazards.md R1011 and 10_state.md R106: as long as a command is in progress, whatever the host, the entropy source and the platform
do, its word and every input it reads keep their values. -/
def Obligations.InputsStableWhileBusy : Prop :=
  ∀ (s t : State) (w w' : Word), step s = .next t → s.seq = .busy w → t.seq = .busy w' →
    w' = w ∧ t.inLen = s.inLen ∧ t.auxLen = s.auxLen ∧ t.timeLo = s.timeLo ∧ t.timeHi = s.timeHi ∧ t.ttlLo = s.ttlLo ∧
      t.ttlHi = s.ttlHi ∧ t.argLo = s.argLo ∧ t.argHi = s.argHi ∧ t.interval = s.interval ∧ t.window = s.window ∧
      t.otpCfg = s.otpCfg ∧ t.cfg = s.cfg ∧ SameIbuf s t ∧ SameKeyStore s t ∧ SameSecretStore s t

/-- Derived from 10_state.md R102, R116, R117: SEQ goes from BUSY to IDLE only at a completion, which only the sequencer
reaches and which sets DONE, or by a reset; and DONE is set by nothing but such a completion. -/
def Obligations.BusyEndsByCompletionOrReset : Prop :=
  (∀ (s t : State) (w : Word), step s = .next t → s.seq = .busy w → t.seq = .idle →
    ((∃ rest, SequencerNext s rest) ∧ t.done = true) ∨ IsReset t) ∧
  (∀ s t : State, step s = .next t → s.done = false → t.done = true →
    (∃ w, s.seq = .busy w) ∧ t.seq = .idle ∧ ∃ rest, SequencerNext s rest)

/-- 10_state.md R121: OVERRUN is set when the host writes CMD while BUSY, and by nothing else; it is cleared by a write of 1
to bit 5 of STATUS and by reset, and by nothing else. A command start does not clear it. -/
def Obligations.OverrunSetAndCleared : Prop :=
  (∀ (s : State) (w v : Word) (rest : List Input), NextWrite s 0x018 v rest → s.seq = .busy w →
    ∃ t, step s = .next t ∧ t.overrun = true) ∧
  (∀ (s : State) (v : Word) (rest : List Input), NextWrite s 0x014 v rest → v.getLsbD 5 = true →
    ∃ t, step s = .next t ∧ t.overrun = false) ∧
  (∀ t : State, IsReset t → t.overrun = false) ∧
  (∀ (s : State) (v : Word) (rest : List Input), NextWrite s 0x018 v rest → s.seq = .idle →
    ∃ t, step s = .next t ∧ t.overrun = s.overrun) ∧
  (∀ s t : State, step s = .next t → s.overrun = false → t.overrun = true →
    ∃ off v rest w, NextWrite s off v rest ∧ wordOffset off = 0x018 ∧ s.seq = .busy w) ∧
  (∀ s t : State, step s = .next t → s.overrun = true → t.overrun = false →
    (∃ off v rest, NextWrite s off v rest ∧ wordOffset off = 0x014 ∧ v.getLsbD 5 = true) ∨ IsReset t)

/-- Derived from 10_state.md R122, R150 and 70_reset_and_hazards.md R1001: an answer of the requested length ends ENT_WAIT; bytes
that arrive while no request is outstanding (there was none, or it is already answered), or for one that a reset cancelled,
are discarded. Two clauses are the model's choice and no rule's: that the answer changes nothing else, so that the command
completes at a later instant (log 4), and that bytes of a cancelled request are discarded even while a later request is
outstanding (log 6). -/
def Obligations.EntropyAnswers : Prop :=
  (∀ (s : State) (b : Bytes) (rest : List Input), s.inputs = .entropyAnswer b :: rest → s.entropy = .waiting b.length →
    ∃ t, step s = .next t ∧ t.entropy = .answered b ∧ t.entWaitFlag = false ∧
      SameButEntropy { s with inputs := rest } t) ∧
  (∀ (s : State) (b : Bytes) (rest : List Input), s.inputs = .entropyAnswer b :: rest → (∀ n, s.entropy ≠ .waiting n) →
    step s = .next { s with inputs := rest }) ∧
  (∀ (s : State) (b : Bytes) (rest : List Input), s.inputs = .staleEntropy b :: rest →
    step s = .next { s with inputs := rest })

/-! ### Registers and the window (10_state.md, 20_memory.md) -/

/-- Derived from 10_state.md R105, R125 to R126, R129 to R134: while IDLE a write to an input-locked register stores the bits
of its writable field: the register reads them back, every other word of the window reads as before, and nothing hidden
changes. And in every state the words of these registers are the operands the commands use: L, A, TIME, TTL and ARG as
HI·2^32 + LO, INTERVAL, WINDOW.W, OTP_CFG.DIGITS and OTP_CFG.HASH, each at its own offset. -/
def Obligations.RegisterStoresItsField : Prop :=
  (∀ (s : State) (v : Word) (rest : List Input) (off : Nat) (field : Word),
    (off, field) ∈ ([(0x01C, 0xFFFFFFFF), (0x020, 0xFFFFFFFF), (0x030, 0xFFFFFFFF), (0x034, 0xFFFFFFFF),
      (0x038, 0xFFFFFFFF), (0x03C, 0xFFFFFFFF), (0x040, 0xFFFFFFFF), (0x044, 0xFFFFFFFF), (0x048, 0xFFFFFFFF),
      (0x04C, 0x000000FF), (0x050, 0x0000003F)] : List (Nat × Word)) →
    NextWrite s off v rest → s.seq = .idle →
    ∃ t, step s = .next t ∧ t.memRead off = v &&& field ∧
      (∀ off', wordOffset off' ≠ off → t.memRead off' = s.memRead off') ∧
      t.seq = s.seq ∧ t.entropy = s.entropy ∧ SameKeyStore s t ∧ SameSecretStore s t ∧ t.cfg = s.cfg ∧
      t.inputs = rest ∧ t.rdata = s.rdata ∧ t.rst = s.rst) ∧
  (∀ s : State,
    s.inLength = (s.memRead 0x01C).toNat ∧ s.auxLength = (s.memRead 0x020).toNat ∧
    s.time = (s.memRead 0x034).toNat * 2 ^ 32 + (s.memRead 0x030).toNat ∧
    s.ttl = (s.memRead 0x03C).toNat * 2 ^ 32 + (s.memRead 0x038).toNat ∧
    s.arg = (s.memRead 0x044).toNat * 2 ^ 32 + (s.memRead 0x040).toNat ∧
    s.interval = s.memRead 0x048 ∧ s.window.toNat = (s.memRead 0x04C).toNat ∧
    s.digits = ((s.memRead 0x050).extractLsb' 0 4).toNat ∧ s.hashSelector = (s.memRead 0x050).extractLsb' 4 2)

/-- Derived from 10_state.md R105, R110 to R113, R127, R128 and 20_memory.md R205: a write to a read-only register or to the
OBUF window is ignored. -/
def Obligations.ReadOnlyWordsIgnoreWrites : Prop :=
  ∀ (s : State) (v : Word) (rest : List Input) (off : Nat), NextWrite s off v rest →
    (wordOffset off ∈ [0x000, 0x004, 0x008, 0x00C, 0x024, 0x028] ∨ (0x20000 ≤ off ∧ off < 0x30000)) →
    step s = .next { s with inputs := rest }

/-- Derived from 10_state.md R110 to R113, R127, R128: what the constants, OUT_LEN and RESULT read. -/
def Obligations.ReadOnlyRegisterValues : Prop :=
  ∀ s : State, s.cfg.Legal →
    s.memRead 0x000 = 0x434D0001 ∧ (s.memRead 0x004).toNat = s.cfg.ibufBytes ∧
      (s.memRead 0x008).toNat = s.cfg.obufBytes ∧ (s.memRead 0x00C).toNat = s.cfg.secretMax ∧
      s.memRead 0x024 = s.outLen ∧ s.memRead 0x028 = (if s.matched then 1 else 0)

/-- 10_state.md R118 and R122, with R115, R116, R119 to R121 and R123: the fields of STATUS. -/
def Obligations.StatusFields : Prop :=
  ∀ s : State,
    ((s.memRead 0x014).getLsbD 0 = true ↔ ∃ w, s.seq = .busy w) ∧
    (s.memRead 0x014).getLsbD 1 = s.done ∧
    ((s.memRead 0x014).getLsbD 2 = true ↔ (s.memRead 0x014).extractLsb' 8 4 ≠ 0) ∧
    (s.memRead 0x014).getLsbD 3 = s.keyValid ∧
    (s.memRead 0x014).getLsbD 4 = s.secretValid ∧
    (s.memRead 0x014).getLsbD 5 = s.overrun ∧
    ((s.memRead 0x014).getLsbD 6 = true ↔ (∃ w, s.seq = .busy w) ∧ ∃ n, s.entropy = .waiting n) ∧
    (s.memRead 0x014).getLsbD 7 = false ∧
    ((s.memRead 0x014).extractLsb' 8 4).toNat = errNumber s.errCode ∧
    (s.memRead 0x014).extractLsb' 12 20 = 0

/-- Derived from 10_state.md R115, R117, R121, R123: a write to STATUS clears DONE and OVERRUN where it has a 1 and changes
nothing else; in particular not ERRCODE. -/
def Obligations.StatusWriteOneClears : Prop :=
  ∀ (s : State) (v : Word) (rest : List Input), NextWrite s 0x014 v rest →
    ∃ d o : Bool, step s = .next { s with inputs := rest, done := d, overrun := o } ∧
      (d = true ↔ s.done = true ∧ v.getLsbD 1 = false) ∧ (o = true ↔ s.overrun = true ∧ v.getLsbD 5 = false)

/-- Derived from 10_state.md R114 and 70_reset_and_hazards.md R1003: a write to CTRL with bit 1 = 1 performs the reset, at any time, and leaves
CTRL = 0; with bit 1 = 0 it stores IRQ_EN and nothing else; CTRL reads IRQ_EN and zeros. -/
def Obligations.CtrlWriteResetsOrEnables : Prop :=
  (∀ (s : State) (v : Word) (rest : List Input), NextWrite s 0x010 v rest → v.getLsbD 1 = true →
    ∃ t, step s = .next t ∧ IsReset t ∧ t.memRead 0x010 = 0 ∧ t.cfg = s.cfg ∧ t.inputs = rest ∧ t.rst = false) ∧
  (∀ (s : State) (v : Word) (rest : List Input), NextWrite s 0x010 v rest → v.getLsbD 1 = false →
    ∃ t, step s = .next t ∧ t = { s with inputs := rest, irqEn := t.irqEn } ∧ t.memRead 0x010 = v &&& 1)

/-- Derived from 70_reset_and_hazards.md R1000, R1001: asserting RST resets at any time; while it is asserted a read returns 0
and a write is ignored. The last clause, that releasing it changes nothing else, is the model's choice (log 10) and no
rule's. -/
def Obligations.RstResetsAndHolds : Prop :=
  (∀ (s : State) (rest : List Input), s.inputs = .rst true :: rest →
    ∃ t, step s = .next t ∧ IsReset t ∧ t.rst = true ∧ t.cfg = s.cfg ∧ t.inputs = rest) ∧
  (∀ (s : State) (off : Nat) (v : Word) (rest : List Input), s.rst = true → off < 0x40000 →
    s.inputs = .write 32 (s.cfg.base + off) v :: rest → step s = .next { s with inputs := rest }) ∧
  (∀ (s : State) (off : Nat) (rest : List Input), s.rst = true → off < 0x40000 →
    s.inputs = .read 32 (s.cfg.base + off) :: rest → step s = .next { s with inputs := rest, rdata := some 0 }) ∧
  (∀ (s : State) (rest : List Input), s.inputs = .rst false :: rest →
    step s = .next { s with inputs := rest, rst := false })

/-- 10_state.md R170: the state after reset, by the RST input, by CTRL.SRST or at power-on, has the values of the table. The
parameters and the outside world's part (cfg, inputs, rdata, rst) are the model's own (logs 1, 2, 3, 7, 10) and no part of
this statement. -/
def Obligations.ResetValues : Prop :=
  ∀ t : State,
    (t = State.reset ∨ (∃ s rest, s.inputs = .rst true :: rest ∧ step s = .next t) ∨
      (∃ s v rest, NextWrite s 0x010 v rest ∧ v.getLsbD 1 = true ∧ step s = .next t)) →
    t.seq = .idle ∧ t.ctrlWord = 0 ∧ t.statusWord = 0 ∧ t.inLen = 0 ∧ t.auxLen = 0 ∧ t.outLen = 0 ∧ t.resultWord = 0 ∧
      t.timeLo = 0 ∧ t.timeHi = 0 ∧ t.ttlLo = 0 ∧ t.ttlHi = 0 ∧ t.argLo = 0 ∧ t.argHi = 0 ∧ t.interval = 30 ∧
      t.window = 0 ∧ t.memRead 0x050 = 0x00000006 ∧ (∀ a, t.ibuf.read a = 0) ∧ (∀ a, t.obuf.read a = 0) ∧
      t.keySk = bytesOf 16 0 ∧ t.keyEk = bytesOf 16 0 ∧ t.keyValid = false ∧ t.secret = bytesOf t.cfg.secretMax 0 ∧
      t.secretLen = 0 ∧ t.secretValid = false ∧ t.entropy = .idle ∧ t.irq = false ∧ t.memRead 0x000 = 0x434D0001

/-- 10_state.md R151 and 60_exceptions.md R911, with R910: IRQ = 1 exactly when CTRL.IRQ_EN and STATUS.DONE are 1, and 0 after
reset; a completion raises it when IRQ_EN = 1; a write of 1 to DONE drops it; setting IRQ_EN while DONE = 1 raises it at once;
a command start drops it; nothing but a completion and a write to CTRL that sets IRQ_EN raises it. -/
def Obligations.InterruptFollowsDone : Prop :=
  (∀ s : State, s.irq = true ↔ (s.memRead 0x010).getLsbD 0 = true ∧ (s.memRead 0x014).getLsbD 1 = true) ∧
  (∀ t : State, IsReset t → t.irq = false) ∧
  (∀ (s t : State) (w : Word), step s = .next t → s.seq = .busy w → t.seq = .idle → ¬ IsReset t →
    t.irq = s.irqEn) ∧
  (∀ (s : State) (v : Word) (rest : List Input), NextWrite s 0x014 v rest → v.getLsbD 1 = true →
    ∃ t, step s = .next t ∧ t.irq = false) ∧
  (∀ (s : State) (v : Word) (rest : List Input), NextWrite s 0x010 v rest → v.getLsbD 0 = true → v.getLsbD 1 = false →
    s.done = true → ∃ t, step s = .next t ∧ t.irq = true) ∧
  (∀ (s : State) (v : Word) (rest : List Input), NextWrite s 0x018 v rest → s.seq = .idle →
    ∃ t, step s = .next t ∧ t.irq = false) ∧
  (∀ s t : State, step s = .next t → s.irq = false → t.irq = true →
    ((∃ w, s.seq = .busy w) ∧ t.seq = .idle ∧ ∃ rest, SequencerNext s rest) ∨
    ∃ off v rest, NextWrite s off v rest ∧ wordOffset off = 0x010 ∧ v.getLsbD 0 = true ∧ v.getLsbD 1 = false)

/-- Derived from 20_memory.md R210: a host read returns the word's value (the step's own description of the word: memRead) and has no side
effect on any state; a buffer word is b0 + b1·2^8 + b2·2^16 + b3·2^24. -/
def Obligations.ReadsHaveNoSideEffect : Prop :=
  (∀ (s : State) (off : Nat) (rest : List Input), NextRead s off rest →
    step s = .next { s with inputs := rest, rdata := some (s.memRead off) }) ∧
  (∀ (s : State) (k : Nat), s.cfg.Legal → 4 * k < s.cfg.ibufBytes →
    (s.memRead (0x10000 + 4 * k)).toNat =
      (s.ibuf.read (4 * k)).toNat + (s.ibuf.read (4 * k + 1)).toNat * 2 ^ 8 +
        (s.ibuf.read (4 * k + 2)).toNat * 2 ^ 16 + (s.ibuf.read (4 * k + 3)).toNat * 2 ^ 24) ∧
  (∀ (s : State) (k : Nat), s.cfg.Legal → s.seq = .idle → 4 * k < s.cfg.obufBytes →
    (s.memRead (0x20000 + 4 * k)).toNat =
      (s.obuf.read (4 * k)).toNat + (s.obuf.read (4 * k + 1)).toNat * 2 ^ 8 +
        (s.obuf.read (4 * k + 2)).toNat * 2 ^ 16 + (s.obuf.read (4 * k + 3)).toNat * 2 ^ 24)

/-- 20_memory.md R203 with 10_state.md R135: a reserved word reads 0 and ignores writes: 0x02C, 0x054 to 0xFFFC, the IBUF window
beyond IBUF_BYTES, the OBUF window beyond OBUF_BYTES, 0x30000 to 0x3FFFC. -/
def Obligations.ReservedWordsAreInert : Prop :=
  ∀ (s : State) (off : Nat) (v : Word) (rest : List Input), s.cfg.Legal → off < 0x40000 →
    (wordOffset off = 0x02C ∨ (0x054 ≤ off ∧ off < 0x10000) ∨
      (0x10000 + s.cfg.ibufBytes ≤ off ∧ off < 0x20000) ∨
      (0x20000 + s.cfg.obufBytes ≤ off ∧ off < 0x30000) ∨ 0x30000 ≤ off) →
    s.memRead off = 0 ∧ (NextRead s off rest → step s = .next { s with inputs := rest, rdata := some 0 }) ∧
      (NextWrite s off v rest → step s = .next { s with inputs := rest })

/-- 20_memory.md R213: an access whose address has bits 1:0 ≠ 0 is performed exactly as the access to the aligned word. -/
def Obligations.LowAddressBitsIgnored : Prop :=
  ∀ (s : State) (off : Nat) (v : Word) (rest : List Input), s.cfg.Legal → off < 0x40000 →
    step { s with inputs := .read 32 (s.cfg.base + off) :: rest } =
      step { s with inputs := .read 32 (s.cfg.base + off / 4 * 4) :: rest } ∧
    step { s with inputs := .write 32 (s.cfg.base + off) v :: rest } =
      step { s with inputs := .write 32 (s.cfg.base + off / 4 * 4) v :: rest }

/-- Derived from 20_memory.md R204, R211, R220: while IDLE a write to an IBUF word stores its four bytes in little-endian
lanes, changes no other byte and nothing else, and the word reads back. -/
def Obligations.IbufWordStoresFourBytes : Prop :=
  ∀ (s : State) (k : Nat) (v : Word) (rest : List Input), s.cfg.Legal → s.ibuf.wf → 4 * k < s.cfg.ibufBytes →
    NextWrite s (0x10000 + 4 * k) v rest → s.seq = .idle →
    ∃ t, step s = .next t ∧ t = { s with inputs := rest, ibuf := t.ibuf } ∧
      t.ibuf.read (4 * k) = v.extractLsb' 0 8 ∧ t.ibuf.read (4 * k + 1) = v.extractLsb' 8 8 ∧
      t.ibuf.read (4 * k + 2) = v.extractLsb' 16 8 ∧ t.ibuf.read (4 * k + 3) = v.extractLsb' 24 8 ∧
      (∀ a, a < 4 * k ∨ 4 * k + 4 ≤ a → t.ibuf.read a = s.ibuf.read a) ∧ t.memRead (0x10000 + 4 * k) = v

/-- 20_memory.md R206: while BUSY every read of the OBUF window returns 0. -/
def Obligations.ObufReadsZeroWhileBusy : Prop :=
  ∀ (s : State) (w : Word) (off : Nat) (rest : List Input), s.seq = .busy w → 0x20000 ≤ off → off < 0x30000 →
    NextRead s off rest → step s = .next { s with inputs := rest, rdata := some 0 }

/-- Derived from 20_memory.md R212 and, for an access outside the window, the model's choice of log 9 (R201 calls it no access to
CMCORE): an access that is not 32 bits wide is refused, and one outside the window faults. -/
def Obligations.OtherAccessesStop : Prop :=
  ∀ (s : State) (bits addr : Nat) (v : Word) (rest : List Input),
    (s.cfg.base ≤ addr → addr < s.cfg.base + 0x40000 → bits ≠ 32 →
      step { s with inputs := .read bits addr :: rest } = .refused .accessWidth ∧
      step { s with inputs := .write bits addr v :: rest } = .refused .accessWidth) ∧
    (addr < s.cfg.base ∨ s.cfg.base + 0x40000 ≤ addr →
      step { s with inputs := .read bits addr :: rest } = .fault .outsideWindow ∧
      step { s with inputs := .write bits addr v :: rest } = .fault .outsideWindow)

/-! ### Block cipher (40_block_cipher.md) -/

/-- 40_block_cipher.md R427: AES_Dec undoes AES_Enc, and AES_Enc is a permutation of 16-byte blocks for each key. -/
def Obligations.AesDecInvertsAesEnc : Prop :=
  ∀ key : Bytes, key.length = 16 →
    (∀ p : Bytes, p.length = 16 → (aesEnc key p).length = 16 ∧ aesDec key (aesEnc key p) = p) ∧
    (∀ c : Bytes, c.length = 16 → ∃ p : Bytes, p.length = 16 ∧ aesEnc key p = c ∧
      ∀ q : Bytes, q.length = 16 → aesEnc key q = c → q = p)

/-- 40_block_cipher.md R432: unpadding undoes padding. -/
def Obligations.UnpadInvertsPad : Prop :=
  ∀ p : Bytes, pkcs7Unpad (pkcs7Pad p) = .ok p

/-- 40_block_cipher.md R437: decrypting undoes encrypting, for every key, iv and byte string. -/
def Obligations.CbcDecryptInvertsEncrypt : Prop :=
  ∀ key iv p : Bytes, key.length = 16 → iv.length = 16 → cbcDecrypt key iv (cbcEncrypt key iv p) = .ok p

/-- 40_block_cipher.md R440: CBC_ENCRYPT. -/
def Obligations.CbcEncryptResult : Prop :=
  ∀ s : State,
    (s.cfg.ibufBytes < s.inLength ∨ s.inLength < 32 →
      ∃ t, exec .cbcEncrypt s = .next t ∧ Fails s t .length) ∧
    (∀ n, 32 ≤ s.inLength → s.inLength ≤ s.cfg.ibufBytes → n = 16 * ((s.inLength - 32) / 16 + 1) →
      (s.cfg.obufBytes < n → ∃ t, exec .cbcEncrypt s = .next t ∧ Fails s t .outputOverflow) ∧
      (n ≤ s.cfg.obufBytes →
        ∃ t, exec .cbcEncrypt s = .next t ∧ t.outLen.toNat = n ∧
          Outputs s t (cbcEncrypt (s.ibufRange 0 16) (s.ibufRange 16 32) (s.ibufRange 32 s.inLength)) false) ∧
      (s.cfg.Legal → n ≤ s.cfg.obufBytes))

/-- 40_block_cipher.md R441: CBC_DECRYPT. -/
def Obligations.CbcDecryptResult : Prop :=
  ∀ s : State, s.cfg.Legal →
    (s.cfg.ibufBytes < s.inLength ∨ s.inLength < 48 ∨ (s.inLength - 32) % 16 ≠ 0 →
      ∃ t, exec .cbcDecrypt s = .next t ∧ Fails s t .length) ∧
    (48 ≤ s.inLength → s.inLength ≤ s.cfg.ibufBytes → (s.inLength - 32) % 16 = 0 →
      (cbcDecrypt (s.ibufRange 0 16) (s.ibufRange 16 32) (s.ibufRange 32 s.inLength) = .error .padFail →
        ∃ t, exec .cbcDecrypt s = .next t ∧ Fails s t .padding) ∧
      (∀ r, cbcDecrypt (s.ibufRange 0 16) (s.ibufRange 16 32) (s.ibufRange 32 s.inLength) = .ok r →
        ∃ t, exec .cbcDecrypt s = .next t ∧ Outputs s t r false ∧ t.outLen.toNat ≤ s.inLength - 33) ∧
      cbcDecrypt (s.ibufRange 0 16) (s.ibufRange 16 32) (s.ibufRange 32 s.inLength) ≠ .error .lenFail)

/-! ### MAC (41_mac.md) -/

/-- 41_mac.md R530: MAC, with HMAC-SHA-1 for HSEL = 0 and HMAC-SHA-256 for HSEL = 1. -/
def Obligations.MacResult : Prop :=
  ∀ (s : State) (hsel : BitVec 2) (h : HashAlg) (d : Nat), s.cfg.Legal →
    ((hsel = 0 ∧ h = .sha1 ∧ d = 20) ∨ (hsel = 1 ∧ h = .sha256 ∧ d = 32)) →
    (s.cfg.ibufBytes < s.inLength ∨ s.inLength < s.auxLength →
      ∃ t, exec (.mac hsel) s = .next t ∧ Fails s t .length) ∧
    (s.auxLength ≤ s.inLength → s.inLength ≤ s.cfg.ibufBytes →
      ∃ t, exec (.mac hsel) s = .next t ∧
        Outputs s t (hmac h (s.ibufRange 0 s.auxLength) (s.ibufRange s.auxLength s.inLength)) false ∧
        t.outLen.toNat = d)

/-! ### Token codec (42_token_codec.md) -/

/-- 42_token_codec.md R603: base64url decoding undoes encoding, and a string that decodes is the encoding of its result; with
the rule's examples. -/
def Obligations.Base64IsCanonical : Prop :=
  (∀ b : Bytes, b64Decode (b64Encode b) = some b) ∧
  (∀ s b : Bytes, b64Decode s = some b → b64Encode b = s) ∧
  b64Encode [0x66] = [0x5A, 0x67, 0x3D, 0x3D] ∧ b64Encode [0x66, 0x6F] = [0x5A, 0x6D, 0x38, 0x3D] ∧
  b64Encode [0x66, 0x6F, 0x6F] = [0x5A, 0x6D, 0x39, 0x76] ∧ b64Encode [0xFB, 0xFF] = [0x2D, 0x5F, 0x38, 0x3D] ∧
  b64Decode [0x5A, 0x68, 0x3D, 0x3D] = none ∧ b64Decode [0x5A, 0x67] = none ∧
  b64Decode [0x2B, 0x2F, 0x38, 0x3D] = none

/-- 42_token_codec.md R611: the sizes of ciphertext, raw token and text token for a plaintext of n bytes. -/
def Obligations.TokenSizes : Prop :=
  ∀ (sk ek iv p : Bytes) (time : Nat), iv.length = 16 →
    (cbcEncrypt ek iv p).length = 16 * (p.length / 16 + 1) ∧
    (rawToken sk ek iv time p).length = 73 + 16 * (p.length / 16) ∧
    (b64Encode (rawToken sk ek iv time p)).length = 4 * ((73 + 16 * (p.length / 16) + 2) / 3)

/-- 42_token_codec.md R620 (with R606): KEY_LOAD. `m` is the operand, text or raw, as key material. -/
def Obligations.KeyLoadResult : Prop :=
  ∀ (s : State) (raw : Bool),
    (s.keyValid = true → ∃ t, exec (.keyLoad raw) s = .next t ∧ FailsZeroingIbuf s t .locked) ∧
    (s.keyValid = false → s.cfg.ibufBytes < s.inLength →
      ∃ t, exec (.keyLoad raw) s = .next t ∧ FailsZeroingIbuf s t .length) ∧
    (s.keyValid = false → s.inLength ≤ s.cfg.ibufBytes →
      (∀ m, (if raw then some s.primaryInput else b64Decode s.primaryInput) = some m → m.length ≠ 32) →
      ∃ t, exec (.keyLoad raw) s = .next t ∧ FailsZeroingIbuf s t .invalidKeyMaterial) ∧
    (∀ m, s.keyValid = false → s.inLength ≤ s.cfg.ibufBytes →
      (if raw then some s.primaryInput else b64Decode s.primaryInput) = some m → m.length = 32 →
      ∃ t, exec (.keyLoad raw) s = .next t ∧ Completed t .ok [] false ∧ SameRegisters s t ∧ SameSecretStore s t ∧
        IbufZero t ∧ t.keySk = slice m 0 16 ∧ t.keyEk = slice m 16 32 ∧ t.keyValid = true)

/-- 42_token_codec.md R625: KEY_GENERATE asks for 32 bytes of entropy, holds until they are answered, and outputs them. -/
def Obligations.KeyGenerateResult : Prop :=
  ∀ (s : State) (raw : Bool),
    (s.entropy = .idle → ∃ t, exec (.keyGenerate raw) s = .next t ∧ t.entropy = .waiting 32 ∧ SameButEntropy s t) ∧
    (∀ n, s.entropy = .waiting n → exec (.keyGenerate raw) s = .next s) ∧
    (∀ m, s.entropy = .answered m → m.length = 32 →
      ∃ t, exec (.keyGenerate raw) s = .next t ∧ Outputs s t (if raw then m else b64Encode m) false ∧
        t.outLen.toNat = if raw then 32 else 44)

/-- 42_token_codec.md R630: TOKEN_ENCRYPT. It asks for 16 bytes of entropy only after every check has passed, holds until they
are answered, and outputs the token. -/
def Obligations.TokenEncryptResult : Prop :=
  ∀ (s : State) (raw : Bool), s.cfg.Legal →
    (s.keyValid = false → ∃ t, exec (.tokenEncrypt raw) s = .next t ∧ Fails s t .noKey) ∧
    (s.keyValid = true → s.cfg.ibufBytes < s.inLength →
      ∃ t, exec (.tokenEncrypt raw) s = .next t ∧ Fails s t .length) ∧
    (s.keyValid = true → s.inLength ≤ s.cfg.ibufBytes → s.cfg.obufBytes < tokenLength raw s.inLength →
      ∃ t, exec (.tokenEncrypt raw) s = .next t ∧ Fails s t .outputOverflow) ∧
    (s.keyValid = true → s.inLength ≤ s.cfg.ibufBytes → tokenLength raw s.inLength ≤ s.cfg.obufBytes →
      (s.entropy = .idle →
        ∃ t, exec (.tokenEncrypt raw) s = .next t ∧ t.entropy = .waiting 16 ∧ SameButEntropy s t) ∧
      (∀ n, s.entropy = .waiting n → exec (.tokenEncrypt raw) s = .next s)) ∧
    (tokenLength raw s.inLength =
      if raw then 73 + 16 * (s.inLength / 16) else 4 * ((73 + 16 * (s.inLength / 16) + 2) / 3)) ∧
    (∀ iv, s.keyValid = true → s.inLength ≤ s.cfg.ibufBytes → tokenLength raw s.inLength ≤ s.cfg.obufBytes →
      s.entropy = .answered iv → iv.length = 16 →
      ∃ t body, exec (.tokenEncrypt raw) s = .next t ∧
        body = [0x80] ++ be64 s.time ++ iv ++ cbcEncrypt s.keyEk iv s.primaryInput ∧
        Outputs s t (if raw then body ++ hmac .sha256 s.keySk body
          else b64Encode (body ++ hmac .sha256 s.keySk body)) false ∧
        t.outLen.toNat = tokenLength raw s.inLength)

/-- 42_token_codec.md R640: TOKEN_DECRYPT. -/
def Obligations.TokenDecryptResult : Prop :=
  ∀ (s : State) (raw ttlEn : Bool), s.cfg.Legal →
    (s.keyValid = false → ∃ t, exec (.tokenDecrypt raw ttlEn) s = .next t ∧ Fails s t .noKey) ∧
    (s.keyValid = true → s.cfg.ibufBytes < s.inLength →
      ∃ t, exec (.tokenDecrypt raw ttlEn) s = .next t ∧ Fails s t .length) ∧
    (∀ tok r, s.keyValid = true → s.inLength ≤ s.cfg.ibufBytes →
      (if raw then some s.primaryInput else b64Decode s.primaryInput) = some tok → TokenAccepted s ttlEn tok r →
      ∃ t, exec (.tokenDecrypt raw ttlEn) s = .next t ∧ Outputs s t r false) ∧
    (s.keyValid = true → s.inLength ≤ s.cfg.ibufBytes →
      (∀ tok r, (if raw then some s.primaryInput else b64Decode s.primaryInput) = some tok →
        ¬ TokenAccepted s ttlEn tok r) →
      ∃ t, exec (.tokenDecrypt raw ttlEn) s = .next t ∧ Fails s t .invalidToken)

/-- Derived from 42_token_codec.md R643: every failure of the token has one code, and no register, flag or OBUF byte distinguishes two of
them: two states that differ in IBUF only and fail do so alike. -/
def Obligations.TokenFailuresAreOpaque : Prop :=
  ∀ (s : State) (m : Memory) (raw ttlEn : Bool) (t u : State), s.cfg.Legal → s.keyValid = true →
    s.inLength ≤ s.cfg.ibufBytes →
    exec (.tokenDecrypt raw ttlEn) s = .next t → exec (.tokenDecrypt raw ttlEn) { s with ibuf := m } = .next u →
    ((∃ r, Outputs s t r false) ∨ Fails s t .invalidToken) ∧
    (t.errCode ≠ .ok → u.errCode ≠ .ok → u = { t with ibuf := m })

/-- 42_token_codec.md R644: a token made by TOKEN_ENCRYPT under the loaded key is decrypted to its plaintext, in the same form,
at a time at most 60 seconds before its timestamp and, with TTL_EN = 1, at most TTL after it. -/
def Obligations.TokenRoundTrip : Prop :=
  ∀ (s t u : State) (raw ttlEn : Bool) (iv : Bytes), Invariant s → s.keyValid = true →
    s.inLength ≤ s.cfg.ibufBytes → tokenLength raw s.inLength ≤ s.cfg.obufBytes →
    s.entropy = .answered iv → iv.length = 16 → exec (.tokenEncrypt raw) s = .next t →
    SameKeyStore s u → u.cfg = s.cfg → u.inLen = t.outLen → u.inLength ≤ u.cfg.ibufBytes →
    (∀ a, a < t.outLen.toNat → u.ibuf.read a = t.obuf.read a) →
    s.time ≤ u.time + 60 → (ttlEn = true → u.time ≤ s.time + u.ttl) →
    t.errCode = .ok ∧ ∃ v, exec (.tokenDecrypt raw ttlEn) u = .next v ∧ Outputs u v s.primaryInput false

/-! ### OTP generator (43_otp.md) -/

/-- 43_otp.md R703: base32 decoding undoes unpadded encoding; with the rule's examples. -/
def Obligations.Base32RoundTrip : Prop :=
  (∀ b : Bytes, b32Decode (b32EncodeNoPad b) = some b) ∧
  b32Decode [0x6D, 0x7A, 0x78, 0x77, 0x36, 0x79, 0x74, 0x62, 0x6F, 0x69] =
    some [0x66, 0x6F, 0x6F, 0x62, 0x61, 0x72] ∧
  b32Decode [0x4D, 0x5A, 0x58, 0x57, 0x36] = some [0x66, 0x6F, 0x6F] ∧
  b32Decode [0x4D, 0x5A, 0x58] = none ∧
  b32Decode [0x4D, 0x5A, 0x58, 0x57, 0x36, 0x59, 0x54, 0x42, 0x31] = none ∧
  b32Decode [0x47, 0x45, 0x5A, 0x44, 0x47, 0x4E, 0x42, 0x56, 0x47, 0x59, 0x33, 0x54, 0x51, 0x4F, 0x4A, 0x51, 0x47,
      0x45, 0x5A, 0x44, 0x47, 0x4E, 0x42, 0x56, 0x47, 0x59, 0x33, 0x54, 0x51, 0x4F, 0x4A, 0x51] =
    some [0x31, 0x32, 0x33, 0x34, 0x35, 0x36, 0x37, 0x38, 0x39, 0x30, 0x31, 0x32, 0x33, 0x34, 0x35, 0x36, 0x37, 0x38,
      0x39, 0x30]

/-- Derived from 43_otp.md R710, R755: a code is exactly `digits` ASCII decimal digits whose number is the 31-bit truncated value
modulo 10^digits. -/
def Obligations.OtpCodesAreDigits : Prop :=
  ∀ (secret : Bytes) (counter digits : Nat) (h : HashAlg), 1 ≤ digits → digits ≤ 10 →
    (hotp secret counter digits h).length = digits ∧
    (∀ c ∈ hotp secret counter digits h, 0x30 ≤ c.toNat ∧ c.toNat ≤ 0x39) ∧
    (hotp secret counter digits h).foldl (fun n c => 10 * n + (c.toNat - 0x30)) 0 =
      truncateDigest (hmac h secret (be64 counter)) % 10 ^ digits ∧
    truncateDigest (hmac h secret (be64 counter)) < 2 ^ 31

/-- 43_otp.md R720: SECRET_LOAD. -/
def Obligations.SecretLoadResult : Prop :=
  ∀ (s : State) (raw : Bool),
    (s.secretValid = true → ∃ t, exec (.secretLoad raw) s = .next t ∧ FailsZeroingIbuf s t .locked) ∧
    (s.secretValid = false → s.cfg.ibufBytes < s.inLength →
      ∃ t, exec (.secretLoad raw) s = .next t ∧ FailsZeroingIbuf s t .length) ∧
    (s.secretValid = false → s.inLength ≤ s.cfg.ibufBytes → raw = false → b32Decode s.primaryInput = none →
      ∃ t, exec (.secretLoad raw) s = .next t ∧ FailsZeroingIbuf s t .invalidKeyMaterial) ∧
    (∀ b, s.secretValid = false → s.inLength ≤ s.cfg.ibufBytes →
      (if raw then some s.primaryInput else b32Decode s.primaryInput) = some b →
      (s.cfg.secretMax < b.length →
        ∃ t, exec (.secretLoad raw) s = .next t ∧ FailsZeroingIbuf s t .length) ∧
      (b.length ≤ s.cfg.secretMax →
        ∃ t, exec (.secretLoad raw) s = .next t ∧ Completed t .ok [] false ∧ SameRegisters s t ∧ SameKeyStore s t ∧
          IbufZero t ∧ t.secret = b ++ bytesOf (s.cfg.secretMax - b.length) 0 ∧ t.secretLen = b.length ∧
          t.secretValid = true))

/-- 43_otp.md R725: OTP_GENERATE. -/
def Obligations.OtpGenerateResult : Prop :=
  ∀ s : State,
    (s.secretValid = false → ∃ t, exec .otpGenerate s = .next t ∧ Fails s t .noSecret) ∧
    (s.secretValid = true → OtpCfgIllegal s → ∃ t, exec .otpGenerate s = .next t ∧ Fails s t .invalidArgument) ∧
    (∀ h, s.secretValid = true → 1 ≤ s.digits → s.digits ≤ 10 → OtpHash s h →
      ∃ t, exec .otpGenerate s = .next t ∧ Outputs s t (hotp s.secretBytes s.arg s.digits h) false ∧
        t.outLen.toNat = s.digits)

/-- 43_otp.md R730 (with R712): OTP_NOW. -/
def Obligations.OtpNowResult : Prop :=
  ∀ s : State,
    (s.secretValid = false → ∃ t, exec .otpNow s = .next t ∧ Fails s t .noSecret) ∧
    (s.secretValid = true → OtpCfgIllegal s ∨ s.interval = 0 →
      ∃ t, exec .otpNow s = .next t ∧ Fails s t .invalidArgument) ∧
    (∀ h, s.secretValid = true → 1 ≤ s.digits → s.digits ≤ 10 → OtpHash s h → s.interval ≠ 0 →
      ∃ t, exec .otpNow s = .next t ∧
        Outputs s t (hotp s.secretBytes (s.time / s.interval.toNat) s.digits h) false ∧ t.outLen.toNat = s.digits)

/-- 43_otp.md R740: OTP_VERIFY. `tm` is the time-step, W the window. -/
def Obligations.OtpVerifyResult : Prop :=
  ∀ (s : State) (forTime : Bool) (tm : Nat), tm = (if forTime then s.arg else s.time) / s.interval.toNat →
    (s.secretValid = false → ∃ t, exec (.otpVerify forTime) s = .next t ∧ Fails s t .noSecret) ∧
    (s.secretValid = true → s.cfg.ibufBytes < s.inLength →
      ∃ t, exec (.otpVerify forTime) s = .next t ∧ Fails s t .length) ∧
    (s.secretValid = true → s.inLength ≤ s.cfg.ibufBytes →
      OtpCfgIllegal s ∨ s.interval = 0 ∨ tm < s.window.toNat ∨ 2 ^ 64 - 1 < tm + s.window.toNat →
      ∃ t, exec (.otpVerify forTime) s = .next t ∧ Fails s t .invalidArgument) ∧
    (∀ h, s.secretValid = true → s.inLength ≤ s.cfg.ibufBytes → 1 ≤ s.digits → s.digits ≤ 10 → OtpHash s h →
      s.interval ≠ 0 → s.window.toNat ≤ tm → tm + s.window.toNat ≤ 2 ^ 64 - 1 →
      ∃ t m, exec (.otpVerify forTime) s = .next t ∧ Outputs s t [] m ∧
        (m = true ↔ ∃ k, tm - s.window.toNat ≤ k ∧ k ≤ tm + s.window.toNat ∧
          hotp s.secretBytes k s.digits h = s.primaryInput))

/-- 43_otp.md R750: OTP_URI. The bytes are "otpauth://totp/", ":", "?secret=" and "&issuer=" in ASCII. -/
def Obligations.OtpUriResult : Prop :=
  ∀ s : State, s.cfg.Legal →
    (s.secretValid = false → ∃ t, exec .otpUri s = .next t ∧ Fails s t .noSecret) ∧
    (s.secretValid = true → s.cfg.ibufBytes < s.inLength ∨ s.inLength < s.auxLength →
      ∃ t, exec .otpUri s = .next t ∧ Fails s t .length) ∧
    (∀ n, s.secretValid = true → s.auxLength ≤ s.inLength → s.inLength ≤ s.cfg.ibufBytes →
      n = 32 + s.inLength + s.auxLength + (8 * s.secretBytes.length + 4) / 5 →
      (s.cfg.obufBytes < n → ∃ t, exec .otpUri s = .next t ∧ Fails s t .outputOverflow) ∧
      (n ≤ s.cfg.obufBytes →
        ∃ t, exec .otpUri s = .next t ∧ t.outLen.toNat = n ∧
          Outputs s t ([0x6F, 0x74, 0x70, 0x61, 0x75, 0x74, 0x68, 0x3A, 0x2F, 0x2F, 0x74, 0x6F, 0x74, 0x70, 0x2F] ++
            s.ibufRange 0 s.auxLength ++ [0x3A] ++ s.ibufRange s.auxLength s.inLength ++
            [0x3F, 0x73, 0x65, 0x63, 0x72, 0x65, 0x74, 0x3D] ++ b32EncodeNoPad s.secretBytes ++
            [0x26, 0x69, 0x73, 0x73, 0x75, 0x65, 0x72, 0x3D] ++ s.ibufRange 0 s.auxLength) false))

/-! ### Control (44_control.md) -/

/-- 44_control.md R800: ZEROIZE succeeds in every state and clears both stores and IBUF; every other register is unchanged. -/
def Obligations.ZeroizeResult : Prop :=
  ∀ s : State,
    ∃ t, exec .zeroize s = .next t ∧ Completed t .ok [] false ∧ SameRegisters s t ∧ IbufZero t ∧
      t.keySk = bytesOf 16 0 ∧ t.keyEk = bytesOf 16 0 ∧ t.keyValid = false ∧
      t.secret = bytesOf s.cfg.secretMax 0 ∧ t.secretLen = 0 ∧ t.secretValid = false

/-! ### Rules about the whole machine -/

/-- 60_exceptions.md R902: whenever a command in progress completes with an error, there is no output, every register but
STATUS, OUT_LEN and RESULT and both stores keep their values, and so does IBUF, but for KEY_LOAD and SECRET_LOAD, which
zero it. -/
def Obligations.FailureLeavesNoOutput : Prop :=
  ∀ (s t : State) (w : Word) (rest : List Input), s.seq = .busy w → SequencerNext s rest → step s = .next t →
    t.seq = .idle → t.errCode ≠ .ok →
    Completed t t.errCode [] false ∧ SameRegisters { s with inputs := rest } t ∧ SameKeyStore s t ∧ SameSecretStore s t ∧
      ((∃ raw, decode w = .ok (.keyLoad raw) ∨ decode w = .ok (.secretLoad raw)) → IbufZero t) ∧
      ((∀ raw, decode w ≠ .ok (.keyLoad raw) ∧ decode w ≠ .ok (.secretLoad raw)) → SameIbuf s t)

/-- 60_exceptions.md R903: whenever a command in progress succeeds, OBUF holds its output and zeros, OUT_LEN its length, which
is at most OBUF_BYTES; RESULT.MATCH is 1 for OTP_VERIFY only; only KEY_LOAD, SECRET_LOAD and ZEROIZE change a store or IBUF.
The invariant rules out answers of the wrong length (StepKeepsInvariant). -/
def Obligations.SuccessWritesItsOutput : Prop :=
  ∀ (s t : State) (w : Word) (rest : List Input), Invariant s → s.seq = .busy w → SequencerNext s rest →
    step s = .next t → t.seq = .idle → t.errCode = .ok →
    ∃ i out, decode w = .ok i ∧ Completed t .ok out t.matched ∧ out.length ≤ s.cfg.obufBytes ∧
      SameRegisters { s with inputs := rest } t ∧ (t.matched = true → ∃ forTime, i = .otpVerify forTime) ∧
      ((∀ raw, i ≠ .keyLoad raw) → i ≠ .zeroize → SameKeyStore s t) ∧
      ((∀ raw, i ≠ .secretLoad raw) → i ≠ .zeroize → SameSecretStore s t) ∧
      ((∀ raw, i ≠ .keyLoad raw ∧ i ≠ .secretLoad raw) → i ≠ .zeroize → SameIbuf s t)

/-- Derived from 60_exceptions.md R901, R905: the codes each command can complete with. A command that waits for entropy
has not completed. -/
def Obligations.CodesOfEachCommand : Prop :=
  ∀ (i : Instr) (s t : State), i.wellFormed = true → exec i s = .next t →
    (t.done = true ∧ t.seq = .idle ∧
      t.errCode ∈ codesOf i) ∨
    ((∃ n, drawBytes i = some n ∧ ∀ b, s.entropy ≠ .answered b) ∧ (∃ n, t.entropy = .waiting n) ∧ SameButEntropy s t)

/-- Derived from 10_state.md R140 (its clauses on the loaded key): while KEY.VALID = 1 a step changes the key store only by
completing a ZEROIZE, which clears it, or by a reset; KEY_LOAD fails with LOCKED. -/
def Obligations.LoadedKeyIsImmutable : Prop :=
  (∀ s t : State, step s = .next t → s.keyValid = true →
    SameKeyStore s t ∨ IsReset t ∨
      (s.seq = .busy 0x0000000D ∧ (∃ rest, SequencerNext s rest) ∧
        t.keySk = bytesOf 16 0 ∧ t.keyEk = bytesOf 16 0 ∧ t.keyValid = false)) ∧
  (∀ (s : State) (raw : Bool), s.keyValid = true →
    ∃ t, exec (.keyLoad raw) s = .next t ∧ FailsZeroingIbuf s t .locked)

/-- 10_state.md R143: while SECRET.VALID = 1 a step changes the secret store only by completing a ZEROIZE, which clears it, or
by a reset; SECRET_LOAD fails with LOCKED. -/
def Obligations.LoadedSecretIsImmutable : Prop :=
  (∀ s t : State, step s = .next t → s.secretValid = true →
    SameSecretStore s t ∨ IsReset t ∨
      (s.seq = .busy 0x0000000D ∧ (∃ rest, SequencerNext s rest) ∧
        t.secret = bytesOf s.cfg.secretMax 0 ∧ t.secretLen = 0 ∧ t.secretValid = false)) ∧
  (∀ (s : State) (raw : Bool), s.secretValid = true →
    ∃ t, exec (.secretLoad raw) s = .next t ∧ FailsZeroingIbuf s t .locked)

/-- Derived from 10_state.md R141: no step but one that goes on with TOKEN_ENCRYPT or TOKEN_DECRYPT lets the key bytes reach
anything else: from two states that differ in KEY.SK and KEY.EK only, it gives two states that differ there at most. -/
def Obligations.KeyBytesStayInTheStore : Prop :=
  ∀ (s t : State) (sk ek : Bytes), step s = .next t →
    (∀ w i rest, s.seq = .busy w → decode w = .ok i → SequencerNext s rest →
      (∀ raw, i ≠ .tokenEncrypt raw) ∧ (∀ raw ttlEn, i ≠ .tokenDecrypt raw ttlEn)) →
    ∃ sk' ek', step { s with keySk := sk, keyEk := ek } = .next { t with keySk := sk', keyEk := ek' }

/-- Derived from 10_state.md R141: no step but one that goes on with an OTP command lets the secret's bytes reach anything else. -/
def Obligations.SecretBytesStayInTheStore : Prop :=
  ∀ (s t : State) (sec : Bytes), step s = .next t →
    (∀ w i rest, s.seq = .busy w → decode w = .ok i → SequencerNext s rest →
      i ≠ .otpGenerate ∧ i ≠ .otpNow ∧ (∀ f, i ≠ .otpVerify f) ∧ i ≠ .otpUri) →
    ∃ sec', step { s with secret := sec } = .next { t with secret := sec' }

/-- Derived from 10_state.md R170 and 00_scope.md R7: the reset state satisfies the invariant for every legal choice of the
parameters; and so does `State.reset`, whose parameters are the model's choice (the default sizes and BASE = 0, logs 1, 2). -/
def Obligations.ResetSatisfiesInvariant : Prop :=
  (∀ c : Config, c.Legal → Invariant (State.resetFor c)) ∧ Invariant State.reset

/-- Derived from 10_state.md R122, R140, R142, R153, 20_memory.md R206 and 60_exceptions.md R902, R903: every step keeps the
invariant: buffers in canonical form inside their sizes, OBUF zero beyond OUT_LEN, stores of their sizes and zero while
invalid, the entropy request that of the command in progress, outputs clear while BUSY and after an error, the reset state
while RST is asserted. -/
def Obligations.StepKeepsInvariant : Prop :=
  ∀ s t : State, Invariant s → step s = .next t → Invariant t
end

