-- ==== Sys2Proof/Laws/Bytes.lean ====
section
/-! SUPPORT. Laws of byte strings: lengths, big-endian conversion, groups. -/

namespace Sys2Proof.Machine

@[simp] theorem length_be (n k : Nat) : (be n k).length = k := by simp [be]

@[simp] theorem length_be64 (n : Nat) : (be64 n).length = 8 := length_be n 8

@[simp] theorem length_bytesOf (n : Nat) (v : Byte) : (bytesOf n v).length = n := by simp [bytesOf]

@[simp] theorem length_slice (s : Bytes) (i j : Nat) : (slice s i j).length = min j s.length - i := by simp [slice]

@[simp] theorem length_xorBytes (a b : Bytes) : (xorBytes a b).length = min a.length b.length := by simp [xorBytes]

@[simp] theorem length_asciiDec (n d : Nat) : (asciiDec n d).length = d := by simp [asciiDec]

@[simp] theorem length_groupsOf (k : Nat) (s : Bytes) : (groupsOf k s).length = (s.length + (k - 1)) / k := by
  simp [groupsOf]

@[simp] theorem groupsOf_nil (k : Nat) : groupsOf k [] = [] := by
  cases k <;> simp [groupsOf, Nat.div_eq_of_lt]

/-- The groups of a string of at most k bytes, if it has any: itself. -/
theorem groupsOf_of_le {k : Nat} {s : Bytes} (h0 : s ≠ []) (h : s.length ≤ k) : groupsOf k s = [s] := by
  have hpos : 0 < s.length := List.length_pos_iff.2 h0
  have hk : (s.length + (k - 1)) / k = 1 := Nat.div_eq_of_lt_le (by omega) (by omega)
  simp [groupsOf, hk, List.take_of_length_le h]

/-- The groups of a string whose first group is full. -/
theorem groupsOf_append {k : Nat} (hk : 0 < k) {g s : Bytes} (hg : g.length = k) :
    groupsOf k (g ++ s) = g :: groupsOf k s := by
  have hlen : ((g ++ s).length + (k - 1)) / k = (s.length + (k - 1)) / k + 1 := by
    rw [List.length_append, hg, show k + s.length + (k - 1) = s.length + (k - 1) + k by omega, Nat.add_div_right _ hk]
  unfold groupsOf
  rw [hlen, List.range_succ_eq_map, List.map_cons, List.map_map]
  congr 1
  · simp [hg]
  · refine List.map_congr_left fun j _ => ?_
    have : (g ++ s).drop (k * (j + 1)) = s.drop (k * j) := by
      rw [Nat.mul_succ, Nat.add_comm, ← List.drop_drop, ← hg, List.drop_left]
    simp only [Function.comp, Nat.succ_eq_add_one, this]

theorem slice_append_left {a b : Bytes} : slice (a ++ b) 0 a.length = a := by simp [slice]

theorem slice_append_right {a b : Bytes} {n : Nat} (h : n = a.length + b.length) : slice (a ++ b) a.length n = b := by
  subst h
  rw [slice, ← List.length_append, List.take_length, List.drop_left]

/-- from_be undoes be on every integer the k bytes can hold (00_scope.md R12). -/
theorem fromBe_be {n k : Nat} (h : n < 2 ^ (8 * k)) : fromBe (be n k) = n := by
  have key : ∀ (k m acc : Nat), m < 2 ^ (8 * k) →
      ((List.range k).map fun i => BitVec.ofNat 8 (m / 2 ^ (8 * (k - 1 - i)))).foldl
        (fun acc b => acc * 2 ^ 8 + b.toNat) acc = acc * 2 ^ (8 * k) + m := by
    intro k
    induction k with
    | zero => intro m acc hm; simp at hm; simp [hm]
    | succ k ih =>
      intro m acc hm
      have hm' : m / 2 ^ 8 < 2 ^ (8 * k) := by
        rw [Nat.div_lt_iff_lt_mul (by positivity), ← pow_add]
        exact lt_of_lt_of_eq hm (by ring_nf)
      rw [List.range_succ, List.map_append, List.foldl_append]
      have hcongr : ((List.range k).map fun i => BitVec.ofNat 8 (m / 2 ^ (8 * (k + 1 - 1 - i)))) =
          (List.range k).map fun i => BitVec.ofNat 8 (m / 2 ^ 8 / 2 ^ (8 * (k - 1 - i))) := by
        refine List.map_congr_left fun i hi => ?_
        have hi := List.mem_range.1 hi
        rw [Nat.div_div_eq_div_mul, ← pow_add]
        congr 3
        omega
      rw [hcongr, ih _ _ hm']
      simp only [List.map_cons, List.map_nil, List.foldl_cons, List.foldl_nil, Nat.add_sub_cancel, Nat.sub_self,
        Nat.mul_zero, pow_zero, Nat.div_one, BitVec.toNat_ofNat]
      rw [show 8 * (k + 1) = 8 * k + 8 by omega, pow_add, ← Nat.mul_assoc]
      generalize acc * 2 ^ (8 * k) = q
      omega
  simpa [fromBe, be] using key k n 0 h

end Sys2Proof.Machine
end

