-- ==== Sys2Proof/Laws/Aes.lean ====
section
/-! SUPPORT. Laws of the AES block: cells of a block built cell by cell, lengths, and that each round transformation and its
inverse undo each other. -/

namespace Sys2Proof.Machine

@[simp] theorem length_block (f : Nat → Nat → Byte) : (block f).length = 16 := by simp [block]

/-- The cells of a block built cell by cell (40_block_cipher.md R410). -/
theorem cell_block (f : Nat → Nat → Byte) {r c : Nat} (hr : r < 4) (hc : c < 4) : cell (block f) r c = f r c := by
  have h : r + 4 * c < 16 := by omega
  have h1 : (r + 4 * c) % 4 = r := by omega
  have h2 : (r + 4 * c) / 4 = c := by omega
  simp [cell, block, h, h1, h2]

/-- A 16-byte string is the block of its cells (40_block_cipher.md R410). -/
theorem block_cell {s : Bytes} (h : s.length = 16) : block (cell s) = s := by
  refine List.ext_getElem (by simp [h]) fun k h1 h2 => ?_
  have hk : k % 4 + 4 * (k / 4) = k := by omega
  simp [block, cell, hk, h2]

theorem block_congr {f g : Nat → Nat → Byte} (h : ∀ r c, r < 4 → c < 4 → f r c = g r c) : block f = block g := by
  refine List.map_congr_left fun k hk => h _ _ (by omega) ?_
  have := List.mem_range.1 hk
  omega

@[simp] theorem length_addRoundKey (s rk : Bytes) : (addRoundKey s rk).length = 16 := by simp only [addRoundKey, length_block]

@[simp] theorem length_aesEnc (key p : Bytes) : (aesEnc key p).length = 16 := by
  simp only [aesEnc, length_addRoundKey]

@[simp] theorem length_aesDec (key c : Bytes) : (aesDec key c).length = 16 := by
  simp only [aesDec, length_addRoundKey]

/-- The S-boxes undo each other (40_block_cipher.md R404, R405). -/
theorem invSbox_sbox : ∀ a : Byte, invSbox (sbox a) = a := by decide +kernel

theorem sbox_invSbox : ∀ a : Byte, sbox (invSbox a) = a := by decide +kernel

/-- xtime is linear (40_block_cipher.md R402). -/
theorem xtime_xor (x y : Byte) : xtime (x ^^^ y) = xtime x ^^^ xtime y := by
  have h : ∀ p q : Bool, (if (p ^^ q) then (0x1B : Byte) else 0) = (if p then 0x1B else 0) ^^^ (if q then 0x1B else 0) := by
    decide
  simp only [xtime, BitVec.getLsbD_xor, h, BitVec.shiftLeft_xor_distrib]
  ac_rfl

/-- The products of MixColumns and InvMixColumns by xtime (40_block_cipher.md R402, R413, R417). -/
theorem gmul_02 : ∀ a : Byte, gmul 0x02 a = xtime a := by decide +kernel
theorem gmul_03 : ∀ a : Byte, gmul 0x03 a = xtime a ^^^ a := by decide +kernel
theorem gmul_09 : ∀ a : Byte, gmul 0x09 a = xtime (xtime (xtime a)) ^^^ a := by decide +kernel
theorem gmul_0b : ∀ a : Byte, gmul 0x0b a = xtime (xtime (xtime a)) ^^^ xtime a ^^^ a := by decide +kernel
theorem gmul_0d : ∀ a : Byte, gmul 0x0d a = xtime (xtime (xtime a)) ^^^ xtime (xtime a) ^^^ a := by decide +kernel
theorem gmul_0e : ∀ a : Byte, gmul 0x0e a = xtime (xtime (xtime a)) ^^^ xtime (xtime a) ^^^ xtime a := by decide +kernel

/-- The product is linear in its second factor (40_block_cipher.md R402). -/
theorem gmul_xor (k x y : Byte) : gmul k (x ^^^ y) = gmul k x ^^^ gmul k y := by
  have hg : ∀ b, gmul k b = (List.range 8).foldl (fun acc i => acc ^^^ (if b.getLsbD i then xtimes i k else 0)) 0 := by
    intro b
    unfold gmul
    congr 1
    funext acc i
    split <;> simp
  have h : ∀ (p q : Bool) (m : Byte), (if (p ^^ q) then m else 0) = (if p then m else 0) ^^^ (if q then m else 0) := by
    intro p q m
    cases p <;> cases q <;> simp
  simp only [hg, show List.range 8 = [0, 1, 2, 3, 4, 5, 6, 7] from rfl, List.foldl, BitVec.getLsbD_xor, h]
  ac_rfl

theorem xor_left_comm (x y z : Byte) : x ^^^ (y ^^^ z) = y ^^^ (x ^^^ z) := by ac_rfl

/-- The two matrices multiply to the identity, one entry of each kind at a time (40_block_cipher.md R413, R417). -/
theorem mixProducts (a : Byte) :
    gmul 0x0e (gmul 0x02 a) ^^^ gmul 0x0b a ^^^ gmul 0x0d a ^^^ gmul 0x09 (gmul 0x03 a) = a ∧
    gmul 0x0e (gmul 0x03 a) ^^^ gmul 0x0b (gmul 0x02 a) ^^^ gmul 0x0d a ^^^ gmul 0x09 a = 0 ∧
    gmul 0x0e a ^^^ gmul 0x0b (gmul 0x03 a) ^^^ gmul 0x0d (gmul 0x02 a) ^^^ gmul 0x09 a = 0 ∧
    gmul 0x0e a ^^^ gmul 0x0b a ^^^ gmul 0x0d (gmul 0x03 a) ^^^ gmul 0x09 (gmul 0x02 a) = 0 := by
  simp only [gmul_02, gmul_03, gmul_09, gmul_0b, gmul_0d, gmul_0e, xtime_xor]
  generalize xtime (xtime (xtime (xtime a))) = e
  generalize xtime (xtime (xtime a)) = d
  generalize xtime (xtime a) = c
  generalize xtime a = b
  simp [BitVec.xor_assoc, xor_left_comm, BitVec.xor_comm]

theorem mixProducts' (a : Byte) :
    gmul 0x02 (gmul 0x0e a) ^^^ gmul 0x03 (gmul 0x09 a) ^^^ gmul 0x0d a ^^^ gmul 0x0b a = a ∧
    gmul 0x02 (gmul 0x0b a) ^^^ gmul 0x03 (gmul 0x0e a) ^^^ gmul 0x09 a ^^^ gmul 0x0d a = 0 ∧
    gmul 0x02 (gmul 0x0d a) ^^^ gmul 0x03 (gmul 0x0b a) ^^^ gmul 0x0e a ^^^ gmul 0x09 a = 0 ∧
    gmul 0x02 (gmul 0x09 a) ^^^ gmul 0x03 (gmul 0x0d a) ^^^ gmul 0x0b a ^^^ gmul 0x0e a = 0 := by
  simp only [gmul_02, gmul_03, gmul_09, gmul_0b, gmul_0d, gmul_0e, xtime_xor]
  generalize xtime (xtime (xtime (xtime a))) = e
  generalize xtime (xtime (xtime a)) = d
  generalize xtime (xtime a) = c
  generalize xtime a = b
  simp [BitVec.xor_assoc, xor_left_comm, BitVec.xor_comm]

theorem xor_congr {w x y z w' x' y' z' e : Byte} (hw : w = w') (hx : x = x') (hy : y = y') (hz : z = z')
    (h : e = w ^^^ x ^^^ y ^^^ z) : e = w' ^^^ x' ^^^ y' ^^^ z' := by
  rw [← hw, ← hx, ← hy, ← hz, h]

/-- InvMixColumns undoes MixColumns, and MixColumns undoes InvMixColumns (40_block_cipher.md R413, R417). -/
theorem invMixColumns_mixColumns {s : Bytes} (h : s.length = 16) : invMixColumns (mixColumns s) = s := by
  conv_rhs => rw [← block_cell h]
  refine block_congr fun r c hr hc => ?_
  have hm : ∀ k, k < 4 → cell (mixColumns s) k c = _ := fun k hk => cell_block _ hk hc
  dsimp only
  rw [hm 0 (by decide), hm 1 (by decide), hm 2 (by decide), hm 3 (by decide)]
  dsimp only
  obtain ⟨d0, z01, z02, z03⟩ := mixProducts (cell s 0 c)
  obtain ⟨d1, z11, z12, z13⟩ := mixProducts (cell s 1 c)
  obtain ⟨d2, z21, z22, z23⟩ := mixProducts (cell s 2 c)
  obtain ⟨d3, z31, z32, z33⟩ := mixProducts (cell s 3 c)
  obtain rfl | rfl | rfl | rfl : r = 0 ∨ r = 1 ∨ r = 2 ∨ r = 3 := by omega
  all_goals simp only [gmul_xor]
  · exact (xor_congr d0 z11 z22 z33 (by ac_rfl)).trans (by simp)
  · exact (xor_congr z03 d1 z21 z32 (by ac_rfl)).trans (by simp)
  · exact (xor_congr z02 z13 d2 z31 (by ac_rfl)).trans (by simp)
  · exact (xor_congr z01 z12 z23 d3 (by ac_rfl)).trans (by simp)

theorem mixColumns_invMixColumns {s : Bytes} (h : s.length = 16) : mixColumns (invMixColumns s) = s := by
  conv_rhs => rw [← block_cell h]
  refine block_congr fun r c hr hc => ?_
  have hm : ∀ k, k < 4 → cell (invMixColumns s) k c = _ := fun k hk => cell_block _ hk hc
  dsimp only
  rw [hm 0 (by decide), hm 1 (by decide), hm 2 (by decide), hm 3 (by decide)]
  dsimp only
  obtain ⟨d0, z01, z02, z03⟩ := mixProducts' (cell s 0 c)
  obtain ⟨d1, z11, z12, z13⟩ := mixProducts' (cell s 1 c)
  obtain ⟨d2, z21, z22, z23⟩ := mixProducts' (cell s 2 c)
  obtain ⟨d3, z31, z32, z33⟩ := mixProducts' (cell s 3 c)
  obtain rfl | rfl | rfl | rfl : r = 0 ∨ r = 1 ∨ r = 2 ∨ r = 3 := by omega
  all_goals simp only [gmul_xor]
  · exact (xor_congr d0 z11 z22 z33 (by ac_rfl)).trans (by simp)
  · exact (xor_congr z03 d1 z21 z32 (by ac_rfl)).trans (by simp)
  · exact (xor_congr z02 z13 d2 z31 (by ac_rfl)).trans (by simp)
  · exact (xor_congr z01 z12 z23 d3 (by ac_rfl)).trans (by simp)

/-- Each of the other transformations and its inverse undo each other (40_block_cipher.md R411 to R416). -/
theorem invSubBytes_subBytes {s : Bytes} (h : s.length = 16) : invSubBytes (subBytes s) = s := by
  conv_rhs => rw [← block_cell h]
  refine block_congr fun r c hr hc => ?_
  rw [subBytes, cell_block _ hr hc, invSbox_sbox]

theorem subBytes_invSubBytes {s : Bytes} (h : s.length = 16) : subBytes (invSubBytes s) = s := by
  conv_rhs => rw [← block_cell h]
  refine block_congr fun r c hr hc => ?_
  rw [invSubBytes, cell_block _ hr hc, sbox_invSbox]

theorem invShiftRows_shiftRows {s : Bytes} (h : s.length = 16) : invShiftRows (shiftRows s) = s := by
  conv_rhs => rw [← block_cell h]
  refine block_congr fun r c hr hc => ?_
  rw [shiftRows, cell_block _ hr (by omega)]
  congr 1
  omega

theorem shiftRows_invShiftRows {s : Bytes} (h : s.length = 16) : shiftRows (invShiftRows s) = s := by
  conv_rhs => rw [← block_cell h]
  refine block_congr fun r c hr hc => ?_
  rw [invShiftRows, cell_block _ hr (by omega)]
  congr 1
  omega

theorem addRoundKey_addRoundKey {s : Bytes} (h : s.length = 16) (rk : Bytes) : addRoundKey (addRoundKey s rk) rk = s := by
  conv_rhs => rw [← block_cell h]
  refine block_congr fun r c hr hc => ?_
  rw [addRoundKey, cell_block _ hr hc, BitVec.xor_assoc, BitVec.xor_self, BitVec.xor_zero]

@[simp] theorem length_subBytes (s : Bytes) : (subBytes s).length = 16 := by simp only [subBytes, length_block]

@[simp] theorem length_invSubBytes (s : Bytes) : (invSubBytes s).length = 16 := by simp only [invSubBytes, length_block]

@[simp] theorem length_shiftRows (s : Bytes) : (shiftRows s).length = 16 := by simp only [shiftRows, length_block]

@[simp] theorem length_invShiftRows (s : Bytes) : (invShiftRows s).length = 16 := by
  simp only [invShiftRows, length_block]

@[simp] theorem length_mixColumns (s : Bytes) : (mixColumns s).length = 16 := by simp only [mixColumns, length_block]

@[simp] theorem length_invMixColumns (s : Bytes) : (invMixColumns s).length = 16 := by
  simp only [invMixColumns, length_block]

end Sys2Proof.Machine
end

