-- ==== Sys2Proof/Laws/Cbc.lean ====
section
/-! SUPPORT. Laws of padding and chaining: the lengths of their results (40_block_cipher.md R430, R435, R436). -/

namespace Sys2Proof.Machine

theorem length_pkcs7Pad (p : Bytes) : (pkcs7Pad p).length = 16 * (p.length / 16 + 1) := by
  simp only [pkcs7Pad, List.length_append, length_bytesOf]
  omega

theorem length_cbcEncBlocks (key : Bytes) (bs : List Bytes) (iv : Bytes) :
    (cbcEncBlocks key iv bs).length = 16 * bs.length := by
  induction bs generalizing iv with
  | nil => rfl
  | cons b rest ih =>
    simp only [cbcEncBlocks, List.length_append, length_aesEnc, ih, List.length_cons]
    omega

/-- len(CBC_Encrypt(K, IV, p)) = 16·(len(p) div 16 + 1) (40_block_cipher.md R435). -/
theorem length_cbcEncrypt (key iv p : Bytes) : (cbcEncrypt key iv p).length = 16 * (p.length / 16 + 1) := by
  rw [cbcEncrypt, length_cbcEncBlocks, length_groupsOf, length_pkcs7Pad]
  omega

theorem length_cbcDecBlocks_le (key : Bytes) (bs : List Bytes) (iv : Bytes) :
    (cbcDecBlocks key iv bs).length ≤ 16 * bs.length := by
  induction bs generalizing iv with
  | nil => simp [cbcDecBlocks]
  | cons b rest ih =>
    have := ih b
    simp only [cbcDecBlocks, List.length_append, length_xorBytes, length_aesDec, List.length_cons]
    omega

theorem length_pkcs7Unpad_le {q r : Bytes} (h : pkcs7Unpad q = .ok r) : r.length ≤ q.length := by
  simp only [pkcs7Unpad] at h
  split at h
  · cases h
  · split at h
    · cases h
    · cases h
      simp

/-- A decrypted string is no longer than its ciphertext (40_block_cipher.md R436). -/
theorem length_cbcDecrypt_le {key iv c r : Bytes} (h : cbcDecrypt key iv c = .ok r) : r.length ≤ c.length := by
  simp only [cbcDecrypt] at h
  split at h
  · cases h
  · have h1 := length_pkcs7Unpad_le h
    have h2 := length_cbcDecBlocks_le key (groupsOf 16 c) iv
    rw [length_groupsOf] at h2
    omega

end Sys2Proof.Machine
end

