-- ==== Sys2Proof/Laws/Hash.lean ====
section
/-! SUPPORT. Laws of the hash functions, HMAC and HOTP: the lengths of their results (41_mac.md R500, R520; 43_otp.md R710). -/

namespace Sys2Proof.Machine

theorem length_sha256Hash (m : Bytes) : (sha256Hash m).length = 32 := by simp [sha256Hash]

theorem length_sha1Hash (m : Bytes) : (sha1Hash m).length = 20 := by simp [sha1Hash]

@[simp] theorem length_digest (h : HashAlg) (m : Bytes) : (h.digest m).length = h.digestLength := by
  cases h
  · exact length_sha1Hash m
  · exact length_sha256Hash m

/-- HMAC's result has H's digest length (41_mac.md R520). -/
@[simp] theorem length_hmac (h : HashAlg) (key msg : Bytes) : (hmac h key msg).length = h.digestLength := length_digest h _

theorem digestLength_le (h : HashAlg) : h.digestLength ≤ 32 := by cases h <;> decide

@[simp] theorem length_hotp (secret : Bytes) (counter digits : Nat) (h : HashAlg) :
    (hotp secret counter digits h).length = digits := length_asciiDec _ _

end Sys2Proof.Machine
end

