-- ==== Sys2Proof/Laws/Codec.lean ====
section
/-! SUPPORT. Laws of the text codecs, the token format and the OTP scan: the lengths of their results, and what the checks say
(42_token_codec.md R600 to R611, 43_otp.md R700 to R702, R740). -/

namespace Sys2Proof.Machine

/-- B64E of n bytes has 4·ceil(n/3) characters (42_token_codec.md R601). -/
theorem length_b64Encode (b : Bytes) : (b64Encode b).length = b64Length b.length := by
  induction b using b64Encode.induct with
  | case1 a b c rest ih =>
    simp only [b64Encode, List.length_cons, ih, b64Length]
    omega
  | case2 => simp [b64Encode, b64Length]
  | case3 => simp [b64Encode, b64Length]
  | case4 => simp [b64Encode, b64Length]

theorem length_b64Group_le {last : Bool} {q0 q1 q2 q3 : Byte} {g : Bytes} (h : b64Group last q0 q1 q2 q3 = some g) :
    g.length ≤ 3 := by
  simp only [b64Group] at h
  repeat' split at h
  all_goals first
    | cases h; done
    | (cases h; simp)

theorem length_b64Groups_le : ∀ {s out : Bytes}, b64Groups s = some out → out.length ≤ s.length
  | [], out, h => by cases h; simp
  | q0 :: q1 :: q2 :: q3 :: rest, out, h => by
    rw [b64Groups] at h
    split at h
    · rename_i g o hg ho
      cases h
      have h1 := length_b64Group_le hg
      have h2 := length_b64Groups_le ho
      simp only [List.length_append, List.length_cons]
      omega
    · cases h
  | [_], _, h => by simp [b64Groups] at h
  | [_, _], _, h => by simp [b64Groups] at h
  | [_, _, _], _, h => by simp [b64Groups] at h

/-- Decoded base64url text is no longer than the text (42_token_codec.md R602). -/
theorem length_b64Decode_le {s out : Bytes} (h : b64Decode s = some out) : out.length ≤ s.length := by
  simp only [b64Decode] at h
  split at h
  · cases h
  · exact length_b64Groups_le h

/-- The raw token of an operand is no longer than the operand (42_token_codec.md R640). -/
theorem length_decodeToken_le {raw : Bool} {s out : Bytes} (h : decodeToken raw s = some out) : out.length ≤ s.length := by
  cases raw
  · exact length_b64Decode_le h
  · cases h
    exact Nat.le_refl _

/-- Loaded key material is 32 bytes long (42_token_codec.md R606). -/
theorem length_keyDecode {raw : Bool} {s m : Bytes} (h : keyDecode raw s = some m) : m.length = 32 := by
  simp only [keyDecode] at h
  split at h
  · split at h
    · cases h
    · cases h
      omega
  · cases h

/-- N = 73 + 16·(n div 16) for a plaintext of n bytes and a 16-byte iv (42_token_codec.md R611). -/
theorem length_rawToken (sk ek : Bytes) {iv : Bytes} (hiv : iv.length = 16) (time : Nat) (p : Bytes) :
    (rawToken sk ek iv time p).length = rawTokenLength p.length := by
  simp only [rawToken, tokenBody, List.length_append, length_hmac, length_be64, length_cbcEncrypt, hiv, List.length_cons,
    List.length_nil, HashAlg.digestLength, rawTokenLength]
  omega

/-- The text or raw form of n bytes (30_encoding.md R303). -/
theorem length_formatOut (raw : Bool) (b : Bytes) :
    (formatOut raw b).length = if raw then b.length else b64Length b.length := by
  cases raw
  · exact length_b64Encode b
  · rfl

theorem length_token (raw : Bool) (sk ek : Bytes) {iv : Bytes} (hiv : iv.length = 16) (time : Nat) (p : Bytes) :
    (formatOut raw (rawToken sk ek iv time p)).length = tokenLength raw p.length := by
  rw [length_formatOut, length_rawToken _ _ hiv]
  rfl

/-- An opened token is shorter than the token (42_token_codec.md R640). -/
theorem length_openToken_le {sk ek : Bytes} {now : Nat} {ttl : Option Nat} {t r : Bytes}
    (h : openToken sk ek now ttl t = some r) : r.length ≤ t.length := by
  simp only [openToken] at h
  repeat' split at h
  all_goals first
    | cases h; done
    | (cases h
       rename_i hr
       have h1 := length_cbcDecrypt_le hr
       rw [length_slice] at h1
       omega)

/-- The alphabet of base64url and its values undo each other (42_token_codec.md R600). -/
theorem b64Val_b64Char : ∀ v < 64, b64Val (b64Char v) = some v ∧ b64Char v ≠ padChar := by decide

theorem b64Char_of_b64Val : ∀ (c : Byte) (v : Nat), b64Val c = some v → v < 64 ∧ b64Char v = c := by
  have h : ∀ c : Byte, ∀ v ∈ b64Val c, v < 64 ∧ b64Char v = c := by decide +kernel
  exact fun c v hv => h c v hv

/-- The alphabet of base32 and its values undo each other, and it has no lower-case letter (43_otp.md R700, R702). -/
theorem b32Val_b32Char : ∀ v < 32, b32Val (b32Char v) = some v ∧ b32Char v ≠ padChar ∧ upperCase (b32Char v) = b32Char v := by
  decide

/-- B32E_NOPAD of n bytes has ceil(8n/5) characters (43_otp.md R701). -/
theorem length_b32EncodeNoPad (b : Bytes) : (b32EncodeNoPad b).length = (8 * b.length + 4) / 5 := by
  have hgroup : ∀ g : Bytes, (b32EncodeGroup g).length = (8 * g.length + 4) / 5 := fun g => by simp [b32EncodeGroup]
  have key : ∀ (n : Nat) (b : Bytes), b.length ≤ 5 * n → (b32EncodeNoPad b).length = (8 * b.length + 4) / 5 := by
    intro n
    induction n with
    | zero =>
      intro b hb
      have hb : b = [] := List.length_eq_zero_iff.1 (by omega)
      subst hb
      simp [b32EncodeNoPad]
    | succ n ih =>
      intro b hb
      rcases Nat.lt_or_ge b.length 5 with h | h
      · rcases Nat.eq_zero_or_pos b.length with h0 | h0
        · have hb : b = [] := List.length_eq_zero_iff.1 h0
          subst hb
          simp [b32EncodeNoPad]
        · rw [b32EncodeNoPad, groupsOf_of_le (List.length_pos_iff.1 h0) (by omega)]
          simp [hgroup]
      · have hlen : (b.take 5).length = 5 := by rw [List.length_take]; omega
        have hdrop : (b.drop 5).length = b.length - 5 := List.length_drop
        have hrest := ih (b.drop 5) (by omega)
        rw [b32EncodeNoPad] at hrest
        rw [b32EncodeNoPad, ← List.take_append_drop 5 b, groupsOf_append (by decide) hlen, List.flatMap_cons,
          List.length_append, List.length_append, hgroup, hlen, hrest, hdrop]
        omega
  exact key b.length b (by omega)

/-- CT_EQ on 32-byte strings is equality (41_mac.md R522). -/
theorem ctEq_iff {a b : Bytes} (ha : a.length = 32) (hb : b.length = 32) : ctEq a b = true ↔ a = b := by
  unfold ctEq
  rw [List.all_eq_true]
  constructor
  · intro h
    refine List.ext_getElem (by omega) fun i h1 h2 => ?_
    simpa [List.getD_eq_getElem?_getD, h1, h2] using h i (List.mem_range.2 (by omega))
  · rintro rfl i _
    simp

/-- KeyDecode's result (42_token_codec.md R606). -/
theorem keyDecode_eq_some_iff {raw : Bool} {s m : Bytes} :
    keyDecode raw s = some m ↔ (if raw then some s else b64Decode s) = some m ∧ m.length = 32 := by
  unfold keyDecode
  dsimp only
  cases (if raw then some s else b64Decode s) with
  | none => simp
  | some k =>
    dsimp only
    by_cases h : k.length = 32
    · rw [if_neg (not_not.2 h), Option.some.injEq]
      exact ⟨fun e => ⟨e, e ▸ h⟩, fun e => e.1⟩
    · rw [if_pos h, Option.some.injEq]
      exact ⟨nofun, fun e => absurd (e.1 ▸ e.2) h⟩

/-- What the scan of OTP_VERIFY finds (43_otp.md R740). -/
theorem verifyScan_iff {secret code : Bytes} {tm w digits : Nat} {h : HashAlg} (hw : w ≤ tm) :
    verifyScan secret code tm w digits h = true ↔
      ∃ k, tm - w ≤ k ∧ k ≤ tm + w ∧ hotp secret k digits h = code := by
  unfold verifyScan
  rw [List.any_eq_true]
  constructor
  · rintro ⟨j, hj, h⟩
    have := List.mem_range.1 hj
    exact ⟨tm - w + j, by omega, by omega, by simpa using h⟩
  · rintro ⟨k, hk1, hk2, h⟩
    refine ⟨k - (tm - w), List.mem_range.2 (by omega), ?_⟩
    rw [show tm - w + (k - (tm - w)) = k by omega]
    simpa using h

end Sys2Proof.Machine
end

