-- ==== Sys2Proof/Laws/Memory.lean ====
section
/-! SUPPORT. The laws of the buffers: every operation keeps the canonical form, a read after a write, a byte string laid out. -/

namespace Sys2Proof.Machine

theorem Memory.wf_zeros : Memory.wf Memory.zeros := ⟨List.Pairwise.nil, fun _ hc => absurd hc List.not_mem_nil⟩

@[simp] theorem Memory.read_nil (a : Nat) : Memory.read [] a = 0 := rfl

@[simp] theorem Memory.read_zeros (a : Nat) : Memory.zeros.read a = 0 := rfl

theorem Memory.wf_cons {k : Nat} {v : Byte} {m : Memory} :
    Memory.wf ((k, v) :: m) ↔ v ≠ 0 ∧ (∀ c ∈ m, k < c.1) ∧ Memory.wf m := by
  constructor
  · intro ⟨hp, hv⟩
    rw [List.pairwise_cons] at hp
    exact ⟨hv _ (List.mem_cons_self ..), hp.1, hp.2, fun c hc => hv c (List.mem_cons_of_mem _ hc)⟩
  · intro ⟨hv, hk, hp, hm⟩
    refine ⟨List.pairwise_cons.2 ⟨hk, hp⟩, fun c hc => ?_⟩
    rcases List.mem_cons.1 hc with rfl | hc
    · exact hv
    · exact hm c hc

/-- An index that is not listed reads 0. -/
theorem Memory.read_of_not_mem {m : Memory} {a : Nat} (h : ∀ c ∈ m, c.1 ≠ a) : m.read a = 0 := by
  induction m with
  | nil => rfl
  | cons c rest ih =>
    obtain ⟨k, v⟩ := c
    have hk : k ≠ a := h (k, v) (List.mem_cons_self ..)
    simp only [Memory.read, if_neg hk]
    exact ih fun c hc => h c (List.mem_cons_of_mem _ hc)

/-- An index at or beyond the bound reads 0. -/
theorem Memory.read_of_below {m : Memory} {n a : Nat} (h : m.Below n) (ha : n ≤ a) : m.read a = 0 :=
  Memory.read_of_not_mem fun c hc => by have := h c hc; omega

theorem Memory.mem_write {m : Memory} {a : Nat} {b : Byte} {c : Host.Cell} (hc : c ∈ m.write a b) :
    c ∈ m ∨ c.1 = a := by
  induction m with
  | nil =>
    simp only [Memory.write] at hc
    split at hc
    · simp at hc
    · simp only [List.mem_singleton] at hc
      exact .inr (by rw [hc])
  | cons d rest ih =>
    obtain ⟨k, v⟩ := d
    simp only [Memory.write] at hc
    split at hc
    · split at hc
      · exact .inl hc
      · rcases List.mem_cons.1 hc with rfl | hc
        · exact .inr rfl
        · exact .inl hc
    · split at hc
      · split at hc
        · exact .inl (List.mem_cons_of_mem _ hc)
        · rcases List.mem_cons.1 hc with rfl | hc
          · exact .inr rfl
          · exact .inl (List.mem_cons_of_mem _ hc)
      · rcases List.mem_cons.1 hc with rfl | hc
        · exact .inl (List.mem_cons_self ..)
        · exact (ih hc).imp_left (List.mem_cons_of_mem _)

theorem Memory.below_write {m : Memory} {n a : Nat} {b : Byte} (h : m.Below n) (ha : a < n) : (m.write a b).Below n := by
  intro c hc
  rcases Memory.mem_write hc with hc | hc
  · exact h c hc
  · omega

/-- A write keeps the canonical form. -/
theorem Memory.wf_write {m : Memory} {a : Nat} {b : Byte} (h : m.wf) : (m.write a b).wf := by
  induction m with
  | nil =>
    simp only [Memory.write]
    split
    · exact h
    · exact Memory.wf_cons.2 ⟨‹_›, by simp, h⟩
  | cons d rest ih =>
    obtain ⟨k, v⟩ := d
    obtain ⟨hv, hk, hr⟩ := Memory.wf_cons.1 h
    simp only [Memory.write]
    split
    · split
      · exact h
      · refine Memory.wf_cons.2 ⟨‹_›, fun c hc => ?_, h⟩
        rcases List.mem_cons.1 hc with rfl | hc
        · assumption
        · have := hk c hc
          omega
    · split
      · split
        · exact hr
        · exact Memory.wf_cons.2 ⟨‹_›, fun c hc => by have := hk c hc; omega, hr⟩
      · refine Memory.wf_cons.2 ⟨hv, fun c hc => ?_, ih hr⟩
        rcases Memory.mem_write hc with hc | hc
        · exact hk c hc
        · omega

/-- A read after a write: the byte written at its index, every other byte as before. -/
theorem Memory.read_write {m : Memory} (h : m.wf) (a : Nat) (b : Byte) (x : Nat) :
    (m.write a b).read x = if x = a then b else m.read x := by
  induction m with
  | nil =>
    simp only [Memory.write]
    split
    · simp_all
    · simp only [Memory.read, eq_comm]
  | cons d rest ih =>
    obtain ⟨k, v⟩ := d
    obtain ⟨_, hk, hr⟩ := Memory.wf_cons.1 h
    simp only [Memory.write]
    split
    · split
      · split
        · subst_vars
          rename_i hlt
          refine Memory.read_of_not_mem fun c hc => ?_
          rcases List.mem_cons.1 hc with rfl | hc
          · exact Nat.ne_of_gt hlt
          · have := hk c hc
            omega
        · rfl
      · simp only [Memory.read, eq_comm]
    · split
      · subst_vars
        split
        · subst_vars
          by_cases hx : x = k
          · subst hx
            rw [if_pos rfl]
            exact Memory.read_of_not_mem fun c hc => by have := hk c hc; omega
          · simp only [Memory.read, if_neg hx, if_neg (Ne.symm hx)]
        · by_cases hx : x = k
          · simp [Memory.read, hx]
          · simp only [Memory.read, if_neg hx, if_neg (Ne.symm hx)]
      · simp only [Memory.read]
        rw [ih hr]
        by_cases hx : k = x
        · subst hx
          simp only [if_true]
          rw [if_neg (Ne.symm ‹_›)]
        · simp only [if_neg hx]

theorem Memory.below_writeWord {m : Memory} {n a : Nat} {v : Word} (h : m.Below n) (ha : a + 3 < n) :
    (m.writeWord a v).Below n := by
  unfold Memory.writeWord
  exact below_write (below_write (below_write (below_write h (by omega)) (by omega)) (by omega)) ha

theorem Memory.wf_writeWord {m : Memory} {a : Nat} {v : Word} (h : m.wf) : (m.writeWord a v).wf :=
  wf_write (wf_write (wf_write (wf_write h)))

/-- The lanes of a word read from four bytes (20_memory.md R210, R220). -/
theorem toNat_ofLanes (b0 b1 b2 b3 : Byte) :
    (ofLanes b0 b1 b2 b3).toNat = b0.toNat + b1.toNat * 2 ^ 8 + b2.toNat * 2 ^ 16 + b3.toNat * 2 ^ 24 := by
  have h0 := b0.isLt
  have h1 := b1.isLt
  have h2 := b2.isLt
  have h3 := b3.isLt
  rw [ofLanes, BitVec.toNat_ofNat, Nat.mod_eq_of_lt (by omega)]

/-- A word put together from its own lanes. -/
theorem ofLanes_extractLsb' (v : Word) :
    ofLanes (v.extractLsb' 0 8) (v.extractLsb' 8 8) (v.extractLsb' 16 8) (v.extractLsb' 24 8) = v := by
  refine BitVec.eq_of_toNat_eq ?_
  have h := v.isLt
  rw [toNat_ofLanes]
  simp only [BitVec.extractLsb'_toNat, Nat.shiftRight_eq_div_pow]
  omega

/-- Which byte of the word each byte of the buffer holds after a word is stored. -/
theorem Memory.read_writeWord {m : Memory} (h : m.wf) (a : Nat) (v : Word) (x : Nat) :
    (m.writeWord a v).read x =
      if x = a + 3 then v.extractLsb' 24 8 else if x = a + 2 then v.extractLsb' 16 8
      else if x = a + 1 then v.extractLsb' 8 8 else if x = a then v.extractLsb' 0 8 else m.read x := by
  unfold Memory.writeWord
  rw [read_write (wf_write (wf_write (wf_write h))), read_write (wf_write (wf_write h)), read_write (wf_write h),
    read_write h]

theorem Memory.ofBytesFrom_bounds {k : Nat} {s : Bytes} : ∀ c ∈ Memory.ofBytesFrom k s, k ≤ c.1 ∧ c.1 < k + s.length := by
  induction s generalizing k with
  | nil => simp [Memory.ofBytesFrom]
  | cons b rest ih =>
    intro c hc
    simp only [Memory.ofBytesFrom] at hc
    split at hc
    · have := ih c hc
      simp only [List.length_cons]
      omega
    · rcases List.mem_cons.1 hc with rfl | hc
      · simp
      · have := ih c hc
        simp only [List.length_cons]
        omega

theorem Memory.wf_ofBytesFrom {k : Nat} {s : Bytes} : (Memory.ofBytesFrom k s).wf := by
  induction s generalizing k with
  | nil => exact Memory.wf_zeros
  | cons b rest ih =>
    simp only [Memory.ofBytesFrom]
    split
    · exact ih
    · exact Memory.wf_cons.2 ⟨‹_›, fun c hc => (Memory.ofBytesFrom_bounds c hc).1, ih⟩

/-- A word stored and read back (20_memory.md R210, R211). -/
theorem Memory.readWord_writeWord {m : Memory} (h : m.wf) (a : Nat) (v : Word) : (m.writeWord a v).readWord a = v := by
  simp [Memory.readWord, Memory.read_writeWord h, ofLanes_extractLsb']

/-- A byte string laid out from index 0 is in canonical form. -/
theorem Memory.wf_ofBytes {s : Bytes} : (Memory.ofBytes s).wf := Memory.wf_ofBytesFrom

theorem Memory.below_ofBytes {s : Bytes} : (Memory.ofBytes s).Below s.length := fun c hc => by
  have := Memory.ofBytesFrom_bounds c hc
  omega

theorem Memory.read_ofBytesFrom {k : Nat} {s : Bytes} (a : Nat) :
    (Memory.ofBytesFrom k s).read a = if a < k then 0 else s.getD (a - k) 0 := by
  induction s generalizing k with
  | nil => simp [Memory.ofBytesFrom]
  | cons b rest ih =>
    have hrest : (Memory.ofBytesFrom (k + 1) rest).read a = if a < k + 1 then 0 else rest.getD (a - (k + 1)) 0 := ih
    simp only [Memory.ofBytesFrom]
    rcases Nat.lt_trichotomy a k with h | h | h
    · have h1 : a < k + 1 := by omega
      split
      · simp [hrest, h1]
      · simp only [Memory.read]
        rw [if_neg (by omega), hrest]
        simp [h1]
    · subst h
      split
      · subst_vars
        rw [hrest, if_pos (by omega), if_neg (by omega)]
        simp
      · simp [Memory.read]
    · obtain ⟨n, rfl⟩ : ∃ n, a = k + 1 + n := ⟨a - (k + 1), by omega⟩
      have e1 : k + 1 + n - (k + 1) = n := by omega
      have e2 : k + 1 + n - k = n + 1 := by omega
      split
      · rw [hrest, if_neg (by omega), if_neg (by omega), e1, e2, List.getD_cons_succ]
      · simp only [Memory.read]
        rw [if_neg (by omega), hrest, if_neg (by omega), if_neg (by omega), e1, e2, List.getD_cons_succ]

/-- A byte string laid out from index 0: its bytes, then zeros. -/
theorem Memory.read_ofBytes (s : Bytes) (a : Nat) : (Memory.ofBytes s).read a = s.getD a 0 := by
  unfold Memory.ofBytes
  rw [Memory.read_ofBytesFrom, if_neg (by omega), Nat.sub_zero]

@[simp] theorem Memory.ofBytes_nil : Memory.ofBytes [] = Memory.zeros := rfl

/-- Two buffers in canonical form that read alike are equal data. -/
theorem Memory.ext_of_wf {m m' : Memory} (h : m.wf) (h' : m'.wf) (hr : ∀ a, m.read a = m'.read a) : m = m' := by
  induction m generalizing m' with
  | nil =>
    cases m' with
    | nil => rfl
    | cons d r =>
      obtain ⟨k, v⟩ := d
      have := hr k
      simp only [Memory.read, if_true] at this
      exact absurd this.symm (Memory.wf_cons.1 h').1
  | cons c rest ih =>
    obtain ⟨k, v⟩ := c
    obtain ⟨hv, hk, hw⟩ := Memory.wf_cons.1 h
    cases m' with
    | nil =>
      have := hr k
      simp only [Memory.read, if_true] at this
      exact absurd this hv
    | cons d r =>
      obtain ⟨k', v'⟩ := d
      obtain ⟨hv', hk', hw'⟩ := Memory.wf_cons.1 h'
      have hkk : k = k' := by
        rcases Nat.lt_trichotomy k k' with hlt | heq | hgt
        · have := hr k
          simp only [Memory.read, if_true] at this
          rw [if_neg (by omega), Memory.read_of_not_mem fun c hc => by have := hk' c hc; omega] at this
          exact absurd this hv
        · exact heq
        · have := hr k'
          simp only [Memory.read, if_true] at this
          rw [if_neg (by omega), Memory.read_of_not_mem fun c hc => by have := hk c hc; omega] at this
          exact absurd this.symm hv'
      subst hkk
      have hvv : v = v' := by simpa [Memory.read] using hr k
      subst hvv
      congr 1
      refine ih hw hw' fun a => ?_
      by_cases ha : k = a
      · subst ha
        rw [Memory.read_of_not_mem fun c hc => by have := hk c hc; omega,
          Memory.read_of_not_mem fun c hc => by have := hk' c hc; omega]
      · simpa [Memory.read, ha] using hr a

@[simp] theorem Memory.length_readBytes (m : Memory) (i j : Nat) : (m.readBytes i j).length = j - i := by
  simp [Memory.readBytes]

theorem Memory.getD_readBytes (m : Memory) {i j k : Nat} (h : k < j - i) : (m.readBytes i j).getD k 0 = m.read (i + k) := by
  simp [Memory.readBytes, h]

/-- Buffers that read alike give the same byte strings. -/
theorem Memory.readBytes_congr {m m' : Memory} {i j : Nat} (h : ∀ a, i ≤ a → a < j → m.read a = m'.read a) :
    m.readBytes i j = m'.readBytes i j := by
  unfold Memory.readBytes
  refine List.map_congr_left fun k hk => h _ (by omega) ?_
  have := List.mem_range.1 hk
  omega

/-- A byte string laid out and read back. -/
theorem Memory.readBytes_ofBytes (s : Bytes) : (Memory.ofBytes s).readBytes 0 s.length = s := by
  refine List.ext_getElem (by simp) fun k h1 h2 => ?_
  simp only [Memory.readBytes, List.getElem_map, List.getElem_range, Memory.read_ofBytes, Nat.zero_add]
  simp [List.getD_eq_getElem?_getD, h2]

end Sys2Proof.Machine
end

