-- ==== Sys2Proof/Laws/State.lean ====
section
/-! SUPPORT. One lemma per field per update of the state, true by rfl. -/

namespace Sys2Proof.Machine

variable (s : State)

@[simp] theorem State.raiseError_eq (c : ErrCode) : s.raiseError c = s.complete c [] false := rfl
@[simp] theorem State.finish_eq (out : Bytes) : s.finish out = s.complete .ok out false := rfl
@[simp] theorem State.finishMatch_eq (m : Bool) : s.finishMatch m = s.complete .ok [] m := rfl

/-! `State.start` -/

@[simp] theorem State.start_seq (w : Word) : (s.start w).seq = .busy w := rfl
@[simp] theorem State.start_entropy (w : Word) : (s.start w).entropy = .idle := rfl
@[simp] theorem State.start_irqEn (w : Word) : (s.start w).irqEn = s.irqEn := rfl
@[simp] theorem State.start_done (w : Word) : (s.start w).done = false := rfl
@[simp] theorem State.start_overrun (w : Word) : (s.start w).overrun = s.overrun := rfl
@[simp] theorem State.start_errCode (w : Word) : (s.start w).errCode = .ok := rfl
@[simp] theorem State.start_inLen (w : Word) : (s.start w).inLen = s.inLen := rfl
@[simp] theorem State.start_auxLen (w : Word) : (s.start w).auxLen = s.auxLen := rfl
@[simp] theorem State.start_outLen (w : Word) : (s.start w).outLen = 0 := rfl
@[simp] theorem State.start_matched (w : Word) : (s.start w).matched = false := rfl
@[simp] theorem State.start_timeLo (w : Word) : (s.start w).timeLo = s.timeLo := rfl
@[simp] theorem State.start_timeHi (w : Word) : (s.start w).timeHi = s.timeHi := rfl
@[simp] theorem State.start_ttlLo (w : Word) : (s.start w).ttlLo = s.ttlLo := rfl
@[simp] theorem State.start_ttlHi (w : Word) : (s.start w).ttlHi = s.ttlHi := rfl
@[simp] theorem State.start_argLo (w : Word) : (s.start w).argLo = s.argLo := rfl
@[simp] theorem State.start_argHi (w : Word) : (s.start w).argHi = s.argHi := rfl
@[simp] theorem State.start_interval (w : Word) : (s.start w).interval = s.interval := rfl
@[simp] theorem State.start_window (w : Word) : (s.start w).window = s.window := rfl
@[simp] theorem State.start_otpCfg (w : Word) : (s.start w).otpCfg = s.otpCfg := rfl
@[simp] theorem State.start_ibuf (w : Word) : (s.start w).ibuf = s.ibuf := rfl
@[simp] theorem State.start_obuf (w : Word) : (s.start w).obuf = Memory.zeros := rfl
@[simp] theorem State.start_keySk (w : Word) : (s.start w).keySk = s.keySk := rfl
@[simp] theorem State.start_keyEk (w : Word) : (s.start w).keyEk = s.keyEk := rfl
@[simp] theorem State.start_keyValid (w : Word) : (s.start w).keyValid = s.keyValid := rfl
@[simp] theorem State.start_secret (w : Word) : (s.start w).secret = s.secret := rfl
@[simp] theorem State.start_secretLen (w : Word) : (s.start w).secretLen = s.secretLen := rfl
@[simp] theorem State.start_secretValid (w : Word) : (s.start w).secretValid = s.secretValid := rfl
@[simp] theorem State.start_cfg (w : Word) : (s.start w).cfg = s.cfg := rfl
@[simp] theorem State.start_inputs (w : Word) : (s.start w).inputs = s.inputs := rfl
@[simp] theorem State.start_rdata (w : Word) : (s.start w).rdata = s.rdata := rfl
@[simp] theorem State.start_rst (w : Word) : (s.start w).rst = s.rst := rfl

/-! `State.complete` -/

@[simp] theorem State.complete_seq (code : ErrCode) (out : Bytes) (m : Bool) : (s.complete code out m).seq = .idle := rfl
@[simp] theorem State.complete_entropy (code : ErrCode) (out : Bytes) (m : Bool) : (s.complete code out m).entropy = .idle := rfl
@[simp] theorem State.complete_irqEn (code : ErrCode) (out : Bytes) (m : Bool) : (s.complete code out m).irqEn = s.irqEn := rfl
@[simp] theorem State.complete_done (code : ErrCode) (out : Bytes) (m : Bool) : (s.complete code out m).done = true := rfl
@[simp] theorem State.complete_overrun (code : ErrCode) (out : Bytes) (m : Bool) : (s.complete code out m).overrun = s.overrun := rfl
@[simp] theorem State.complete_errCode (code : ErrCode) (out : Bytes) (m : Bool) : (s.complete code out m).errCode = code := rfl
@[simp] theorem State.complete_inLen (code : ErrCode) (out : Bytes) (m : Bool) : (s.complete code out m).inLen = s.inLen := rfl
@[simp] theorem State.complete_auxLen (code : ErrCode) (out : Bytes) (m : Bool) : (s.complete code out m).auxLen = s.auxLen := rfl
@[simp] theorem State.complete_outLen (code : ErrCode) (out : Bytes) (m : Bool) : (s.complete code out m).outLen = BitVec.ofNat 32 out.length := rfl
@[simp] theorem State.complete_matched (code : ErrCode) (out : Bytes) (m : Bool) : (s.complete code out m).matched = m := rfl
@[simp] theorem State.complete_timeLo (code : ErrCode) (out : Bytes) (m : Bool) : (s.complete code out m).timeLo = s.timeLo := rfl
@[simp] theorem State.complete_timeHi (code : ErrCode) (out : Bytes) (m : Bool) : (s.complete code out m).timeHi = s.timeHi := rfl
@[simp] theorem State.complete_ttlLo (code : ErrCode) (out : Bytes) (m : Bool) : (s.complete code out m).ttlLo = s.ttlLo := rfl
@[simp] theorem State.complete_ttlHi (code : ErrCode) (out : Bytes) (m : Bool) : (s.complete code out m).ttlHi = s.ttlHi := rfl
@[simp] theorem State.complete_argLo (code : ErrCode) (out : Bytes) (m : Bool) : (s.complete code out m).argLo = s.argLo := rfl
@[simp] theorem State.complete_argHi (code : ErrCode) (out : Bytes) (m : Bool) : (s.complete code out m).argHi = s.argHi := rfl
@[simp] theorem State.complete_interval (code : ErrCode) (out : Bytes) (m : Bool) : (s.complete code out m).interval = s.interval := rfl
@[simp] theorem State.complete_window (code : ErrCode) (out : Bytes) (m : Bool) : (s.complete code out m).window = s.window := rfl
@[simp] theorem State.complete_otpCfg (code : ErrCode) (out : Bytes) (m : Bool) : (s.complete code out m).otpCfg = s.otpCfg := rfl
@[simp] theorem State.complete_ibuf (code : ErrCode) (out : Bytes) (m : Bool) : (s.complete code out m).ibuf = s.ibuf := rfl
@[simp] theorem State.complete_obuf (code : ErrCode) (out : Bytes) (m : Bool) : (s.complete code out m).obuf = Memory.ofBytes out := rfl
@[simp] theorem State.complete_keySk (code : ErrCode) (out : Bytes) (m : Bool) : (s.complete code out m).keySk = s.keySk := rfl
@[simp] theorem State.complete_keyEk (code : ErrCode) (out : Bytes) (m : Bool) : (s.complete code out m).keyEk = s.keyEk := rfl
@[simp] theorem State.complete_keyValid (code : ErrCode) (out : Bytes) (m : Bool) : (s.complete code out m).keyValid = s.keyValid := rfl
@[simp] theorem State.complete_secret (code : ErrCode) (out : Bytes) (m : Bool) : (s.complete code out m).secret = s.secret := rfl
@[simp] theorem State.complete_secretLen (code : ErrCode) (out : Bytes) (m : Bool) : (s.complete code out m).secretLen = s.secretLen := rfl
@[simp] theorem State.complete_secretValid (code : ErrCode) (out : Bytes) (m : Bool) : (s.complete code out m).secretValid = s.secretValid := rfl
@[simp] theorem State.complete_cfg (code : ErrCode) (out : Bytes) (m : Bool) : (s.complete code out m).cfg = s.cfg := rfl
@[simp] theorem State.complete_inputs (code : ErrCode) (out : Bytes) (m : Bool) : (s.complete code out m).inputs = s.inputs := rfl
@[simp] theorem State.complete_rdata (code : ErrCode) (out : Bytes) (m : Bool) : (s.complete code out m).rdata = s.rdata := rfl
@[simp] theorem State.complete_rst (code : ErrCode) (out : Bytes) (m : Bool) : (s.complete code out m).rst = s.rst := rfl

/-! `State.zeroIbuf` -/

@[simp] theorem State.zeroIbuf_seq : (s.zeroIbuf).seq = s.seq := rfl
@[simp] theorem State.zeroIbuf_entropy : (s.zeroIbuf).entropy = s.entropy := rfl
@[simp] theorem State.zeroIbuf_irqEn : (s.zeroIbuf).irqEn = s.irqEn := rfl
@[simp] theorem State.zeroIbuf_done : (s.zeroIbuf).done = s.done := rfl
@[simp] theorem State.zeroIbuf_overrun : (s.zeroIbuf).overrun = s.overrun := rfl
@[simp] theorem State.zeroIbuf_errCode : (s.zeroIbuf).errCode = s.errCode := rfl
@[simp] theorem State.zeroIbuf_inLen : (s.zeroIbuf).inLen = s.inLen := rfl
@[simp] theorem State.zeroIbuf_auxLen : (s.zeroIbuf).auxLen = s.auxLen := rfl
@[simp] theorem State.zeroIbuf_outLen : (s.zeroIbuf).outLen = s.outLen := rfl
@[simp] theorem State.zeroIbuf_matched : (s.zeroIbuf).matched = s.matched := rfl
@[simp] theorem State.zeroIbuf_timeLo : (s.zeroIbuf).timeLo = s.timeLo := rfl
@[simp] theorem State.zeroIbuf_timeHi : (s.zeroIbuf).timeHi = s.timeHi := rfl
@[simp] theorem State.zeroIbuf_ttlLo : (s.zeroIbuf).ttlLo = s.ttlLo := rfl
@[simp] theorem State.zeroIbuf_ttlHi : (s.zeroIbuf).ttlHi = s.ttlHi := rfl
@[simp] theorem State.zeroIbuf_argLo : (s.zeroIbuf).argLo = s.argLo := rfl
@[simp] theorem State.zeroIbuf_argHi : (s.zeroIbuf).argHi = s.argHi := rfl
@[simp] theorem State.zeroIbuf_interval : (s.zeroIbuf).interval = s.interval := rfl
@[simp] theorem State.zeroIbuf_window : (s.zeroIbuf).window = s.window := rfl
@[simp] theorem State.zeroIbuf_otpCfg : (s.zeroIbuf).otpCfg = s.otpCfg := rfl
@[simp] theorem State.zeroIbuf_ibuf : (s.zeroIbuf).ibuf = Memory.zeros := rfl
@[simp] theorem State.zeroIbuf_obuf : (s.zeroIbuf).obuf = s.obuf := rfl
@[simp] theorem State.zeroIbuf_keySk : (s.zeroIbuf).keySk = s.keySk := rfl
@[simp] theorem State.zeroIbuf_keyEk : (s.zeroIbuf).keyEk = s.keyEk := rfl
@[simp] theorem State.zeroIbuf_keyValid : (s.zeroIbuf).keyValid = s.keyValid := rfl
@[simp] theorem State.zeroIbuf_secret : (s.zeroIbuf).secret = s.secret := rfl
@[simp] theorem State.zeroIbuf_secretLen : (s.zeroIbuf).secretLen = s.secretLen := rfl
@[simp] theorem State.zeroIbuf_secretValid : (s.zeroIbuf).secretValid = s.secretValid := rfl
@[simp] theorem State.zeroIbuf_cfg : (s.zeroIbuf).cfg = s.cfg := rfl
@[simp] theorem State.zeroIbuf_inputs : (s.zeroIbuf).inputs = s.inputs := rfl
@[simp] theorem State.zeroIbuf_rdata : (s.zeroIbuf).rdata = s.rdata := rfl
@[simp] theorem State.zeroIbuf_rst : (s.zeroIbuf).rst = s.rst := rfl

/-! `State.loadKey` -/

@[simp] theorem State.loadKey_seq (k : Bytes) : (s.loadKey k).seq = s.seq := rfl
@[simp] theorem State.loadKey_entropy (k : Bytes) : (s.loadKey k).entropy = s.entropy := rfl
@[simp] theorem State.loadKey_irqEn (k : Bytes) : (s.loadKey k).irqEn = s.irqEn := rfl
@[simp] theorem State.loadKey_done (k : Bytes) : (s.loadKey k).done = s.done := rfl
@[simp] theorem State.loadKey_overrun (k : Bytes) : (s.loadKey k).overrun = s.overrun := rfl
@[simp] theorem State.loadKey_errCode (k : Bytes) : (s.loadKey k).errCode = s.errCode := rfl
@[simp] theorem State.loadKey_inLen (k : Bytes) : (s.loadKey k).inLen = s.inLen := rfl
@[simp] theorem State.loadKey_auxLen (k : Bytes) : (s.loadKey k).auxLen = s.auxLen := rfl
@[simp] theorem State.loadKey_outLen (k : Bytes) : (s.loadKey k).outLen = s.outLen := rfl
@[simp] theorem State.loadKey_matched (k : Bytes) : (s.loadKey k).matched = s.matched := rfl
@[simp] theorem State.loadKey_timeLo (k : Bytes) : (s.loadKey k).timeLo = s.timeLo := rfl
@[simp] theorem State.loadKey_timeHi (k : Bytes) : (s.loadKey k).timeHi = s.timeHi := rfl
@[simp] theorem State.loadKey_ttlLo (k : Bytes) : (s.loadKey k).ttlLo = s.ttlLo := rfl
@[simp] theorem State.loadKey_ttlHi (k : Bytes) : (s.loadKey k).ttlHi = s.ttlHi := rfl
@[simp] theorem State.loadKey_argLo (k : Bytes) : (s.loadKey k).argLo = s.argLo := rfl
@[simp] theorem State.loadKey_argHi (k : Bytes) : (s.loadKey k).argHi = s.argHi := rfl
@[simp] theorem State.loadKey_interval (k : Bytes) : (s.loadKey k).interval = s.interval := rfl
@[simp] theorem State.loadKey_window (k : Bytes) : (s.loadKey k).window = s.window := rfl
@[simp] theorem State.loadKey_otpCfg (k : Bytes) : (s.loadKey k).otpCfg = s.otpCfg := rfl
@[simp] theorem State.loadKey_ibuf (k : Bytes) : (s.loadKey k).ibuf = s.ibuf := rfl
@[simp] theorem State.loadKey_obuf (k : Bytes) : (s.loadKey k).obuf = s.obuf := rfl
@[simp] theorem State.loadKey_keySk (k : Bytes) : (s.loadKey k).keySk = slice k 0 16 := rfl
@[simp] theorem State.loadKey_keyEk (k : Bytes) : (s.loadKey k).keyEk = slice k 16 32 := rfl
@[simp] theorem State.loadKey_keyValid (k : Bytes) : (s.loadKey k).keyValid = true := rfl
@[simp] theorem State.loadKey_secret (k : Bytes) : (s.loadKey k).secret = s.secret := rfl
@[simp] theorem State.loadKey_secretLen (k : Bytes) : (s.loadKey k).secretLen = s.secretLen := rfl
@[simp] theorem State.loadKey_secretValid (k : Bytes) : (s.loadKey k).secretValid = s.secretValid := rfl
@[simp] theorem State.loadKey_cfg (k : Bytes) : (s.loadKey k).cfg = s.cfg := rfl
@[simp] theorem State.loadKey_inputs (k : Bytes) : (s.loadKey k).inputs = s.inputs := rfl
@[simp] theorem State.loadKey_rdata (k : Bytes) : (s.loadKey k).rdata = s.rdata := rfl
@[simp] theorem State.loadKey_rst (k : Bytes) : (s.loadKey k).rst = s.rst := rfl

/-! `State.loadSecret` -/

@[simp] theorem State.loadSecret_seq (b : Bytes) : (s.loadSecret b).seq = s.seq := rfl
@[simp] theorem State.loadSecret_entropy (b : Bytes) : (s.loadSecret b).entropy = s.entropy := rfl
@[simp] theorem State.loadSecret_irqEn (b : Bytes) : (s.loadSecret b).irqEn = s.irqEn := rfl
@[simp] theorem State.loadSecret_done (b : Bytes) : (s.loadSecret b).done = s.done := rfl
@[simp] theorem State.loadSecret_overrun (b : Bytes) : (s.loadSecret b).overrun = s.overrun := rfl
@[simp] theorem State.loadSecret_errCode (b : Bytes) : (s.loadSecret b).errCode = s.errCode := rfl
@[simp] theorem State.loadSecret_inLen (b : Bytes) : (s.loadSecret b).inLen = s.inLen := rfl
@[simp] theorem State.loadSecret_auxLen (b : Bytes) : (s.loadSecret b).auxLen = s.auxLen := rfl
@[simp] theorem State.loadSecret_outLen (b : Bytes) : (s.loadSecret b).outLen = s.outLen := rfl
@[simp] theorem State.loadSecret_matched (b : Bytes) : (s.loadSecret b).matched = s.matched := rfl
@[simp] theorem State.loadSecret_timeLo (b : Bytes) : (s.loadSecret b).timeLo = s.timeLo := rfl
@[simp] theorem State.loadSecret_timeHi (b : Bytes) : (s.loadSecret b).timeHi = s.timeHi := rfl
@[simp] theorem State.loadSecret_ttlLo (b : Bytes) : (s.loadSecret b).ttlLo = s.ttlLo := rfl
@[simp] theorem State.loadSecret_ttlHi (b : Bytes) : (s.loadSecret b).ttlHi = s.ttlHi := rfl
@[simp] theorem State.loadSecret_argLo (b : Bytes) : (s.loadSecret b).argLo = s.argLo := rfl
@[simp] theorem State.loadSecret_argHi (b : Bytes) : (s.loadSecret b).argHi = s.argHi := rfl
@[simp] theorem State.loadSecret_interval (b : Bytes) : (s.loadSecret b).interval = s.interval := rfl
@[simp] theorem State.loadSecret_window (b : Bytes) : (s.loadSecret b).window = s.window := rfl
@[simp] theorem State.loadSecret_otpCfg (b : Bytes) : (s.loadSecret b).otpCfg = s.otpCfg := rfl
@[simp] theorem State.loadSecret_ibuf (b : Bytes) : (s.loadSecret b).ibuf = s.ibuf := rfl
@[simp] theorem State.loadSecret_obuf (b : Bytes) : (s.loadSecret b).obuf = s.obuf := rfl
@[simp] theorem State.loadSecret_keySk (b : Bytes) : (s.loadSecret b).keySk = s.keySk := rfl
@[simp] theorem State.loadSecret_keyEk (b : Bytes) : (s.loadSecret b).keyEk = s.keyEk := rfl
@[simp] theorem State.loadSecret_keyValid (b : Bytes) : (s.loadSecret b).keyValid = s.keyValid := rfl
@[simp] theorem State.loadSecret_secret (b : Bytes) : (s.loadSecret b).secret = b ++ bytesOf (s.cfg.secretMax - b.length) 0 := rfl
@[simp] theorem State.loadSecret_secretLen (b : Bytes) : (s.loadSecret b).secretLen = b.length := rfl
@[simp] theorem State.loadSecret_secretValid (b : Bytes) : (s.loadSecret b).secretValid = true := rfl
@[simp] theorem State.loadSecret_cfg (b : Bytes) : (s.loadSecret b).cfg = s.cfg := rfl
@[simp] theorem State.loadSecret_inputs (b : Bytes) : (s.loadSecret b).inputs = s.inputs := rfl
@[simp] theorem State.loadSecret_rdata (b : Bytes) : (s.loadSecret b).rdata = s.rdata := rfl
@[simp] theorem State.loadSecret_rst (b : Bytes) : (s.loadSecret b).rst = s.rst := rfl

/-! `State.clearStores` -/

@[simp] theorem State.clearStores_seq : (s.clearStores).seq = s.seq := rfl
@[simp] theorem State.clearStores_entropy : (s.clearStores).entropy = s.entropy := rfl
@[simp] theorem State.clearStores_irqEn : (s.clearStores).irqEn = s.irqEn := rfl
@[simp] theorem State.clearStores_done : (s.clearStores).done = s.done := rfl
@[simp] theorem State.clearStores_overrun : (s.clearStores).overrun = s.overrun := rfl
@[simp] theorem State.clearStores_errCode : (s.clearStores).errCode = s.errCode := rfl
@[simp] theorem State.clearStores_inLen : (s.clearStores).inLen = s.inLen := rfl
@[simp] theorem State.clearStores_auxLen : (s.clearStores).auxLen = s.auxLen := rfl
@[simp] theorem State.clearStores_outLen : (s.clearStores).outLen = s.outLen := rfl
@[simp] theorem State.clearStores_matched : (s.clearStores).matched = s.matched := rfl
@[simp] theorem State.clearStores_timeLo : (s.clearStores).timeLo = s.timeLo := rfl
@[simp] theorem State.clearStores_timeHi : (s.clearStores).timeHi = s.timeHi := rfl
@[simp] theorem State.clearStores_ttlLo : (s.clearStores).ttlLo = s.ttlLo := rfl
@[simp] theorem State.clearStores_ttlHi : (s.clearStores).ttlHi = s.ttlHi := rfl
@[simp] theorem State.clearStores_argLo : (s.clearStores).argLo = s.argLo := rfl
@[simp] theorem State.clearStores_argHi : (s.clearStores).argHi = s.argHi := rfl
@[simp] theorem State.clearStores_interval : (s.clearStores).interval = s.interval := rfl
@[simp] theorem State.clearStores_window : (s.clearStores).window = s.window := rfl
@[simp] theorem State.clearStores_otpCfg : (s.clearStores).otpCfg = s.otpCfg := rfl
@[simp] theorem State.clearStores_ibuf : (s.clearStores).ibuf = s.ibuf := rfl
@[simp] theorem State.clearStores_obuf : (s.clearStores).obuf = s.obuf := rfl
@[simp] theorem State.clearStores_keySk : (s.clearStores).keySk = bytesOf 16 0 := rfl
@[simp] theorem State.clearStores_keyEk : (s.clearStores).keyEk = bytesOf 16 0 := rfl
@[simp] theorem State.clearStores_keyValid : (s.clearStores).keyValid = false := rfl
@[simp] theorem State.clearStores_secret : (s.clearStores).secret = bytesOf s.cfg.secretMax 0 := rfl
@[simp] theorem State.clearStores_secretLen : (s.clearStores).secretLen = 0 := rfl
@[simp] theorem State.clearStores_secretValid : (s.clearStores).secretValid = false := rfl
@[simp] theorem State.clearStores_cfg : (s.clearStores).cfg = s.cfg := rfl
@[simp] theorem State.clearStores_inputs : (s.clearStores).inputs = s.inputs := rfl
@[simp] theorem State.clearStores_rdata : (s.clearStores).rdata = s.rdata := rfl
@[simp] theorem State.clearStores_rst : (s.clearStores).rst = s.rst := rfl

/-! `State.toReset` -/

@[simp] theorem State.toReset_seq : s.toReset.seq = .idle := rfl
@[simp] theorem State.toReset_entropy : s.toReset.entropy = .idle := rfl
@[simp] theorem State.toReset_irqEn : s.toReset.irqEn = false := rfl
@[simp] theorem State.toReset_done : s.toReset.done = false := rfl
@[simp] theorem State.toReset_overrun : s.toReset.overrun = false := rfl
@[simp] theorem State.toReset_errCode : s.toReset.errCode = .ok := rfl
@[simp] theorem State.toReset_inLen : s.toReset.inLen = 0 := rfl
@[simp] theorem State.toReset_auxLen : s.toReset.auxLen = 0 := rfl
@[simp] theorem State.toReset_outLen : s.toReset.outLen = 0 := rfl
@[simp] theorem State.toReset_matched : s.toReset.matched = false := rfl
@[simp] theorem State.toReset_timeLo : s.toReset.timeLo = 0 := rfl
@[simp] theorem State.toReset_timeHi : s.toReset.timeHi = 0 := rfl
@[simp] theorem State.toReset_ttlLo : s.toReset.ttlLo = 0 := rfl
@[simp] theorem State.toReset_ttlHi : s.toReset.ttlHi = 0 := rfl
@[simp] theorem State.toReset_argLo : s.toReset.argLo = 0 := rfl
@[simp] theorem State.toReset_argHi : s.toReset.argHi = 0 := rfl
@[simp] theorem State.toReset_interval : s.toReset.interval = 30 := rfl
@[simp] theorem State.toReset_window : s.toReset.window = 0 := rfl
@[simp] theorem State.toReset_otpCfg : s.toReset.otpCfg = 6 := rfl
@[simp] theorem State.toReset_ibuf : s.toReset.ibuf = [] := rfl
@[simp] theorem State.toReset_obuf : s.toReset.obuf = [] := rfl
@[simp] theorem State.toReset_keySk : s.toReset.keySk = List.replicate 16 0 := rfl
@[simp] theorem State.toReset_keyEk : s.toReset.keyEk = List.replicate 16 0 := rfl
@[simp] theorem State.toReset_keyValid : s.toReset.keyValid = false := rfl
@[simp] theorem State.toReset_secret : s.toReset.secret = List.replicate s.cfg.secretMax 0 := rfl
@[simp] theorem State.toReset_secretLen : s.toReset.secretLen = 0 := rfl
@[simp] theorem State.toReset_secretValid : s.toReset.secretValid = false := rfl
@[simp] theorem State.toReset_cfg : s.toReset.cfg = s.cfg := rfl
@[simp] theorem State.toReset_inputs : s.toReset.inputs = s.inputs := rfl
@[simp] theorem State.toReset_rdata : s.toReset.rdata = s.rdata := rfl
@[simp] theorem State.toReset_rst : s.toReset.rst = s.rst := rfl

end Sys2Proof.Machine
end

