-- ==== Sys2Proof/Laws/Ops.lean ====
section
/-! SUPPORT. One lemma for each shared operation: what a completion leaves, what a draw of entropy can do, and once what any
command can do (70_reset_and_hazards.md R1012, R1020). -/

namespace Sys2Proof.Machine

variable {s t : State}

/-- What a completion leaves (60_exceptions.md R902, R903). -/
theorem completed_complete (s : State) (c : ErrCode) {out : Bytes} (m : Bool) (h : out.length < 2 ^ 32) :
    Completed (s.complete c out m) c out m :=
  ⟨rfl, rfl, rfl, rfl, by simpa using h, rfl, fun a => by simp [Memory.read_ofBytes]⟩

/-- A completion changes no other register and no store. -/
theorem sameRegisters_complete (s : State) (c : ErrCode) (out : Bytes) (m : Bool) : SameRegisters s (s.complete c out m) := by
  constructor <;> rfl

theorem sameKeyStore_complete (s : State) (c : ErrCode) (out : Bytes) (m : Bool) : SameKeyStore s (s.complete c out m) := by
  constructor <;> rfl

theorem sameSecretStore_complete (s : State) (c : ErrCode) (out : Bytes) (m : Bool) :
    SameSecretStore s (s.complete c out m) := by
  constructor <;> rfl

/-- `raise E` leaves the error writes and nothing else (60_exceptions.md R902). -/
theorem fails_raiseError (s : State) (c : ErrCode) : Fails s (s.raiseError c) c :=
  ⟨completed_complete s c false (by simp), sameRegisters_complete .., sameKeyStore_complete ..,
    sameSecretStore_complete .., fun _ => rfl⟩

/-- The same where IBUF is zeroed at completion. -/
theorem failsZeroingIbuf_raiseError (s : State) (c : ErrCode) : FailsZeroingIbuf s (s.raiseError c).zeroIbuf c := by
  refine ⟨⟨rfl, rfl, rfl, rfl, rfl, rfl, fun a => ?_⟩, ?_, ?_, ?_, fun a => ?_⟩
  · simp
  · constructor <;> rfl
  · constructor <;> rfl
  · constructor <;> rfl
  · simp

/-- A command that only outputs leaves its output and nothing else (60_exceptions.md R903). -/
theorem outputs_complete (s : State) {out : Bytes} (m : Bool) (h : out.length < 2 ^ 32) :
    Outputs s (s.complete .ok out m) out m :=
  ⟨completed_complete s .ok m h, sameRegisters_complete .., sameKeyStore_complete .., sameSecretStore_complete ..,
    fun _ => rfl⟩

/-- A draw of entropy: the request, the hold, or the answer (10_state.md R150, 70_reset_and_hazards.md R1031). -/
theorem drawEntropy_cases (s : State) (n : Nat) (k : Bytes → State) :
    (s.entropy = .idle ∧ s.drawEntropy n k = { s with entropy := .waiting n }) ∨
    (∃ m, s.entropy = .waiting m ∧ s.drawEntropy n k = s) ∨
    (∃ b, s.entropy = .answered b ∧ s.drawEntropy n k = k b) := by
  unfold State.drawEntropy
  cases h : s.entropy with
  | idle => exact .inl ⟨rfl, rfl⟩
  | waiting m => exact .inr (.inl ⟨m, rfl, rfl⟩)
  | answered b => exact .inr (.inr ⟨b, rfl, rfl⟩)

/-- The digits a legal OTP_CFG gives: 1 to 10 (43_otp.md R711). -/
theorem digits_le_of_otpConfig {d : Nat} {h : HashAlg} (hd : s.otpConfig = some (d, h)) : 1 ≤ d ∧ d ≤ 10 := by
  unfold State.otpConfig at hd
  split at hd
  · cases hd
  · split at hd
    · cases hd
      omega
    · cases hd

/-- OtpCfg where it is legal and where it is not (43_otp.md R711). -/
theorem otpConfig_of_legal {h : HashAlg} (h1 : 1 ≤ s.digits) (h2 : s.digits ≤ 10) (hh : OtpHash s h) :
    s.otpConfig = some (s.digits, h) := by
  unfold State.otpConfig
  rw [if_neg (by omega)]
  rcases hh with ⟨hs, rfl⟩ | ⟨hs, rfl⟩ <;> rw [hs] <;> rfl

theorem otpConfig_of_illegal (hh : OtpCfgIllegal s) : s.otpConfig = none := by
  unfold State.otpConfig
  by_cases h : s.digits < 1 ∨ 10 < s.digits
  · rw [if_pos h]
  · have hsel : 2 ≤ s.hashSelector.toNat := by rcases hh with h1 | h1 | h1 <;> omega
    rw [if_neg h, hashOfSelector, if_neg (by omega), if_neg (by omega)]

/-- What TOKEN_DECRYPT's checks say of a decoded token (42_token_codec.md R640). -/
theorem openToken_iff (s : State) (ttlEn : Bool) (t r : Bytes) :
    openToken s.keySk s.keyEk s.time (if ttlEn then some s.ttl else none) t = some r ↔ TokenAccepted s ttlEn t r := by
  unfold openToken
  dsimp only
  by_cases h0 : t.length < 73
  · rw [if_pos h0]
    exact ⟨nofun, fun h => absurd h.length (by omega)⟩
  rw [if_neg h0]
  have hct := ctEq_iff (a := hmac .sha256 s.keySk (slice t 0 (t.length - 32)))
    (b := slice t (t.length - 32) t.length) (by simp [HashAlg.digestLength]) (by rw [length_slice]; omega)
  by_cases h1 : hmac .sha256 s.keySk (slice t 0 (t.length - 32)) = slice t (t.length - 32) t.length
  swap
  · rw [if_pos (by simpa [← hct] using h1)]
    exact ⟨nofun, fun h => absurd h.tag h1⟩
  rw [if_neg (by rw [hct.2 h1]; simp)]
  by_cases h2 : t.getD 0 0 = 0x80
  swap
  · rw [if_pos h2]
    exact ⟨nofun, fun h => absurd h.version h2⟩
  rw [if_neg (not_not.2 h2)]
  have htime : tokenTimeOk s.time (if ttlEn then some s.ttl else none) (fromBe (slice t 1 9)) = true ↔
      (ttlEn = true → s.time ≤ fromBe (slice t 1 9) + s.ttl) ∧ fromBe (slice t 1 9) ≤ s.time + 60 := by
    cases ttlEn <;> simp [tokenTimeOk]
  by_cases h3 : tokenTimeOk s.time (if ttlEn then some s.ttl else none) (fromBe (slice t 1 9)) = true
  swap
  · rw [if_pos (by simpa using h3)]
    exact ⟨nofun, fun h => absurd (htime.2 ⟨h.notOld, h.notFuture⟩) h3⟩
  rw [if_neg (by simp [h3])]
  have h3' := htime.1 h3
  by_cases h4 : (slice t 25 (t.length - 32)).length % 16 ≠ 0
  · rw [if_pos h4]
    refine ⟨nofun, fun h => ?_⟩
    have hp := h.plaintext
    unfold cbcDecrypt at hp
    rw [if_pos (.inr h4)] at hp
    cases hp
  · rw [if_neg h4]
    constructor
    · intro h
      refine ⟨by omega, h1, h2, h3'.1, h3'.2, ?_⟩
      split at h
      · cases h
        assumption
      · cases h
    · intro h
      rw [h.plaintext]

theorem obufBytes_ge {c : Config} (h : c.Legal) : 128 ≤ c.obufBytes := by
  obtain ⟨-, -, h1, -, -, h2, -, -, -⟩ := h
  omega

theorem ibufBytes_le_obufBytes {c : Config} (h : c.Legal) : c.ibufBytes ≤ c.obufBytes := h.2.2.2.2.2.1

@[simp] theorem length_primaryInput (s : State) : s.primaryInput.length = s.inLength := by
  simp [State.primaryInput, State.ibufRange]

/-- The entropy a command finds answered has the length it draws (10_state.md R150). -/
abbrev AnswerFits (i : Instr) (s : State) : Prop :=
  ∀ b, s.entropy = .answered b → ∀ n, drawBytes i = some n → b.length = n

/-- Everything the command `i` can do to the state `s`. -/
inductive CommandEffect (i : Instr) (s : State) : State → Prop where
  /-- It asks for entropy (70_reset_and_hazards.md R1012). -/
  | requests (n : Nat) (hd : drawBytes i = some n) (he : s.entropy = .idle) :
    CommandEffect i s { s with entropy := .waiting n }
  /-- It holds for entropy (70_reset_and_hazards.md R1031). -/
  | holds (n m : Nat) (hd : drawBytes i = some n) (he : s.entropy = .waiting m) : CommandEffect i s s
  /-- It fails, with no output (60_exceptions.md R902). -/
  | fails (c : ErrCode) (hc : c ≠ .ok) (hi : ∀ raw, i ≠ .keyLoad raw ∧ i ≠ .secretLoad raw) :
    CommandEffect i s (s.complete c [] false)
  /-- It outputs a byte string, which fits OBUF under legal parameters (60_exceptions.md R903). -/
  | outputs (out : Bytes) (hlen : s.cfg.Legal → AnswerFits i s → out.length ≤ s.cfg.obufBytes) : CommandEffect i s (s.complete .ok out false)
  /-- It sets RESULT.MATCH and outputs nothing (43_otp.md R740). -/
  | matches (m : Bool) (hi : ∃ forTime, i = .otpVerify forTime) : CommandEffect i s (s.complete .ok [] m)
  /-- KEY_LOAD or SECRET_LOAD fails and zeroes IBUF. -/
  | failsLoad (c : ErrCode) (hc : c ≠ .ok) (hi : ∃ raw, i = .keyLoad raw ∨ i = .secretLoad raw) :
    CommandEffect i s (s.complete c [] false).zeroIbuf
  /-- KEY_LOAD loads 32 bytes (42_token_codec.md R620). -/
  | loadsKey (m : Bytes) (hm : m.length = 32) (hv : s.keyValid = false) (hi : ∃ raw, i = .keyLoad raw) :
    CommandEffect i s ((s.loadKey m).complete .ok [] false).zeroIbuf
  /-- SECRET_LOAD loads up to SECRET_MAX_BYTES bytes (43_otp.md R720). -/
  | loadsSecret (b : Bytes) (hb : b.length ≤ s.cfg.secretMax) (hv : s.secretValid = false)
    (hi : ∃ raw, i = .secretLoad raw) : CommandEffect i s ((s.loadSecret b).complete .ok [] false).zeroIbuf
  /-- ZEROIZE clears the stores and IBUF (44_control.md R800). -/
  | zeroizes (hi : i = .zeroize) : CommandEffect i s (s.clearStores.zeroIbuf.complete .ok [] false)

/-- What any command can do: it always goes on to a next state, and only in one of these ways. -/
theorem exec_effect (i : Instr) (s : State) : ∃ t, exec i s = .next t ∧ CommandEffect i s t := by
  cases i with
  | keyLoad raw =>
    refine ⟨_, rfl, ?_⟩
    split
    · exact .failsLoad _ (by decide) ⟨raw, .inl rfl⟩
    · split
      · exact .failsLoad _ (by decide) ⟨raw, .inl rfl⟩
      · split
        · exact .failsLoad _ (by decide) ⟨raw, .inl rfl⟩
        · rename_i hv _ _ m hm
          exact .loadsKey m (length_keyDecode hm) (by simpa using hv) ⟨raw, rfl⟩
  | keyGenerate raw =>
    refine ⟨_, rfl, ?_⟩
    rcases drawEntropy_cases s 32 (fun m => s.finish (formatOut raw m)) with ⟨he, h⟩ | ⟨m, he, h⟩ | ⟨b, he, h⟩
    · rw [h]; exact .requests 32 rfl he
    · rw [h]; exact .holds 32 m rfl he
    · rw [h]
      refine .outputs _ fun hc ha => ?_
      have h128 := obufBytes_ge hc
      rw [length_formatOut, ha b he 32 rfl]
      cases raw
      · exact h128.trans' (by decide)
      · exact h128.trans' (by decide)
  | tokenEncrypt raw =>
    refine ⟨_, rfl, ?_⟩
    split
    · exact .fails _ (by decide) fun _ => ⟨nofun, nofun⟩
    · split
      · exact .fails _ (by decide) fun _ => ⟨nofun, nofun⟩
      · split
        · exact .fails _ (by decide) fun _ => ⟨nofun, nofun⟩
        · rcases drawEntropy_cases s 16 (fun iv =>
              s.finish (formatOut raw (rawToken s.keySk s.keyEk iv s.time s.primaryInput))) with
            ⟨he, h⟩ | ⟨m, he, h⟩ | ⟨b, he, h⟩
          · rw [h]; exact .requests 16 rfl he
          · rw [h]; exact .holds 16 m rfl he
          · rw [h]
            refine .outputs _ fun _ ha => ?_
            rw [length_token raw _ _ (ha b he 16 rfl), length_primaryInput]
            omega
  | tokenDecrypt raw ttlEn =>
    refine ⟨_, rfl, ?_⟩
    split
    · exact .fails _ (by decide) fun _ => ⟨nofun, nofun⟩
    · split
      · exact .fails _ (by decide) fun _ => ⟨nofun, nofun⟩
      · rename_i hL
        split
        · exact .fails _ (by decide) fun _ => ⟨nofun, nofun⟩
        · rename_i t ht
          split
          · exact .fails _ (by decide) fun _ => ⟨nofun, nofun⟩
          · rename_i r hr
            have h1 := length_openToken_le hr
            have h2 := length_decodeToken_le ht
            rw [length_primaryInput] at h2
            exact .outputs _ fun hc _ => by have := ibufBytes_le_obufBytes hc; omega
  | cbcEncrypt =>
    refine ⟨_, rfl, ?_⟩
    split
    · exact .fails _ (by decide) fun _ => ⟨nofun, nofun⟩
    · split
      · exact .fails _ (by decide) fun _ => ⟨nofun, nofun⟩
      · refine .outputs _ fun _ _ => ?_
        rw [length_cbcEncrypt, State.ibufRange, Memory.length_readBytes]
        omega
  | cbcDecrypt =>
    refine ⟨_, rfl, ?_⟩
    split
    · exact .fails _ (by decide) fun _ => ⟨nofun, nofun⟩
    · split
      · exact .fails _ (by decide) fun _ => ⟨nofun, nofun⟩
      · exact .fails _ (by decide) fun _ => ⟨nofun, nofun⟩
      · rename_i r hr
        have h1 := length_cbcDecrypt_le hr
        rw [State.ibufRange, Memory.length_readBytes] at h1
        exact .outputs _ fun hc _ => by have := ibufBytes_le_obufBytes hc; omega
  | mac hsel =>
    refine ⟨_, rfl, ?_⟩
    split
    · exact .fails _ (by decide) fun _ => ⟨nofun, nofun⟩
    · rename_i h _
      split
      · exact .fails _ (by decide) fun _ => ⟨nofun, nofun⟩
      · refine .outputs _ fun hc _ => ?_
        have := digestLength_le h
        have := obufBytes_ge hc
        rw [length_hmac]
        omega
  | secretLoad raw =>
    refine ⟨_, rfl, ?_⟩
    split
    · exact .failsLoad _ (by decide) ⟨raw, .inr rfl⟩
    · split
      · exact .failsLoad _ (by decide) ⟨raw, .inr rfl⟩
      · split
        · exact .failsLoad _ (by decide) ⟨raw, .inr rfl⟩
        · split
          · exact .failsLoad _ (by decide) ⟨raw, .inr rfl⟩
          · rename_i hv _ _ _ _ hb
            exact .loadsSecret _ (by omega) (by simpa using hv) ⟨raw, rfl⟩
  | otpGenerate =>
    refine ⟨_, rfl, ?_⟩
    split
    · exact .fails _ (by decide) fun _ => ⟨nofun, nofun⟩
    · split
      · exact .fails _ (by decide) fun _ => ⟨nofun, nofun⟩
      · rename_i d h hd
        refine .outputs _ fun hc _ => ?_
        have := digits_le_of_otpConfig hd
        have := obufBytes_ge hc
        rw [length_hotp]
        omega
  | otpNow =>
    refine ⟨_, rfl, ?_⟩
    split
    · exact .fails _ (by decide) fun _ => ⟨nofun, nofun⟩
    · split
      · exact .fails _ (by decide) fun _ => ⟨nofun, nofun⟩
      · rename_i d h hd
        split
        · exact .fails _ (by decide) fun _ => ⟨nofun, nofun⟩
        · refine .outputs _ fun hc _ => ?_
          have := digits_le_of_otpConfig hd
          have := obufBytes_ge hc
          rw [length_hotp]
          omega
  | otpVerify forTime =>
    refine ⟨_, rfl, ?_⟩
    split
    · exact .fails _ (by decide) fun _ => ⟨nofun, nofun⟩
    · split
      · exact .fails _ (by decide) fun _ => ⟨nofun, nofun⟩
      · split
        · exact .fails _ (by decide) fun _ => ⟨nofun, nofun⟩
        · split
          · exact .fails _ (by decide) fun _ => ⟨nofun, nofun⟩
          · dsimp only
            split
            · exact .fails _ (by decide) fun _ => ⟨nofun, nofun⟩
            · exact .matches _ ⟨forTime, rfl⟩
  | otpUri =>
    refine ⟨_, rfl, ?_⟩
    split
    · exact .fails _ (by decide) fun _ => ⟨nofun, nofun⟩
    · split
      · exact .fails _ (by decide) fun _ => ⟨nofun, nofun⟩
      · dsimp only
        split
        · exact .fails _ (by decide) fun _ => ⟨nofun, nofun⟩
        · exact .outputs _ fun _ _ => by omega
  | zeroize => exact ⟨_, rfl, .zeroizes rfl⟩

end Sys2Proof.Machine
end

