-- ==== Sys2Proof/Laws/PerInstr.lean ====
section
/-! SUPPORT. What holds of every command as syntax. -/

namespace Sys2Proof.Laws.ReservedBits

/-- The word of a command has 0 in every reserved bit, 11 and 31:14 (30_encoding.md R307). -/
def Statement (i : Instr) : Prop := encode i &&& 0xFFFFC800 = 0

theorem keyLoad (raw : Bool) : Statement (.keyLoad raw) := by
  unfold Statement
  revert raw
  decide

theorem keyGenerate (raw : Bool) : Statement (.keyGenerate raw) := by
  unfold Statement
  revert raw
  decide

theorem tokenEncrypt (raw : Bool) : Statement (.tokenEncrypt raw) := by
  unfold Statement
  revert raw
  decide

theorem tokenDecrypt (raw ttlEn : Bool) : Statement (.tokenDecrypt raw ttlEn) := by
  unfold Statement
  revert raw ttlEn
  decide

theorem cbcEncrypt : Statement .cbcEncrypt := by
  unfold Statement
  decide

theorem cbcDecrypt : Statement .cbcDecrypt := by
  unfold Statement
  decide

theorem mac (hsel : BitVec 2) : Statement (.mac hsel) := by
  unfold Statement
  revert hsel
  decide

theorem secretLoad (raw : Bool) : Statement (.secretLoad raw) := by
  unfold Statement
  revert raw
  decide

theorem otpGenerate : Statement .otpGenerate := by
  unfold Statement
  decide

theorem otpNow : Statement .otpNow := by
  unfold Statement
  decide

theorem otpVerify (forTime : Bool) : Statement (.otpVerify forTime) := by
  unfold Statement
  revert forTime
  decide

theorem otpUri : Statement .otpUri := by
  unfold Statement
  decide

theorem zeroize : Statement .zeroize := by
  unfold Statement
  decide

end Sys2Proof.Laws.ReservedBits
end

