-- ==== Sys2Proof/Laws/Step.lean ====
section
/-! SUPPORT. Where the words of the window lie, and once everything a host write and a step can do. -/

namespace Sys2Proof.Machine

variable {s t : State}

/-! ### The map of the window -/

/-- A register is found at one word offset only (10_state.md R104). -/
theorem mem_registerMap_of_registerAt {w : Nat} {r : Reg} (h : registerAt w = some r) : (w, r) ∈ registerMap := by
  unfold registerAt at h
  revert h
  generalize registerMap = l
  induction l with
  | nil => simp
  | cons e l ih =>
    obtain ⟨x, y⟩ := e
    simp only [List.lookup]
    split
    · have hw : w = x := by simpa using ‹(w == x) = true›
      rintro ⟨⟩
      simp [hw]
    · exact fun h => List.mem_cons_of_mem _ (ih h)

theorem registerAt_inj {w k : Nat} {r : Reg} (h : registerAt w = some r) (hk : registerAt k = some r) : w = k := by
  have huniq : ∀ e ∈ registerMap, ∀ e' ∈ registerMap, e.2 = e'.2 → e.1 = e'.1 := by decide
  exact huniq _ (mem_registerMap_of_registerAt h) _ (mem_registerMap_of_registerAt hk) rfl

/-- Where a register's word lies (20_memory.md R202). -/
theorem locate_register {c : Config} {off k : Nat} {r : Reg} (h : wordOffset off = k) (hk : k < 0x10000)
    (hr : registerAt k = some r) : locate c (wordOffset off) = .register r := by
  unfold locate
  rw [h, if_pos hk, hr]

theorem registerAt_of_locate {c : Config} {woff : Nat} {r : Reg} (h : locate c woff = .register r) :
    registerAt woff = some r := by
  unfold locate at h
  split at h
  · split at h
    · cases h
      assumption
    · nomatch h
  · split at h
    · split at h <;> nomatch h
    · split at h
      · split at h <;> nomatch h
      · nomatch h

/-- Where an IBUF word lies (20_memory.md R204). -/
theorem locate_ibufWord {c : Config} {woff k : Nat} (h : locate c woff = .ibufWord k) :
    woff = 0x10000 + k ∧ k < c.ibufBytes := by
  unfold locate at h
  by_cases h1 : woff < 0x10000
  · rw [if_pos h1] at h
    split at h <;> nomatch h
  · rw [if_neg h1] at h
    by_cases h2 : woff < 0x20000
    · rw [if_pos h2] at h
      by_cases h3 : woff - 0x10000 < c.ibufBytes
      · rw [if_pos h3, Location.ibufWord.injEq] at h
        omega
      · rw [if_neg h3] at h
        nomatch h
    · rw [if_neg h2] at h
      by_cases h3 : woff < 0x30000
      · rw [if_pos h3] at h
        split at h <;> nomatch h
      · rw [if_neg h3] at h
        nomatch h

/-- Where the words of the buffers lie (20_memory.md R204, R205). -/
theorem locate_ibuf {c : Config} {k : Nat} (hk : 4 * k < c.ibufBytes) (hc : c.ibufBytes ≤ 65536) :
    locate c (wordOffset (0x10000 + 4 * k)) = .ibufWord (4 * k) := by
  have hw : wordOffset (0x10000 + 4 * k) = 0x10000 + 4 * k := by unfold wordOffset; omega
  unfold locate
  rw [hw, if_neg (by omega), if_pos (by omega), Nat.add_sub_cancel_left, if_pos hk]

theorem locate_obuf {c : Config} {k : Nat} (hk : 4 * k < c.obufBytes) (hc : c.obufBytes ≤ 65536) :
    locate c (wordOffset (0x20000 + 4 * k)) = .obufWord (4 * k) := by
  have hw : wordOffset (0x20000 + 4 * k) = 0x20000 + 4 * k := by unfold wordOffset; omega
  unfold locate
  rw [hw, if_neg (by omega), if_neg (by omega), if_pos (by omega), Nat.add_sub_cancel_left, if_pos hk]

/-! ### What a host write can do -/

/-- A write to an input-locked register or to IBUF: nothing else changes (10_state.md R106, R125 to R134). -/
structure InputWrite (s t : State) : Prop where
  eq : t = { s with
    inLen := t.inLen, auxLen := t.auxLen, timeLo := t.timeLo, timeHi := t.timeHi, ttlLo := t.ttlLo, ttlHi := t.ttlHi,
    argLo := t.argLo, argHi := t.argHi, interval := t.interval, window := t.window, otpCfg := t.otpCfg, ibuf := t.ibuf }
  ibufWf : s.ibuf.wf → t.ibuf.wf
  ibufBelow : s.cfg.Legal → s.ibuf.Below s.cfg.ibufBytes → t.ibuf.Below s.cfg.ibufBytes

/-- Everything a host write of v at offset `off` can do (20_memory.md R211, R215). -/
inductive WriteEffect (s : State) (off : Nat) (v : Word) : State → Prop where
  | ignored : WriteEffect s off v s
  | input (t : State) (hs : s.seq = .idle) (h : InputWrite s t) : WriteEffect s off v t
  | starts (ho : wordOffset off = 0x018) (hs : s.seq = .idle) : WriteEffect s off v (s.start v)
  | overruns (ho : wordOffset off = 0x018) (w : Word) (hs : s.seq = .busy w) :
    WriteEffect s off v { s with overrun := true }
  | resets (ho : wordOffset off = 0x010) (hv : v.getLsbD 1 = true) : WriteEffect s off v s.toReset
  | enables (ho : wordOffset off = 0x010) (hv : v.getLsbD 1 = false) :
    WriteEffect s off v { s with irqEn := v.getLsbD 0 }
  | clears (ho : wordOffset off = 0x014) : WriteEffect s off v (s.writeStatus v)

theorem unlessBusy_effect {off : Nat} {v : Word} (h : InputWrite s t) : WriteEffect s off v (s.unlessBusy t) := by
  unfold State.unlessBusy
  split
  · exact .input t ‹_› h
  · exact .ignored

theorem writeReg_effect {s : State} {off : Nat} {r : Reg} (h : registerAt (wordOffset off) = some r) (v : Word) :
    WriteEffect s off v (s.writeReg r v) := by
  cases r
  case ctrl =>
    unfold State.writeReg State.writeCtrl
    dsimp only
    split
    · exact .resets (registerAt_inj h rfl) ‹_›
    · exact .enables (registerAt_inj h rfl) (by simpa using ‹¬v.getLsbD 1 = true›)
  case status => exact .clears (registerAt_inj h rfl)
  case cmd =>
    unfold State.writeReg State.writeCmd
    dsimp only
    split
    · exact .starts (registerAt_inj h rfl) ‹_›
    · exact .overruns (registerAt_inj h rfl) _ ‹_›
  all_goals first
    | exact .ignored
    | exact unlessBusy_effect ⟨rfl, id, fun _ h => h⟩

/-- What a host write can do (20_memory.md R211). -/
theorem memWrite_effect (s : State) (off : Nat) (v : Word) : WriteEffect s off v (s.memWrite off v) := by
  unfold State.memWrite
  split
  · exact writeReg_effect (registerAt_of_locate ‹_›) v
  · rename_i k hk
    refine unlessBusy_effect ⟨rfl, Memory.wf_writeWord, fun hc hb => Memory.below_writeWord hb ?_⟩
    have h4 := hc.2.1
    have hw : wordOffset off % 4 = 0 := by unfold wordOffset; omega
    have := locate_ibufWord hk
    omega
  · exact .ignored
  · exact .ignored

/-! ### What a step does -/

theorem windowOffset_base (c : Config) {off : Nat} (h : off < 0x40000) : windowOffset c (c.base + off) = some off := by
  unfold windowOffset
  rw [if_pos ⟨by omega, by omega⟩, Nat.add_sub_cancel_left]

theorem eq_base_of_windowOffset {c : Config} {addr off : Nat} (h : windowOffset c addr = some off) :
    addr = c.base + off ∧ off < 0x40000 := by
  unfold windowOffset at h
  split at h
  · cases h
    omega
  · cases h

/-- A step with the sequencer to go on next. -/
theorem step_of_sequencerNext {rest : List Input} (h : SequencerNext s rest) :
    step s = runCommand { s with inputs := rest } := by
  rcases h with h | ⟨h, rfl⟩
  · simp [step, stepInputs, h, takeInput]
  · have hs : s = { s with inputs := [] } := by rw [← h]
    simp only [step, stepInputs, h]
    rw [← hs]

/-- A step whose next input is a host write inside the window. -/
theorem step_of_nextWrite {off : Nat} {v : Word} {rest : List Input} (h : NextWrite s off v rest) :
    step s = .next ({ s with inputs := rest }.memWrite off v) := by
  simp [step, stepInputs, h.head, takeInput, hostWrite, windowOffset_base s.cfg h.inside, h.released]

/-- A step whose next input is a host read inside the window. -/
theorem step_of_nextRead {off : Nat} {rest : List Input} (h : NextRead s off rest) :
    step s = .next { s with inputs := rest, rdata := some ({ s with inputs := rest }.memRead off) } := by
  simp [step, stepInputs, h.head, takeInput, hostRead, windowOffset_base s.cfg h.inside, h.released]

/-- Everything a step that answers a next state can do. -/
inductive StepEffect (s : State) : State → Prop where
  /-- The input changes nothing, or there is no command to go on with. -/
  | drops (rest : List Input) : StepEffect s { s with inputs := rest }
  /-- A host read (20_memory.md R210). -/
  | reads (rest : List Input) (v : Word) : StepEffect s { s with inputs := rest, rdata := some v }
  /-- A host write (20_memory.md R211). -/
  | writes (off : Nat) (v : Word) (rest : List Input) (t : State) (hn : NextWrite s off v rest)
    (h : WriteEffect { s with inputs := rest } off v t) : StepEffect s t
  /-- The entropy answer of the requested length (10_state.md R150). -/
  | answers (b : Bytes) (rest : List Input) (he : s.entropy = .waiting b.length)
    (hi : s.inputs = .entropyAnswer b :: rest) : StepEffect s { s with inputs := rest, entropy := .answered b }
  /-- The command in progress goes on (70_reset_and_hazards.md R1011). -/
  | runs (rest : List Input) (w : Word) (i : Instr) (t : State) (hn : SequencerNext s rest) (hs : s.seq = .busy w)
    (hd : decode w = .ok i) (he : exec i { s with inputs := rest } = .next t)
    (h : CommandEffect i { s with inputs := rest } t) : StepEffect s t
  /-- The word in progress is no command (30_encoding.md R309). -/
  | illegal (rest : List Input) (w : Word) (r : Reject) (hn : SequencerNext s rest) (hs : s.seq = .busy w)
    (hd : decode w = .error r) : StepEffect s ({ s with inputs := rest }.complete .illegalCommand [] false)
  /-- The platform drives RST (70_reset_and_hazards.md R1000). -/
  | drives (b : Bool) (rest : List Input) (hi : s.inputs = .rst b :: rest) :
    StepEffect s ({ s with inputs := rest }.driveRst b)

theorem runCommand_effect {rest : List Input} (hn : SequencerNext s rest)
    (h : runCommand { s with inputs := rest } = .next t) : StepEffect s t := by
  unfold runCommand at h
  split at h
  · cases h
    exact .drops rest
  · split at h
    · obtain ⟨u, hu, he⟩ := exec_effect ‹_› { s with inputs := rest }
      rw [hu] at h
      cases h
      exact .runs rest _ _ _ hn ‹_› ‹_› hu he
    · cases h
      exact .illegal rest _ _ hn ‹_› ‹_›

/-- What a step can do. -/
theorem step_effect (h : step s = .next t) : StepEffect s t := by
  cases hin : s.inputs with
  | nil =>
    have hn : SequencerNext s [] := .inr ⟨hin, rfl⟩
    exact runCommand_effect hn (step_of_sequencerNext hn ▸ h)
  | cons i rest =>
    simp only [step, stepInputs, hin] at h
    cases i with
    | read bits addr =>
      simp only [takeInput, hostRead] at h
      split at h
      · cases h
      · split at h
        · cases h
        · cases h
          exact .reads rest _
    | write bits addr v =>
      simp only [takeInput, hostWrite] at h
      split at h
      · cases h
      · rename_i off ho
        obtain ⟨ha, hlt⟩ := eq_base_of_windowOffset ho
        split at h
        · cases h
        · rename_i hb
          cases h
          split
          · exact .drops rest
          · refine .writes off v rest _ ⟨?_, hlt, by simpa using ‹¬s.rst = true›⟩ (memWrite_effect _ off v)
            rw [hin, ha, not_not.1 hb]
    | entropyAnswer b =>
      simp only [takeInput, entropyAnswered] at h
      split at h
      · split at h
        · cases h
          subst_vars
          exact .answers b rest ‹_› hin
        · cases h
      · cases h
        exact .drops rest
      · cases h
        exact .drops rest
    | staleEntropy b =>
      cases h
      exact .drops rest
    | progress => exact runCommand_effect (.inl hin) h
    | rst b =>
      cases h
      exact .drives b rest hin

end Sys2Proof.Machine
end

