-- ==== Sys2Proof/Machine/HostProgram.lean ====
section
/-! DEFINITION. The notation of host programs as lists of inputs: command mnemonics (30_encoding.md R313), bus statements (R314),
pseudo-instructions (R315). -/

namespace Sys2Proof.Machine

/-- The dot suffixes of a mnemonic (30_encoding.md R313). -/
inductive Suffix where
  | text
  | raw
  | ttl
  | atTime
  | sha1
  | sha256
  deriving DecidableEq, Repr

/-- One suffix sets its field; a suffix the command does not allow is an assembly error (30_encoding.md R313). -/
def applySuffix (i : Instr) (x : Suffix) : Option Instr :=
  match i, x with
  | .keyLoad _, .text => some (.keyLoad false)
  | .keyLoad _, .raw => some (.keyLoad true)
  | .keyGenerate _, .text => some (.keyGenerate false)
  | .keyGenerate _, .raw => some (.keyGenerate true)
  | .tokenEncrypt _, .text => some (.tokenEncrypt false)
  | .tokenEncrypt _, .raw => some (.tokenEncrypt true)
  | .tokenDecrypt _ ttlEn, .text => some (.tokenDecrypt false ttlEn)
  | .tokenDecrypt _ ttlEn, .raw => some (.tokenDecrypt true ttlEn)
  | .tokenDecrypt raw _, .ttl => some (.tokenDecrypt raw true)
  | .secretLoad _, .text => some (.secretLoad false)
  | .secretLoad _, .raw => some (.secretLoad true)
  | .otpVerify _, .atTime => some (.otpVerify true)
  | .mac _, .sha1 => some (.mac 0)
  | .mac _, .sha256 => some (.mac 1)
  | _, _ => none

/-- Suffixes from left to right; of two for one field the later one holds (log 17). -/
def applySuffixes : Instr → List Suffix → Option Instr
  | i, [] => some i
  | i, x :: rest =>
    match applySuffix i x with
    | some j => applySuffixes j rest
    | none => none

/-- The word of a mnemonic: the command with every field 0, then its suffixes (30_encoding.md R313). -/
def assemble (base : Instr) (suffixes : List Suffix) : Option Word :=
  match applySuffixes base suffixes with
  | some i => some (encode i)
  | none => none

/-- The offset of a register (10_state.md R104). -/
def registerOffset (r : Reg) : Nat :=
  match registerMap.find? (fun e => decide (e.2 = r)) with
  | some e => e.1
  | none => 0

/-- `WR <reg>, <value>` (30_encoding.md R314). -/
def wr (c : Config) (r : Reg) (v : Word) : Input := .write 32 (c.base + registerOffset r) v

/-- `RD <reg>` (30_encoding.md R314). -/
def rd (c : Config) (r : Reg) : Input := .read 32 (c.base + registerOffset r)

/-- `WR IBUF+o, <value>` (30_encoding.md R314). -/
def wrIbuf (c : Config) (o : Nat) (v : Word) : Input := .write 32 (c.base + 0x10000 + o) v

/-- `LDB @o, <bytes>`: the words of the bytes, the last one zero-filled (30_encoding.md R315). -/
def ldb (c : Config) (o : Nat) (s : Bytes) : List Input :=
  (List.range ((s.length + 3) / 4)).map fun k =>
    wrIbuf c (o + 4 * k) (ofLanes (s.getD (4 * k) 0) (s.getD (4 * k + 1) 0) (s.getD (4 * k + 2) 0) (s.getD (4 * k + 3) 0))

/-- `WR64 <R>, v` with the low and the high register of the pair (30_encoding.md R315). -/
def wr64 (c : Config) (lo hi : Reg) (v : Nat) : List Input :=
  [wr c lo (BitVec.ofNat 32 v), wr c hi (BitVec.ofNat 32 (v / 2 ^ 32))]

/-- `CMD <mnemonic>` (30_encoding.md R315). -/
def cmd (c : Config) (w : Word) : List Input := [wr c .cmd w]

/-- `WAIT` (30_encoding.md R315) when the command completes after `polls` reads of STATUS that return BUSY = 1; the number
of polls depends on LATENCY, which is any (70_reset_and_hazards.md R1030). -/
def wait (c : Config) (polls : Nat) : List Input :=
  List.replicate polls (rd c .status) ++ [.progress, rd c .status]

/-- `RUN <mnemonic>` (30_encoding.md R315). -/
def run (c : Config) (w : Word) (polls : Nat) : List Input := cmd c w ++ wait c polls

/-- `RDO n` (30_encoding.md R315). -/
def rdo (c : Config) (n : Nat) : List Input :=
  (List.range ((n + 3) / 4)).map fun k => .read 32 (c.base + 0x20000 + 4 * k)

end Sys2Proof.Machine
end

