-- ==== Sys2Proof/Tests/Slice0.lean ====
section
/-! SUPPORT. Tests with expected results from the spec (30_encoding.md, 95_test_vectors.md, the rules' examples), one step each, and
a witness for the hypotheses of every statement. -/

namespace Sys2Proof.Tests

open Sys2Proof.Machine

/-! ### Helpers -/

/-- The k bytes of a hexadecimal numeral, first byte first. -/
def hex (k n : Nat) : Bytes := (List.range k).map fun i => BitVec.ofNat 8 (n / 256 ^ (k - 1 - i))

/-- The next state of an outcome. -/
def nextOf : Host.Outcome State Fault Refusal → Option State
  | .next t => some t
  | .fault _ => none
  | .refused _ => none

/-- The code, OUT_LEN and the output of an outcome, of at most n bytes. -/
def outputOf (n : Nat) (o : Host.Outcome State Fault Refusal) : Option (ErrCode × Nat × Bytes) :=
  (nextOf o).map fun t => (t.errCode, t.outLen.toNat, t.obuf.readBytes 0 n)

/-- A state with an operand in IBUF and its length in IN_LEN. -/
def withOperand (b : Bytes) : State :=
  { State.reset with ibuf := Memory.ofBytes b, inLen := BitVec.ofNat 32 b.length }

/-- A state with the key material 00 .. 1f loaded (95_test_vectors.md) and an operand. -/
def withKey (b : Bytes) : State :=
  { withOperand b with
    keySk := hex 16 0x000102030405060708090a0b0c0d0e0f, keyEk := hex 16 0x101112131415161718191a1b1c1d1e1f, keyValid := true }

/-- A state with the secret "12345678901234567890" loaded (43_otp.md) and an operand. -/
def withSecret (b : Bytes) : State :=
  { withOperand b with
    secret := hex 20 0x3132333435363738393031323334353637383930 ++ bytesOf 44 0, secretLen := 20, secretValid := true }

/-- A state in which the command word w is in progress, with inputs to come. -/
def busyWith (w : Word) (l : List Input) : State := { State.reset.start w with inputs := l }

/-- The reset state with inputs to come. -/
def idleWith (l : List Input) : State := { State.reset with inputs := l }

/-! ### WellFormed: the ill-formed terms are refused (30_encoding.md R306) -/

theorem test_wellFormed_refuses_hsel_2 : (Instr.mac 2).wellFormed = false := by decide
theorem test_wellFormed_refuses_hsel_3 : (Instr.mac 3).wellFormed = false := by decide

/-! ### Decoding: the words of 95_test_vectors.md 2.1 and the rejections of 30_encoding.md R309 -/

theorem test_decode_keyLoad : decode 0x00000101 = .ok (.keyLoad true) := by decide
theorem test_decode_keyGenerate : decode 0x00000002 = .ok (.keyGenerate false) := by decide
theorem test_decode_tokenEncrypt : decode 0x00000103 = .ok (.tokenEncrypt true) := by decide
theorem test_decode_tokenDecrypt : decode 0x00000204 = .ok (.tokenDecrypt false true) := by decide
theorem test_decode_cbcEncrypt : decode 0x00000005 = .ok .cbcEncrypt := by decide
theorem test_decode_cbcDecrypt : decode 0x00000006 = .ok .cbcDecrypt := by decide
theorem test_decode_mac : decode 0x00001007 = .ok (.mac 1) := by decide
theorem test_decode_secretLoad : decode 0x00000008 = .ok (.secretLoad false) := by decide
theorem test_decode_otpGenerate : decode 0x00000009 = .ok .otpGenerate := by decide
theorem test_decode_otpNow : decode 0x0000000A = .ok .otpNow := by decide
theorem test_decode_otpVerify : decode 0x0000040B = .ok (.otpVerify true) := by decide
theorem test_decode_otpUri : decode 0x0000000C = .ok .otpUri := by decide
theorem test_decode_zeroize : decode 0x0000000D = .ok .zeroize := by decide

theorem test_decode_refuses :
    [0x00000000, 0x0000000E, 0x00000801, 0x00004001, 0x00002007, 0x00000105, 0x00000201].map decode =
      [.error .unassignedOpcode, .error .unassignedOpcode, .error .reservedBit, .error .reservedBit, .error .reservedHsel,
        .error .fieldNotAllowed, .error .fieldNotAllowed] := by
  decide

theorem test_decodeTableWord_fields : decodeTableWord 32 0x00000304 = some (.tokenDecrypt true true) := by decide

theorem test_encode_fields :
    encode (.tokenDecrypt true true) = 0x00000304 ∧ encode (.otpVerify true) = 0x0000040B ∧ encode (.mac 1) = 0x00001007 := by
  decide

/-- `TOKEN_DECRYPT.raw.ttl` and `MAC.sha256` (30_encoding.md R313); a suffix the command does not allow is an error. -/
theorem test_assemble :
    assemble (.tokenDecrypt false false) [.raw, .ttl] = some 0x00000304 ∧ assemble (.mac 0) [.sha256] = some 0x00001007 ∧
      assemble .cbcEncrypt [.raw] = none := by
  decide

/-! ### The primitives -/

/-- FIPS 197 (95_test_vectors.md). -/
theorem test_aesEnc :
    aesEnc (hex 16 0x2b7e151628aed2a6abf7158809cf4f3c) (hex 16 0x3243f6a8885a308d313198a2e0370734) =
      hex 16 0x3925841d02dc09fbdc118597196a0b32 := by
  decide +kernel

theorem test_sha1 : sha1Hash (hex 3 0x616263) = hex 20 0xa9993e364706816aba3e25717850c26c9cd0d89d := by decide +kernel

theorem test_sha256 :
    sha256Hash (hex 3 0x616263) = hex 32 0xba7816bf8f01cfea414140de5dae2223b00361a396177a9cb410ff61f20015ad := by
  decide +kernel

/-- The examples of 42_token_codec.md R603. -/
theorem test_b64 :
    b64Encode [0x66] = [0x5A, 0x67, 0x3D, 0x3D] ∧ b64Encode [0xFB, 0xFF] = [0x2D, 0x5F, 0x38, 0x3D] ∧
      b64Decode [0x5A, 0x68, 0x3D, 0x3D] = none := by
  decide

/-- "MZXW6" is "foo" and "MZX" is no text (43_otp.md R703). -/
theorem test_b32 :
    b32Decode [0x4D, 0x5A, 0x58, 0x57, 0x36] = some [0x66, 0x6F, 0x6F] ∧ b32Decode [0x4D, 0x5A, 0x58] = none := by
  decide

/-! ### The commands -/

/-- The example of 42_token_codec.md R620. -/
theorem test_keyLoad :
    (nextOf (exec (.keyLoad false) (withOperand
      (hex 44 0x41414543417751464267634943516f4c4441304f4478415245684d554652595847426b61477877644868383d)))).map
        (fun t => (t.errCode, t.keySk ++ t.keyEk, t.keyValid, t.ibuf)) =
      some (.ok, hex 32 0x000102030405060708090a0b0c0d0e0f101112131415161718191a1b1c1d1e1f, true, []) := by
  decide +kernel

theorem test_keyLoad_locked :
    (nextOf (exec (.keyLoad true) (withKey (hex 32 0x01)))).map (fun t => (t.errCode, t.keyEk, t.ibuf)) =
      some (.locked, hex 16 0x101112131415161718191a1b1c1d1e1f, []) := by
  decide +kernel

/-- The example of 42_token_codec.md R625. -/
theorem test_keyGenerate :
    outputOf 44 (exec (.keyGenerate false) { State.reset with
      entropy := .answered (hex 32 0x404142434445464748494a4b4c4d4e4f505152535455565758595a5b5c5d5e5f) }) =
      some (.ok, 44,
        hex 44 0x5145464351305246526b64495355704c5445314f54314252556c4e5556565a5857466c6157317864586c383d) := by
  decide +kernel

/-- The example of 42_token_codec.md R630: "hello world" at TIME = 1700000000. -/
theorem test_tokenEncrypt :
    outputOf 73 (exec (.tokenEncrypt true) { withKey (hex 11 0x68656c6c6f20776f726c64) with
      timeLo := 1700000000, entropy := .answered (hex 16 0xa0a1a2a3a4a5a6a7a8a9aaabacadaeaf) }) =
      some (.ok, 73,
        hex 41 0x80000000006553f100a0a1a2a3a4a5a6a7a8a9aaabacadaeaf1b003a8005d8439fefedb91db728a0c9 ++
          hex 32 0xbd81368ab0ae993d6f281cf544817ea4dafd564fc97ce88f11d790db472bbcdd) := by
  decide +kernel

/-- The token of the example of 42_token_codec.md R630. -/
def exampleToken : Bytes :=
  hex 41 0x80000000006553f100a0a1a2a3a4a5a6a7a8a9aaabacadaeaf1b003a8005d8439fefedb91db728a0c9 ++
    hex 32 0xbd81368ab0ae993d6f281cf544817ea4dafd564fc97ce88f11d790db472bbcdd

/-- 60 seconds before its timestamp the token is accepted (42_token_codec.md R640, R642). -/
theorem test_tokenDecrypt_future :
    outputOf 11 (exec (.tokenDecrypt true false) { withKey exampleToken with timeLo := 1699999940 }) =
      some (.ok, 11, hex 11 0x68656c6c6f20776f726c64) := by
  decide +kernel

/-- With TTL = 50 the token is not accepted 51 seconds after its timestamp (42_token_codec.md R640, R642). -/
theorem test_tokenDecrypt_ttl :
    outputOf 11 (exec (.tokenDecrypt true true) { withKey exampleToken with timeLo := 1700000051, ttlLo := 50 }) =
      some (.invalidToken, 0, bytesOf 11 0) := by
  decide +kernel

/-- The example of 40_block_cipher.md R440. -/
theorem test_cbcEncrypt :
    outputOf 32 (exec .cbcEncrypt (withOperand (hex 16 0x000102030405060708090a0b0c0d0e0f ++ bytesOf 16 0 ++
      hex 16 0x00112233445566778899aabbccddeeff))) =
      some (.ok, 32, hex 32 0x69c4e0d86a7b0430d8cdb78070b4c55a9e978e6d16b086570ef794ef97984232) := by
  decide +kernel

/-- The operand of CBC_DECRYPT with the key and the iv of the example of 40_block_cipher.md R441 and one block. -/
def cbcOperand (c : Nat) : State :=
  withOperand (hex 16 0x2b7e151628aed2a6abf7158809cf4f3c ++ hex 16 0x000102030405060708090a0b0c0d0e0f ++ hex 16 c)

/-- The examples of 40_block_cipher.md R441. -/
theorem test_cbcDecrypt :
    outputOf 1 (exec .cbcDecrypt (cbcOperand 0xc84af0b613435d5d9182801a9bd9320b)) = some (.ok, 0, [0]) ∧
    outputOf 1 (exec .cbcDecrypt (cbcOperand 0x50fe67cc996d32b6da0937e99bafec60)) = some (.padding, 0, [0]) := by
  decide +kernel

/-- The example of 41_mac.md R530: "Jefe" and "what do ya want for nothing?". -/
theorem test_mac :
    outputOf 32 (exec (.mac 1) { withOperand (hex 32 0x4a6566657768617420646f2079612077616e7420666f72206e6f7468696e673f)
      with auxLen := 4 }) =
      some (.ok, 32, hex 32 0x5bdcc146bf60754e6a042426089575c75a003f089d2739839dec58b964ec3843) := by
  decide +kernel

theorem test_mac_length : outputOf 0 (exec (.mac 0) { withOperand [1] with auxLen := 2 }) = some (.length, 0, []) := by
  decide +kernel

/-- The example of 43_otp.md R720. -/
theorem test_secretLoad :
    (nextOf (exec (.secretLoad false)
      (withOperand (hex 32 0x47455a44474e425647593354514f4a5147455a44474e425647593354514f4a51)))).map
        (fun t => (t.secret, t.secretLen, t.secretValid, t.ibuf)) =
      some (hex 20 0x3132333435363738393031323334353637383930 ++ bytesOf 44 0, 20, true, []) := by
  decide +kernel

/-- 65 raw bytes do not fit the store of 64 (43_otp.md R720). -/
theorem test_secretLoad_length :
    (nextOf (exec (.secretLoad true) (withOperand (bytesOf 65 1)))).map
        (fun t => (t.errCode, t.secretLen, t.secretValid, t.ibuf)) =
      some (.length, 0, false, []) := by
  decide +kernel

/-- The example of 43_otp.md R725. -/
theorem test_otpGenerate : outputOf 6 (exec .otpGenerate (withSecret [])) = some (.ok, 6, hex 6 0x373535323234) := by
  decide +kernel

/-- The example of 43_otp.md R730: TIME = 59, 8 digits. -/
theorem test_otpNow :
    outputOf 8 (exec .otpNow { withSecret [] with timeLo := 59, otpCfg := 8 }) = some (.ok, 8, hex 8 0x3934323837303832) := by
  decide +kernel

/-- ARG = 59 is step 1; WINDOW = 1 reaches step 2, whose code is "359152" (43_otp.md R740, 95_test_vectors.md). -/
theorem test_otpVerify :
    (nextOf (exec (.otpVerify true) { withSecret (hex 6 0x333539313532) with argLo := 59, window := 1 })).map
        (fun t => (t.errCode, t.matched, t.outLen)) = some (.ok, true, 0) := by
  decide +kernel

/-- ARG = 59 is step 1, so WINDOW = 2 reaches below step 0 (43_otp.md R740). -/
theorem test_otpVerify_window :
    outputOf 0 (exec (.otpVerify true) { withSecret (hex 6 0x393639343239) with argLo := 59, window := 2 }) =
      some (.invalidArgument, 0, []) := by
  decide +kernel

/-- The example of 43_otp.md R750. -/
theorem test_otpUri :
    outputOf 89 (exec .otpUri { withSecret (hex 21 0x41434d45616c696365406578616d706c652e636f6d) with auxLen := 4 }) =
      some (.ok, 89, hex 45 0x6f7470617574683a2f2f746f74702f41434d453a616c696365406578616d706c652e636f6d3f7365637265743d ++
        hex 44 0x47455a44474e425647593354514f4a5147455a44474e425647593354514f4a51266973737565723d41434d45) := by
  decide +kernel

/-- The example of 44_control.md R800: STATUS is DONE only. -/
theorem test_zeroize :
    (nextOf (exec .zeroize (withKey [1]))).map (fun t => (t.statusWord, t.keySk, t.ibuf)) =
      some (0x00000002, bytesOf 16 0, []) := by
  decide +kernel

/-! ### Steps -/

/-- The very next step after withFetchWord runs the command (log 3): ZEROIZE from reset ends with STATUS = DONE. -/
theorem test_step_withFetchWord :
    (nextOf (step (State.reset.withFetchWord 32 0x0000000D))).map (fun t => (t.statusWord, t.inputs)) =
      some (0x00000002, []) := by
  decide +kernel

/-- The program statements of 30_encoding.md R315 as inputs: a start, one poll, the completion, the last poll. -/
theorem test_hostProgram :
    run State.reset.cfg 0x0000000D 1 =
      [.write 32 0x018 0x0000000D, .read 32 0x014, .progress, .read 32 0x014] := by
  decide

/-- `LDB @4, 0x01 0x02 0x03 0x04 0x05`: little-endian lanes, zero-filled (30_encoding.md R315, 20_memory.md R220). -/
theorem test_ldb :
    ldb State.reset.cfg 4 [1, 2, 3, 4, 5] = [.write 32 0x10004 0x04030201, .write 32 0x10008 0x00000005] := by
  decide

/-! ### Witnesses: the hypotheses of each statement are met together, each clause at a boundary value -/

theorem nextWrite_idleWith (off : Nat) (v : Word) (h : off < 0x40000) :
    NextWrite (idleWith [.write 32 off v]) off v [] :=
  ⟨by simp [idleWith, State.reset, State.resetFor, Config.default], h, rfl⟩

theorem nextWrite_busyWith (w : Word) (off : Nat) (v : Word) (h : off < 0x40000) :
    NextWrite (busyWith w [.write 32 off v]) off v [] :=
  ⟨by simp [busyWith, State.reset, State.resetFor, Config.default], h, rfl⟩

theorem nextRead_idleWith (off : Nat) (h : off < 0x40000) : NextRead (idleWith [.read 32 off]) off [] :=
  ⟨by simp [idleWith, State.reset, State.resetFor, Config.default], h, rfl⟩

theorem nextRead_busyWith (w : Word) (off : Nat) (h : off < 0x40000) : NextRead (busyWith w [.read 32 off]) off [] :=
  ⟨by simp [busyWith, State.reset, State.resetFor, Config.default], h, rfl⟩

theorem witness_AtMostOneRowMatches :
    ∃ r ∈ opcodeRows, ∃ r' ∈ opcodeRows, (0x00000304 : Word) &&& r.mask = r.matchWord ∧
      (0x00000304 : Word) &&& r'.mask = r'.matchWord := by
  decide

theorem witness_IllegalWordCompletes :
    (∀ w, (busyWith w [.progress]).seq = .busy w ∧ SequencerNext (busyWith w [.progress]) []) ∧
    opcodeField 0x00000000 = 0 ∧ 0x0E ≤ opcodeField 0x0000000E ∧ 0x0E ≤ opcodeField 0x000000FF ∧
    (0x00000801 : Word).getLsbD 11 = true ∧ (0x00004001 : Word).extractLsb' 14 18 ≠ 0 ∧
    (0x80000001 : Word).extractLsb' 14 18 ≠ 0 ∧
    (fmtField 0x00000105 = true ∧ opcodeField 0x00000105 ∉ [0x01, 0x02, 0x03, 0x04, 0x08]) ∧
    (ttlEnField 0x00000203 = true ∧ opcodeField 0x00000203 ≠ 0x04) ∧
    (forTimeField 0x0000040A = true ∧ opcodeField 0x0000040A ≠ 0x0B) ∧
    (hselField 0x00001008 ≠ 0 ∧ opcodeField 0x00001008 ≠ 0x07) ∧
    (opcodeField 0x00002007 = 0x07 ∧ 2 ≤ (hselField 0x00002007).toNat) ∧
    (opcodeField 0x00003007 = 0x07 ∧ 2 ≤ (hselField 0x00003007).toNat) :=
  ⟨fun _ => ⟨rfl, .inl rfl⟩, by decide⟩

theorem witness_StepRunsCommandInProgress :
    (busyWith 0x0000000D [.progress]).seq = .busy 0x0000000D ∧ decode 0x0000000D = .ok .zeroize ∧
      SequencerNext (busyWith 0x0000000D [.progress]) [] ∧ SequencerNext (busyWith 0x0000000D []) [] :=
  ⟨rfl, by decide, .inl rfl, .inr ⟨rfl, rfl⟩⟩

theorem witness_CmdWriteStartsOrOverruns :
    NextWrite (idleWith [.write 32 0x018 1]) 0x018 1 [] ∧ (idleWith [.write 32 0x018 1]).seq = .idle ∧
      NextWrite (busyWith 2 [.write 32 0x018 1]) 0x018 1 [] ∧ (busyWith 2 [.write 32 0x018 1]).seq = .busy 2 :=
  ⟨nextWrite_idleWith _ _ (by decide), rfl, nextWrite_busyWith _ _ _ (by decide), rfl⟩

theorem witness_BusyLocksInputs :
    (∀ off, off < 0x40000 → NextWrite (busyWith 2 [.write 32 off 5]) off 5 []) ∧
      (∀ off, (busyWith 2 [.write 32 off 5]).seq = .busy 2) ∧
      wordOffset 0x01C ∈ [0x01C, 0x020, 0x030, 0x034, 0x038, 0x03C, 0x040, 0x044, 0x048, 0x04C, 0x050] ∧
      wordOffset 0x053 ∈ [0x01C, 0x020, 0x030, 0x034, 0x038, 0x03C, 0x040, 0x044, 0x048, 0x04C, 0x050] ∧
      (0x10000 ≤ 0x10000 ∧ 0x10000 < 0x20000) ∧ (0x10000 ≤ 0x1FFFF ∧ 0x1FFFF < 0x20000) :=
  ⟨fun _ h => nextWrite_busyWith _ _ _ h, fun _ => rfl, by decide, by decide, by decide, by decide⟩

theorem witness_CommandIsAtomic : drawBytes (.mac 0) = none := rfl

theorem witness_InputsStableWhileBusy :
    step (busyWith 2 [.read 32 0x018]) = .next { busyWith 2 [] with rdata := some 0 } ∧
      (busyWith 2 [.read 32 0x018]).seq = .busy 2 ∧ ({ busyWith 2 [] with rdata := some 0 } : State).seq = .busy 2 :=
  ⟨rfl, rfl, rfl⟩

theorem witness_BusyEndsByCompletionOrReset :
    ∃ t, step (busyWith 0x0000000D [.progress]) = .next t ∧ (busyWith 0x0000000D [.progress]).seq = .busy 0x0000000D ∧
      t.seq = .idle ∧ (busyWith 0x0000000D [.progress]).done = false ∧ t.done = true :=
  ⟨_, rfl, rfl, rfl, rfl, rfl⟩

theorem witness_OverrunSetAndCleared :
    (NextWrite (busyWith 2 [.write 32 0x018 1]) 0x018 1 [] ∧ (busyWith 2 [.write 32 0x018 1]).seq = .busy 2) ∧
    (NextWrite (idleWith [.write 32 0x014 0x20]) 0x014 0x20 [] ∧ (0x20 : Word).getLsbD 5 = true) ∧
    IsReset State.reset ∧
    (NextWrite (idleWith [.write 32 0x018 1]) 0x018 1 [] ∧ (idleWith [.write 32 0x018 1]).seq = .idle) ∧
    (∃ t, step (busyWith 2 [.write 32 0x018 1]) = .next t ∧ (busyWith 2 [.write 32 0x018 1]).overrun = false ∧
      t.overrun = true) ∧
    (∃ t, step { idleWith [.write 32 0x014 0x20] with overrun := true } = .next t ∧ t.overrun = false) :=
  ⟨⟨nextWrite_busyWith _ _ _ (by decide), rfl⟩, ⟨nextWrite_idleWith _ _ (by decide), by decide⟩, rfl,
    ⟨nextWrite_idleWith _ _ (by decide), rfl⟩, ⟨_, rfl, rfl, rfl⟩, ⟨_, rfl, rfl⟩⟩

theorem witness_EntropyAnswers :
    (({ busyWith 2 [.entropyAnswer (bytesOf 32 7)] with entropy := .waiting 32 } : State).entropy =
      .waiting (bytesOf 32 7).length) ∧
    ((idleWith [.entropyAnswer [7]]).inputs = [.entropyAnswer [7]] ∧
      ∀ n, (idleWith [.entropyAnswer [7]]).entropy ≠ .waiting n) ∧
    (∀ n, ({ busyWith 2 [.entropyAnswer [7]] with entropy := .answered (bytesOf 32 7) } : State).entropy ≠ .waiting n) ∧
    (idleWith [.staleEntropy [7]]).inputs = [.staleEntropy [7]] :=
  ⟨rfl, ⟨rfl, nofun⟩, nofun, rfl⟩

theorem witness_RegisterStoresItsField :
    (0x050, 0x0000003F) ∈ ([(0x04C, 0x000000FF), (0x050, 0x0000003F)] : List (Nat × Word)) ∧
      NextWrite (idleWith [.write 32 0x050 0xFFFFFFFF]) 0x050 0xFFFFFFFF [] ∧
      (idleWith [.write 32 0x050 0xFFFFFFFF]).seq = .idle :=
  ⟨by decide, nextWrite_idleWith _ _ (by decide), rfl⟩

theorem witness_ReadOnlyWordsIgnoreWrites :
    (∀ off, off < 0x40000 → NextWrite (idleWith [.write 32 off 5]) off 5 []) ∧
      wordOffset 0x000 ∈ [0x000, 0x004, 0x008, 0x00C, 0x024, 0x028] ∧
      wordOffset 0x02B ∈ [0x000, 0x004, 0x008, 0x00C, 0x024, 0x028] ∧
      (0x20000 ≤ 0x20000 ∧ 0x20000 < 0x30000) ∧ (0x20000 ≤ 0x2FFFF ∧ 0x2FFFF < 0x30000) :=
  ⟨fun _ h => nextWrite_idleWith _ _ h, by decide, by decide, by decide, by decide⟩

theorem witness_ResetSatisfiesInvariant :
    Config.default.Legal ∧ (⟨0x40000, 128, 128, 1⟩ : Config).Legal ∧ (⟨0, 65536, 65536, 65536⟩ : Config).Legal := by decide

theorem witness_ReadOnlyRegisterValues : State.reset.cfg.Legal := by decide

theorem witness_StatusWriteOneClears : NextWrite (idleWith [.write 32 0x014 0x22]) 0x014 0x22 [] :=
  nextWrite_idleWith _ _ (by decide)

theorem witness_CtrlWriteResetsOrEnables :
    NextWrite (idleWith [.write 32 0x010 3]) 0x010 3 [] ∧ (3 : Word).getLsbD 1 = true ∧
      NextWrite (idleWith [.write 32 0x010 1]) 0x010 1 [] ∧ (1 : Word).getLsbD 1 = false :=
  ⟨nextWrite_idleWith _ _ (by decide), by decide, nextWrite_idleWith _ _ (by decide), by decide⟩

theorem witness_RstResetsAndHolds :
    (idleWith [.rst true]).inputs = [.rst true] ∧
    (∀ i, ({ idleWith [i] with rst := true } : State).rst = true) ∧ 0x3FFFF < 0x40000 ∧
    (idleWith [.write 32 0x3FFFF 1]).inputs = [.write 32 ((idleWith []).cfg.base + 0x3FFFF) 1] ∧
    (idleWith [.read 32 0x3FFFF]).inputs = [.read 32 ((idleWith []).cfg.base + 0x3FFFF)] ∧
    (idleWith [.rst false]).inputs = [.rst false] :=
  ⟨rfl, fun _ => rfl, by decide, rfl, rfl, rfl⟩

theorem witness_ResetValues :
    (∃ t, (busyWith 2 [.rst true]).inputs = [.rst true] ∧ step (busyWith 2 [.rst true]) = .next t) ∧
    (∃ t, NextWrite (busyWith 2 [.write 32 0x010 2]) 0x010 2 [] ∧ (2 : Word).getLsbD 1 = true ∧
      step (busyWith 2 [.write 32 0x010 2]) = .next t) :=
  ⟨⟨_, rfl, rfl⟩, ⟨_, nextWrite_busyWith _ _ _ (by decide), by decide, rfl⟩⟩

theorem witness_InterruptFollowsDone :
    IsReset State.reset ∧
    (∃ t, step (busyWith 0x0000000D [.progress]) = .next t ∧ t.seq = .idle ∧ ¬ IsReset t) ∧
    (NextWrite (idleWith [.write 32 0x014 2]) 0x014 2 [] ∧ (2 : Word).getLsbD 1 = true) ∧
    (NextWrite { idleWith [.write 32 0x010 1] with done := true } 0x010 1 [] ∧ (1 : Word).getLsbD 0 = true ∧
      (1 : Word).getLsbD 1 = false) ∧
    (NextWrite (idleWith [.write 32 0x018 2]) 0x018 2 [] ∧ (idleWith [.write 32 0x018 2]).seq = .idle) ∧
    (∃ t, step { busyWith 0x0000000D [.progress] with irqEn := true } = .next t ∧
      ({ busyWith 0x0000000D [.progress] with irqEn := true } : State).irq = false ∧ t.irq = true) :=
  ⟨rfl, ⟨_, rfl, rfl, by intro h; exact absurd (congrArg State.done h) (by decide)⟩,
    ⟨nextWrite_idleWith _ _ (by decide), by decide⟩, ⟨⟨rfl, by decide, rfl⟩, by decide, by decide⟩,
    ⟨nextWrite_idleWith _ _ (by decide), rfl⟩, ⟨_, rfl, rfl, rfl⟩⟩

theorem witness_ReadsHaveNoSideEffect :
    NextRead (idleWith [.read 32 0x3FFFF]) 0x3FFFF [] ∧ State.reset.cfg.Legal ∧ 4 * 1023 < State.reset.cfg.ibufBytes ∧
      State.reset.seq = .idle ∧ 4 * 2047 < State.reset.cfg.obufBytes :=
  ⟨nextRead_idleWith _ (by decide), by decide, by decide, rfl, by decide⟩

theorem witness_ReservedWordsAreInert :
    State.reset.cfg.Legal ∧ wordOffset 0x02C = 0x02C ∧ (0x054 ≤ 0x054 ∧ 0x054 < 0x10000) ∧
      (0x054 ≤ 0xFFFF ∧ 0xFFFF < 0x10000) ∧ (0x10000 + State.reset.cfg.ibufBytes ≤ 0x11000 ∧ 0x11000 < 0x20000) ∧
      (0x20000 + State.reset.cfg.obufBytes ≤ 0x22000 ∧ 0x22000 < 0x30000) ∧ 0x30000 ≤ 0x3FFFF ∧
      NextRead (idleWith [.read 32 0x3FFFF]) 0x3FFFF [] ∧ NextWrite (idleWith [.write 32 0x054 1]) 0x054 1 [] :=
  ⟨by decide, by decide, by decide, by decide, by decide, by decide, by decide, nextRead_idleWith _ (by decide),
    nextWrite_idleWith _ _ (by decide)⟩

theorem witness_LowAddressBitsIgnored : State.reset.cfg.Legal ∧ 0x3FFFF < 0x40000 := by decide

theorem witness_IbufWordStoresFourBytes :
    (idleWith [.write 32 0x10FFC 0x04030201]).cfg.Legal ∧ (idleWith [.write 32 0x10FFC 0x04030201]).ibuf.wf ∧
      4 * 1023 < (idleWith []).cfg.ibufBytes ∧
      NextWrite (idleWith [.write 32 0x10FFC 0x04030201]) (0x10000 + 4 * 1023) 0x04030201 [] ∧
      (idleWith [.write 32 0x10FFC 0x04030201]).seq = .idle :=
  ⟨by decide, Memory.wf_zeros, by decide, nextWrite_idleWith _ _ (by decide), rfl⟩

theorem witness_ObufReadsZeroWhileBusy :
    (busyWith 2 [.read 32 0x2FFFF]).seq = .busy 2 ∧ 0x20000 ≤ 0x2FFFF ∧ 0x2FFFF < 0x30000 ∧
      NextRead (busyWith 2 [.read 32 0x2FFFF]) 0x2FFFF [] :=
  ⟨rfl, by decide, by decide, nextRead_busyWith _ _ (by decide)⟩

theorem witness_OtherAccessesStop :
    (State.reset.cfg.base ≤ 0x3FFFF ∧ 0x3FFFF < State.reset.cfg.base + 0x40000 ∧ (16 : Nat) ≠ 32) ∧
      State.reset.cfg.base + 0x40000 ≤ 0x40000 ∧ 0x3FFFF < ({ State.reset.cfg with base := 0x40000 } : Config).base := by
  decide

theorem witness_AesDecInvertsAesEnc : (bytesOf 16 0).length = 16 := by decide

theorem witness_CbcDecryptInvertsEncrypt : (bytesOf 16 0).length = 16 ∧ (bytesOf 16 0).length = 16 := by decide

/-- The overflow clause needs illegal parameters (40_block_cipher.md R440: it "never occurs under the parameter constraints"). -/
theorem witness_CbcEncryptResult :
    (withOperand (bytesOf 31 0)).inLength < 32 ∧
    ({ State.reset with inLen := 4097 } : State).cfg.ibufBytes < ({ State.reset with inLen := 4097 } : State).inLength ∧
    (32 ≤ (withOperand (bytesOf 32 0)).inLength ∧ (withOperand (bytesOf 32 0)).inLength ≤ State.reset.cfg.ibufBytes ∧
      16 = 16 * (((withOperand (bytesOf 32 0)).inLength - 32) / 16 + 1) ∧ 16 ≤ State.reset.cfg.obufBytes) ∧
    (32 ≤ ({ State.resetFor ⟨0, 64, 16, 1⟩ with inLen := 48 } : State).inLength ∧
      ({ State.resetFor ⟨0, 64, 16, 1⟩ with inLen := 48 } : State).inLength ≤ 64 ∧ 16 < 32) ∧
    State.reset.cfg.Legal := by
  decide

theorem witness_CbcDecryptResult :
    State.reset.cfg.Legal ∧ (withOperand (bytesOf 47 0)).inLength < 48 ∧
    ((withOperand (bytesOf 49 0)).inLength - 32) % 16 ≠ 0 ∧
    (48 ≤ (cbcOperand 0).inLength ∧ (cbcOperand 0).inLength ≤ (cbcOperand 0).cfg.ibufBytes ∧
      ((cbcOperand 0).inLength - 32) % 16 = 0) ∧
    (let s := cbcOperand 0x50fe67cc996d32b6da0937e99bafec60;
      cbcDecrypt (s.ibufRange 0 16) (s.ibufRange 16 32) (s.ibufRange 32 48) = .error .padFail) ∧
    (let s := cbcOperand 0xc84af0b613435d5d9182801a9bd9320b;
      cbcDecrypt (s.ibufRange 0 16) (s.ibufRange 16 32) (s.ibufRange 32 48) = .ok []) := by
  decide +kernel

theorem witness_MacResult :
    State.reset.cfg.Legal ∧ ((0 : BitVec 2) = 0 ∧ HashAlg.sha1 = .sha1 ∧ 20 = 20) ∧
      ((1 : BitVec 2) = 1 ∧ HashAlg.sha256 = .sha256 ∧ 32 = 32) ∧
      ({ withOperand [1] with auxLen := 2 } : State).inLength < ({ withOperand [1] with auxLen := 2 } : State).auxLength ∧
      (({ withOperand [1] with auxLen := 1 } : State).auxLength ≤ (withOperand [1]).inLength ∧
        (withOperand [1]).inLength ≤ State.reset.cfg.ibufBytes) := by
  decide

theorem witness_Base64IsCanonical : b64Decode [0x5A, 0x67, 0x3D, 0x3D] = some [0x66] := by decide

theorem witness_TokenSizes : (bytesOf 16 0).length = 16 := by decide

theorem witness_KeyLoadResult :
    (withKey []).keyValid = true ∧
    (State.reset.keyValid = false ∧ State.reset.cfg.ibufBytes < ({ State.reset with inLen := 4097 } : State).inLength) ∧
    ((withOperand (bytesOf 31 0)).inLength ≤ State.reset.cfg.ibufBytes ∧
      (withOperand (bytesOf 31 0)).primaryInput.length ≠ 32) ∧
    ((withOperand (bytesOf 32 0)).primaryInput.length = 32 ∧ (withOperand (bytesOf 32 0)).keyValid = false ∧
      (withOperand (bytesOf 32 0)).inLength ≤ State.reset.cfg.ibufBytes) := by
  decide

theorem witness_KeyGenerateResult :
    State.reset.entropy = .idle ∧ ({ State.reset with entropy := .waiting 32 } : State).entropy = .waiting 32 ∧
      ({ State.reset with entropy := .answered (bytesOf 32 7) } : State).entropy = .answered (bytesOf 32 7) ∧
      (bytesOf 32 7).length = 32 := by
  decide

theorem witness_TokenEncryptResult :
    State.reset.cfg.Legal ∧ State.reset.keyValid = false ∧
    ((withKey []).keyValid = true ∧ (withKey []).cfg.ibufBytes < ({ withKey [] with inLen := 4097 } : State).inLength) ∧
    (({ withKey [] with inLen := 128, cfg := ⟨0, 128, 128, 1⟩ } : State).inLength ≤ 128 ∧ 128 < tokenLength true 128) ∧
    ((withKey []).inLength ≤ (withKey []).cfg.ibufBytes ∧
      tokenLength false (withKey []).inLength ≤ (withKey []).cfg.obufBytes ∧ (withKey []).entropy = .idle ∧
      ({ withKey [] with entropy := .waiting 16 } : State).entropy = .waiting 16 ∧
      ({ withKey [] with entropy := .answered (bytesOf 16 7) } : State).entropy = .answered (bytesOf 16 7) ∧
      (bytesOf 16 7).length = 16) := by
  decide

/-- The token of the example of 42_token_codec.md R630, 60 seconds before its timestamp, meets every check. -/
theorem witness_TokenDecryptResult :
    State.reset.cfg.Legal ∧ State.reset.keyValid = false ∧
    (withKey []).cfg.ibufBytes < ({ withKey [] with inLen := 4097 } : State).inLength ∧
    ((withKey exampleToken).keyValid = true ∧ (withKey exampleToken).inLength ≤ (withKey exampleToken).cfg.ibufBytes) ∧
    TokenAccepted { withKey exampleToken with timeLo := 1699999940 } true exampleToken (hex 11 0x68656c6c6f20776f726c64) ∧
    (∀ r, ¬ TokenAccepted (withKey []) true [] r) :=
  ⟨by decide, rfl, by decide, by decide +kernel,
    ⟨by decide, by decide +kernel, by decide, fun _ => by decide, by decide, by decide +kernel⟩,
    fun _ h => absurd h.length (by decide)⟩

theorem witness_TokenFailuresAreOpaque :
    (withKey []).cfg.Legal ∧ (withKey []).keyValid = true ∧ (withKey []).inLength ≤ (withKey []).cfg.ibufBytes ∧
      (∃ t, exec (.tokenDecrypt true true) (withKey []) = .next t ∧ t.errCode ≠ .ok) ∧
      (∃ u, exec (.tokenDecrypt true true) { withKey [] with ibuf := [(0, 1)] } = .next u ∧ u.errCode ≠ .ok) :=
  ⟨by decide, rfl, by decide, ⟨_, rfl, by decide⟩, ⟨_, rfl, by decide⟩⟩

/-- A state of the invariant with the smallest buffers and a key, in which TOKEN_ENCRYPT.raw has its entropy answered. -/
def drawnState : State :=
  { (State.resetFor ⟨0x40000, 128, 128, 4⟩).start 0x00000103 with
    keySk := bytesOf 16 1, keyEk := bytesOf 16 2, keyValid := true, entropy := .answered (bytesOf 16 3),
    inputs := [.progress] }

theorem invariant_drawnState : Invariant drawnState where
  cfg := by decide
  ibufWf := Memory.wf_zeros
  ibufBelow := fun _ h => absurd h List.not_mem_nil
  obufWf := Memory.wf_zeros
  obufBelow := fun _ h => absurd h List.not_mem_nil
  outLen := by decide
  keySk := by decide
  keyEk := by decide
  keyZero := fun h => absurd h (by decide)
  secret := by decide
  secretLen := by decide
  secretTail := by decide
  secretZero := fun _ => rfl
  entropy := ⟨0x00000103, .tokenEncrypt true, rfl, by decide, rfl⟩
  busy := fun _ => ⟨rfl, rfl, rfl, rfl, rfl⟩
  failed := fun h => absurd rfl h
  matched := fun h => absurd h (by decide)
  rst := fun h => absurd h (by decide)

/-- The state after TOKEN_ENCRYPT, with the token moved to IBUF: TIME 0, which is within 60 seconds of the timestamp 0. -/
theorem witness_TokenRoundTrip :
    ∃ t u : State, Invariant drawnState ∧ drawnState.keyValid = true ∧ drawnState.inLength ≤ drawnState.cfg.ibufBytes ∧
      tokenLength true drawnState.inLength ≤ drawnState.cfg.obufBytes ∧ drawnState.entropy = .answered (bytesOf 16 3) ∧
      (bytesOf 16 3).length = 16 ∧ exec (.tokenEncrypt true) drawnState = .next t ∧ SameKeyStore drawnState u ∧
      u.cfg = drawnState.cfg ∧ u.inLen = t.outLen ∧ u.inLength ≤ u.cfg.ibufBytes ∧
      (∀ a, a < t.outLen.toNat → u.ibuf.read a = t.obuf.read a) ∧ drawnState.time ≤ u.time + 60 ∧
      u.time ≤ drawnState.time + u.ttl := by
  refine ⟨drawnState.finish (rawToken (bytesOf 16 1) (bytesOf 16 2) (bytesOf 16 3) 0 []),
    { drawnState with
      ibuf := (drawnState.finish (rawToken (bytesOf 16 1) (bytesOf 16 2) (bytesOf 16 3) 0 [])).obuf
      inLen := (drawnState.finish (rawToken (bytesOf 16 1) (bytesOf 16 2) (bytesOf 16 3) 0 [])).outLen },
    invariant_drawnState, rfl, by decide, by decide, rfl, by decide, rfl, ⟨rfl, rfl, rfl⟩, rfl, rfl, ?_,
    fun _ _ => rfl, by decide, by decide⟩
  simp only [State.finish_eq, State.inLength, State.complete_outLen, length_rawToken _ _ (show (bytesOf 16 3).length = 16 by decide)]
  decide

theorem witness_OtpCodesAreDigits : 1 ≤ 1 ∧ 1 ≤ 10 ∧ 1 ≤ 10 ∧ 10 ≤ 10 := by decide

theorem witness_SecretLoadResult :
    (withSecret []).secretValid = true ∧
    (State.reset.secretValid = false ∧ State.reset.cfg.ibufBytes < ({ State.reset with inLen := 4097 } : State).inLength) ∧
    b32Decode (withOperand [0x31]).primaryInput = none ∧
    (State.reset.cfg.secretMax < (withOperand (bytesOf 65 1)).primaryInput.length ∧
      (withOperand (bytesOf 65 1)).inLength ≤ State.reset.cfg.ibufBytes) ∧
    ((withOperand (bytesOf 64 1)).primaryInput.length ≤ State.reset.cfg.secretMax ∧
      (withOperand (bytesOf 64 1)).secretValid = false) := by
  decide +kernel

/-- OTP_CFG at its boundaries: DIGITS 1 and 10, DIGITS 0 and 11, HASH 1 and 2. -/
theorem witness_OtpGenerateResult :
    State.reset.secretValid = false ∧ (withSecret []).secretValid = true ∧
    OtpCfgIllegal { withSecret [] with otpCfg := 0 } ∧ OtpCfgIllegal { withSecret [] with otpCfg := 11 } ∧
    OtpCfgIllegal { withSecret [] with otpCfg := 0x26 } ∧
    (({ withSecret [] with otpCfg := 1 } : State).digits = 1 ∧ OtpHash { withSecret [] with otpCfg := 1 } .sha1) ∧
    (({ withSecret [] with otpCfg := 0x1A } : State).digits = 10 ∧ OtpHash { withSecret [] with otpCfg := 0x1A } .sha256) :=
  ⟨rfl, rfl, .inl (by decide), .inr (.inl (by decide)), .inr (.inr (by decide)), ⟨by decide, .inl (by decide)⟩,
    ⟨by decide, .inr (by decide)⟩⟩

theorem witness_OtpNowResult :
    State.reset.secretValid = false ∧ (withSecret []).secretValid = true ∧
    ({ withSecret [] with interval := 0 } : State).interval = 0 ∧
    (1 ≤ (withSecret []).digits ∧ (withSecret []).digits ≤ 10 ∧ OtpHash (withSecret []) .sha1 ∧
      (withSecret []).interval ≠ 0) :=
  ⟨rfl, rfl, rfl, by decide, by decide, .inl (by decide), by decide⟩

/-- The time-steps 2 and 2^64 - 3 with WINDOW = 2 are the last ones in range, 1 and 2^64 - 2 the first ones out of it. -/
theorem witness_OtpVerifyResult :
    State.reset.secretValid = false ∧ (withSecret []).secretValid = true ∧
    (withSecret []).cfg.ibufBytes < ({ withSecret [] with inLen := 4097 } : State).inLength ∧
    (let s : State := { withSecret [] with interval := 1, window := 2, timeLo := 1, argLo := 0xFFFFFFFE, argHi := 0xFFFFFFFF };
      s.inLength ≤ s.cfg.ibufBytes ∧ s.time / s.interval.toNat < s.window.toNat ∧
        2 ^ 64 - 1 < s.arg / s.interval.toNat + s.window.toNat) ∧
    (let s : State := { withSecret [] with interval := 1, window := 2, timeLo := 2, argLo := 0xFFFFFFFD, argHi := 0xFFFFFFFF };
      s.inLength ≤ s.cfg.ibufBytes ∧ 1 ≤ s.digits ∧ s.digits ≤ 10 ∧ s.interval ≠ 0 ∧
        s.window.toNat ≤ s.time / s.interval.toNat ∧ s.time / s.interval.toNat + s.window.toNat ≤ 2 ^ 64 - 1 ∧
        s.arg / s.interval.toNat + s.window.toNat ≤ 2 ^ 64 - 1) ∧
    OtpHash (withSecret []) .sha1 ∧ OtpCfgIllegal { withSecret [] with otpCfg := 0 } :=
  ⟨rfl, rfl, by decide, by decide, by decide, .inl (by decide), .inl (by decide)⟩

theorem witness_OtpUriResult :
    State.reset.cfg.Legal ∧ State.reset.secretValid = false ∧ (withSecret []).secretValid = true ∧
    (withSecret []).inLength < ({ withSecret [] with auxLen := 1 } : State).auxLength ∧
    ((withSecret [1]).auxLength ≤ (withSecret [1]).inLength ∧ (withSecret [1]).inLength ≤ (withSecret [1]).cfg.ibufBytes ∧
      32 + (withSecret [1]).inLength + (withSecret [1]).auxLength + (8 * (withSecret [1]).secretBytes.length + 4) / 5 ≤
        (withSecret [1]).cfg.obufBytes) ∧
    (let s : State := { withSecret [1] with cfg := ⟨0, 128, 128, 64⟩, inLen := 128, auxLen := 128 };
      s.cfg.Legal ∧ s.auxLength ≤ s.inLength ∧ s.inLength ≤ s.cfg.ibufBytes ∧
        s.cfg.obufBytes < 32 + s.inLength + s.auxLength + (8 * s.secretBytes.length + 4) / 5) := by
  decide

theorem witness_FailureLeavesNoOutput :
    ∃ t, (busyWith 0x00000001 [.progress]).seq = .busy 0x00000001 ∧
      SequencerNext (busyWith 0x00000001 [.progress]) [] ∧ step (busyWith 0x00000001 [.progress]) = .next t ∧
      t.seq = .idle ∧ t.errCode = .invalidKeyMaterial ∧ decode 0x00000001 = .ok (.keyLoad false) :=
  ⟨_, rfl, .inl rfl, rfl, rfl, rfl, by decide⟩

theorem witness_SuccessWritesItsOutput :
    ∃ t, Invariant drawnState ∧ drawnState.seq = .busy 0x00000103 ∧ SequencerNext drawnState [] ∧
      step drawnState = .next t ∧ t.seq = .idle ∧ t.errCode = .ok :=
  ⟨_, invariant_drawnState, rfl, .inl rfl, rfl, rfl, rfl⟩

theorem witness_CodesOfEachCommand :
    (Instr.mac 1).wellFormed = true ∧ ∃ t, exec (.mac 1) State.reset = .next t := ⟨by decide, ⟨_, rfl⟩⟩

theorem witness_LoadedKeyIsImmutable :
    (∃ t, step { withKey [] with inputs := [.read 32 0] } = .next t) ∧ (withKey []).keyValid = true :=
  ⟨⟨_, rfl⟩, rfl⟩

theorem witness_LoadedSecretIsImmutable :
    (∃ t, step { withSecret [] with inputs := [.read 32 0] } = .next t) ∧ (withSecret []).secretValid = true :=
  ⟨⟨_, rfl⟩, rfl⟩

/-- ZEROIZE in progress on a loaded key: no TOKEN_ENCRYPT and no TOKEN_DECRYPT. -/
theorem witness_KeyBytesStayInTheStore :
    (∃ t, step (busyWith 0x0000000D [.progress]) = .next t) ∧
      ∀ w i rest, (busyWith 0x0000000D [.progress]).seq = .busy w → decode w = .ok i →
        SequencerNext (busyWith 0x0000000D [.progress]) rest →
        (∀ raw, i ≠ .tokenEncrypt raw) ∧ (∀ raw ttlEn, i ≠ .tokenDecrypt raw ttlEn) := by
  refine ⟨⟨_, rfl⟩, fun w i _ hs hd _ => ?_⟩
  cases hs
  have hz : decode 0x0000000D = .ok .zeroize := by decide
  rw [hz] at hd
  cases hd
  exact ⟨nofun, nofun⟩

theorem witness_SecretBytesStayInTheStore :
    (∃ t, step (busyWith 0x0000000D [.progress]) = .next t) ∧
      ∀ w i rest, (busyWith 0x0000000D [.progress]).seq = .busy w → decode w = .ok i →
        SequencerNext (busyWith 0x0000000D [.progress]) rest →
        i ≠ .otpGenerate ∧ i ≠ .otpNow ∧ (∀ f, i ≠ .otpVerify f) ∧ i ≠ .otpUri := by
  refine ⟨⟨_, rfl⟩, fun w i _ hs hd _ => ?_⟩
  cases hs
  have hz : decode 0x0000000D = .ok .zeroize := by decide
  rw [hz] at hd
  cases hd
  exact ⟨nofun, nofun, nofun, nofun⟩

theorem witness_StepKeepsInvariant : Invariant drawnState ∧ ∃ t, step drawnState = .next t :=
  ⟨invariant_drawnState, ⟨_, rfl⟩⟩

end Sys2Proof.Tests
end

section
/-! PROOFS. The two stores over one step: who changes them, and that a loaded store is changed by ZEROIZE and reset only
(10_state.md R140, R143). -/

namespace Sys2Proof.Machine

variable {s t : State} {i : Instr}

/-! ### The word of ZEROIZE -/

/-- A decoded word comes from a row of the opcode map that it matches (30_encoding.md R308). -/
theorem exists_row_of_decode {w : Word} (h : decode w = .ok i) :
    ∃ r ∈ opcodeRows, w &&& r.mask = r.matchWord ∧ i = r.command w := by
  unfold decode at h
  split at h
  next r hr =>
    cases h
    exact ⟨r, List.mem_of_find?_eq_some hr, by simpa using List.find?_some hr, rfl⟩
  next => cases h

/-- ZEROIZE has one word, for its mask is all ones (30_encoding.md R310). -/
theorem eq_of_decode_zeroize {w : Word} (h : decode w = .ok .zeroize) : w = 0x0000000D := by
  have hrow : ∀ r ∈ opcodeRows, r.command w = .zeroize → r.mask = BitVec.allOnes 32 ∧ r.matchWord = 0x0000000D := by
    simp [opcodeRows]
  obtain ⟨r, hr, hw, hi⟩ := exists_row_of_decode h
  obtain ⟨hmask, hmatch⟩ := hrow r hr hi.symm
  rwa [hmask, hmatch, BitVec.and_allOnes] at hw

/-! ### What a step does to the stores -/

/-- A command changes the key store by loading a key where there is none, or by zeroizing. -/
theorem CommandEffect.keyStore (h : CommandEffect i s t) :
    SameKeyStore s t ∨ s.keyValid = false ∨
      (i = .zeroize ∧ t.keySk = bytesOf 16 0 ∧ t.keyEk = bytesOf 16 0 ∧ t.keyValid = false) := by
  cases h with
  | loadsKey m hm hv hi => exact .inr (.inl hv)
  | zeroizes hi => exact .inr (.inr ⟨hi, rfl, rfl, rfl⟩)
  | _ => exact .inl ⟨rfl, rfl, rfl⟩

/-- A command changes the secret store by loading a secret where there is none, or by zeroizing. -/
theorem CommandEffect.secretStore (h : CommandEffect i s t) :
    SameSecretStore s t ∨ s.secretValid = false ∨
      (i = .zeroize ∧ t.secret = bytesOf s.cfg.secretMax 0 ∧ t.secretLen = 0 ∧ t.secretValid = false) := by
  cases h with
  | loadsSecret b hb hv hi => exact .inr (.inl hv)
  | zeroizes hi => exact .inr (.inr ⟨hi, rfl, rfl, rfl⟩)
  | _ => exact .inl ⟨rfl, rfl, rfl⟩

/-- A host write leaves both stores alone, or it resets. -/
theorem WriteEffect.stores {off : Nat} {v : Word} (h : WriteEffect s off v t) :
    (SameKeyStore s t ∧ SameSecretStore s t) ∨ IsReset t := by
  cases h with
  | input t hs h =>
    rw [h.eq]
    exact .inl ⟨⟨rfl, rfl, rfl⟩, rfl, rfl, rfl⟩
  | resets ho hv => exact .inr rfl
  | _ => exact .inl ⟨⟨rfl, rfl, rfl⟩, rfl, rfl, rfl⟩

/-- A step leaves both stores alone, or it resets, or a command goes on. -/
theorem stores_of_step (h : step s = .next t) :
    (SameKeyStore s t ∧ SameSecretStore s t) ∨ IsReset t ∨
      ∃ rest w i, SequencerNext s rest ∧ s.seq = .busy w ∧ decode w = .ok i ∧ CommandEffect i { s with inputs := rest } t := by
  cases step_effect h with
  | writes off v rest t hn h => exact h.stores.imp (fun ⟨⟨a, b, c⟩, d, e, f⟩ => ⟨⟨a, b, c⟩, d, e, f⟩) .inl
  | runs rest w i t hn hs hd he h => exact .inr (.inr ⟨rest, w, i, hn, hs, hd, h⟩)
  | drives b rest hi =>
    cases b
    · exact .inl ⟨⟨rfl, rfl, rfl⟩, rfl, rfl, rfl⟩
    · exact .inr (.inl rfl)
  | _ => exact .inl ⟨⟨rfl, rfl, rfl⟩, rfl, rfl, rfl⟩

/-! ### A load on a loaded store -/

theorem exec_keyLoad_of_loaded (raw : Bool) (h : s.keyValid = true) :
    exec (.keyLoad raw) s = .next (s.raiseError .locked).zeroIbuf := by
  simp only [exec, execKeyLoad, if_pos h]

theorem exec_secretLoad_of_loaded (raw : Bool) (h : s.secretValid = true) :
    exec (.secretLoad raw) s = .next (s.raiseError .locked).zeroIbuf := by
  simp only [exec, execSecretLoad, if_pos h]

/-! ### The obligations -/

/-- Settles O54: of the commands that can go on, only ZEROIZE changes a loaded key. -/
theorem loadedKeyIsImmutable : Obligations.LoadedKeyIsImmutable := by
  refine ⟨fun s t h hv => ?_, fun s raw hv => ⟨_, exec_keyLoad_of_loaded raw hv, failsZeroingIbuf_raiseError s _⟩⟩
  rcases stores_of_step h with ⟨hk, -⟩ | hr | ⟨rest, w, i, hn, hs, hd, hc⟩
  · exact .inl hk
  · exact .inr (.inl hr)
  · rcases hc.keyStore with ⟨hsk, hek, hval⟩ | hf | ⟨rfl, hz⟩
    · exact .inl ⟨hsk, hek, hval⟩
    · exact absurd (hv.symm.trans hf) Bool.noConfusion
    · exact .inr (.inr ⟨eq_of_decode_zeroize hd ▸ hs, ⟨rest, hn⟩, hz⟩)

/-- Settles O55: of the commands that can go on, only ZEROIZE changes a loaded secret. -/
theorem loadedSecretIsImmutable : Obligations.LoadedSecretIsImmutable := by
  refine ⟨fun s t h hv => ?_, fun s raw hv => ⟨_, exec_secretLoad_of_loaded raw hv, failsZeroingIbuf_raiseError s _⟩⟩
  rcases stores_of_step h with ⟨-, hk⟩ | hr | ⟨rest, w, i, hn, hs, hd, hc⟩
  · exact .inl hk
  · exact .inr (.inl hr)
  · rcases hc.secretStore with ⟨hsec, hlen, hval⟩ | hf | ⟨rfl, hz⟩
    · exact .inl ⟨hsec, hlen, hval⟩
    · exact absurd (hv.symm.trans hf) Bool.noConfusion
    · exact .inr (.inr ⟨eq_of_decode_zeroize hd ▸ hs, ⟨rest, hn⟩, hz⟩)

end Sys2Proof.Machine
end

section
/-! PROOFS. The contents of the stores reach nothing outside them (10_state.md R141): two runs that differ in the contents of a
store only stay so, as long as no command that uses that store goes on. -/

namespace Sys2Proof.Machine

variable {k e : Prop} {s t u v : State}

/-- The commands that compute with the key bytes (42_token_codec.md R630, R640). -/
def usesKey : Instr → Prop
  | .tokenEncrypt _ => True
  | .tokenDecrypt _ _ => True
  | _ => False

/-- The commands that compute with the secret (43_otp.md R725 to R750). -/
def usesSecret : Instr → Prop
  | .otpGenerate => True
  | .otpNow => True
  | .otpVerify _ => True
  | .otpUri => True
  | _ => False

/-- `u` is `s` but for the key bytes, which may differ where `k` holds, and the secret, which may differ where `e` holds. -/
inductive Twin (k e : Prop) (s : State) : State → Prop where
  | mk (sk ek sec : Bytes) (hk : ¬k → sk = s.keySk ∧ ek = s.keyEk) (he : ¬e → sec = s.secret) :
    Twin k e s { s with keySk := sk, keyEk := ek, secret := sec }

/-! ### The shared operations keep the two runs together -/

theorem Twin.refl (s : State) : Twin k e s s := .mk s.keySk s.keyEk s.secret (fun _ => ⟨rfl, rfl⟩) fun _ => rfl

theorem Twin.ite {c : Prop} [Decidable c] (h : Twin k e s u) (h' : Twin k e t v) :
    Twin k e (if c then s else t) (if c then u else v) := by
  split <;> assumption

theorem Twin.complete (h : Twin k e s u) (c : ErrCode) (out : Bytes) (m : Bool) :
    Twin k e (s.complete c out m) (u.complete c out m) := by
  obtain ⟨sk, ek, sec, hk, he⟩ := h
  exact .mk sk ek sec hk he

theorem Twin.zeroIbuf (h : Twin k e s u) : Twin k e s.zeroIbuf u.zeroIbuf := by
  obtain ⟨sk, ek, sec, hk, he⟩ := h
  exact .mk sk ek sec hk he

theorem Twin.setInputs (h : Twin k e s u) (l : List Input) : Twin k e { s with inputs := l } { u with inputs := l } := by
  obtain ⟨sk, ek, sec, hk, he⟩ := h
  exact .mk sk ek sec hk he

theorem Twin.drawEntropy (h : Twin k e s u) (n : Nat) {f g : Bytes → State} (hfg : ∀ b, Twin k e (f b) (g b)) :
    Twin k e (s.drawEntropy n f) (u.drawEntropy n g) := by
  have hent : u.entropy = s.entropy := by cases h; rfl
  unfold State.drawEntropy
  rw [hent]
  cases s.entropy with
  | idle =>
    obtain ⟨sk, ek, sec, hk, he⟩ := h
    exact .mk sk ek sec hk he
  | waiting m => exact h
  | answered b => exact hfg b

/-- After a load the key bytes no longer differ. -/
theorem Twin.loadKey (h : Twin k e s u) (m : Bytes) : Twin k e (s.loadKey m) (u.loadKey m) := by
  obtain ⟨sk, ek, sec, hk, he⟩ := h
  exact .mk _ _ sec (fun _ => ⟨rfl, rfl⟩) he

/-- After a load the secret no longer differs. -/
theorem Twin.loadSecret (h : Twin k e s u) (b : Bytes) : Twin k e (s.loadSecret b) (u.loadSecret b) := by
  obtain ⟨sk, ek, sec, hk, he⟩ := h
  exact .mk sk ek _ hk fun _ => rfl

/-- Cleared stores are alike. -/
theorem Twin.clearStores (h : Twin k e s u) : Twin k e s.clearStores u.clearStores := by
  obtain ⟨sk, ek, sec, hk, he⟩ := h
  exact .refl _

/-- A reset leaves the stores alike. -/
theorem Twin.toReset (h : Twin k e s u) : Twin k e s.toReset u.toReset := by
  obtain ⟨sk, ek, sec, hk, he⟩ := h
  exact .refl _

/-! ### What the commands read besides the stores' contents is the same in the two runs -/

theorem Twin.primaryInput (h : Twin k e s u) : u.primaryInput = s.primaryInput := by cases h; rfl

theorem Twin.inLength (h : Twin k e s u) : u.inLength = s.inLength := by cases h; rfl

theorem Twin.ibufRange (h : Twin k e s u) (a b : Nat) : u.ibufRange a b = s.ibufRange a b := by cases h; rfl

theorem Twin.time (h : Twin k e s u) : u.time = s.time := by cases h; rfl

theorem Twin.ttl (h : Twin k e s u) : u.ttl = s.ttl := by cases h; rfl

theorem Twin.otpConfig (h : Twin k e s u) : u.otpConfig = s.otpConfig := by cases h; rfl

/-- A command that does not use the contents that differ goes on alike in the two runs. -/
theorem Twin.exec {i : Instr} (h : Twin k e s u) (hik : k → ¬usesKey i) (hie : e → ¬usesSecret i) :
    ∃ t v, exec i s = .next t ∧ exec i u = .next v ∧ Twin k e t v := by
  have htwin := h
  obtain ⟨sk, ek, sec, hk, he⟩ := h
  have fails (c : ErrCode) := htwin.complete c [] false
  have outputs (out : Bytes) := htwin.complete .ok out false
  cases i with
  | keyLoad raw =>
    refine ⟨_, _, rfl, rfl, .zeroIbuf (.ite (fails _) (.ite (fails _) ?_))⟩
    rw [htwin.primaryInput]
    split
    · exact fails _
    · exact (htwin.loadKey _).complete ..
  | keyGenerate raw => exact ⟨_, _, rfl, rfl, htwin.drawEntropy _ fun _ => outputs _⟩
  | tokenEncrypt raw =>
    obtain ⟨rfl, rfl⟩ := hk fun h => hik h trivial
    exact ⟨_, _, rfl, rfl, .ite (fails _) (.ite (fails _) (.ite (fails _)
      (htwin.drawEntropy _ fun _ => outputs _)))⟩
  | tokenDecrypt raw ttlEn =>
    obtain ⟨rfl, rfl⟩ := hk fun h => hik h trivial
    refine ⟨_, _, rfl, rfl, .ite (fails _) (.ite (fails _) ?_)⟩
    rw [htwin.primaryInput, htwin.time, htwin.ttl]
    dsimp only
    split
    · exact fails _
    · split
      · exact fails _
      · exact outputs _
  | cbcEncrypt => exact ⟨_, _, rfl, rfl, .ite (fails _) (.ite (fails _) (outputs _))⟩
  | cbcDecrypt =>
    refine ⟨_, _, rfl, rfl, .ite (fails _) ?_⟩
    rw [htwin.inLength, htwin.ibufRange, htwin.ibufRange, htwin.ibufRange]
    split
    · exact fails _
    · exact fails _
    · exact outputs _
  | mac hsel =>
    refine ⟨_, _, rfl, rfl, ?_⟩
    split
    · exact fails _
    · exact .ite (fails _) (outputs _)
  | secretLoad raw =>
    refine ⟨_, _, rfl, rfl, .zeroIbuf (.ite (fails _) (.ite (fails _) ?_))⟩
    rw [htwin.primaryInput]
    split
    · exact fails _
    · exact .ite (fails _) ((htwin.loadSecret _).complete ..)
  | otpGenerate =>
    obtain rfl := he fun h => hie h trivial
    refine ⟨_, _, rfl, rfl, .ite (fails _) ?_⟩
    rw [htwin.otpConfig]
    split
    · exact fails _
    · exact outputs _
  | otpNow =>
    obtain rfl := he fun h => hie h trivial
    refine ⟨_, _, rfl, rfl, .ite (fails _) ?_⟩
    rw [htwin.otpConfig]
    split
    · exact fails _
    · exact .ite (fails _) (outputs _)
  | otpVerify forTime =>
    obtain rfl := he fun h => hie h trivial
    refine ⟨_, _, rfl, rfl, .ite (fails _) (.ite (fails _) ?_)⟩
    rw [htwin.otpConfig]
    split
    · exact fails _
    · exact .ite (fails _) (.ite (fails _) (htwin.complete ..))
  | otpUri =>
    obtain rfl := he fun h => hie h trivial
    exact ⟨_, _, rfl, rfl, .ite (fails _) (.ite (fails _) (.ite (fails _) (outputs _)))⟩
  | zeroize => exact ⟨_, _, rfl, rfl, htwin.clearStores.zeroIbuf.complete ..⟩

/-! ### Host accesses and the outside world -/

theorem Twin.unlessBusy (h : Twin k e s u) (h' : Twin k e t v) : Twin k e (s.unlessBusy t) (u.unlessBusy v) := by
  have hseq : u.seq = s.seq := by cases h; rfl
  unfold State.unlessBusy
  rw [hseq]
  split <;> assumption

theorem Twin.writeReg (h : Twin k e s u) (r : Reg) (x : Word) : Twin k e (s.writeReg r x) (u.writeReg r x) := by
  have h' := h
  cases h with | mk sk ek sec hk he =>
  cases r
  case ctrl => exact .ite h'.toReset (.mk sk ek sec hk he)
  case status => exact .mk sk ek sec hk he
  case cmd =>
    unfold State.writeReg State.writeCmd
    dsimp only
    split <;> exact .mk sk ek sec hk he
  all_goals first
    | exact h'
    | exact h'.unlessBusy (.mk sk ek sec hk he)

theorem Twin.memRead (h : Twin k e s u) (off : Nat) : u.memRead off = s.memRead off := by cases h; rfl

theorem Twin.memWrite (h : Twin k e s u) (off : Nat) (x : Word) : Twin k e (s.memWrite off x) (u.memWrite off x) := by
  have hcfg : u.cfg = s.cfg := by cases h; rfl
  unfold State.memWrite
  rw [hcfg]
  split
  · exact h.writeReg _ _
  · refine h.unlessBusy ?_
    obtain ⟨sk, ek, sec, hk, he⟩ := h
    exact .mk sk ek sec hk he
  · exact h
  · exact h

/-- The command in progress, if there is one, does not use the contents that differ. -/
def AvoidsStores (k e : Prop) (s : State) : Prop :=
  ∀ w i, s.seq = .busy w → decode w = .ok i → (k → ¬usesKey i) ∧ (e → ¬usesSecret i)

theorem Twin.runCommand (h : Twin k e s u) (hc : AvoidsStores k e s) :
    ∃ t v, runCommand s = .next t ∧ runCommand u = .next v ∧ Twin k e t v := by
  have hseq : u.seq = s.seq := by cases h; rfl
  unfold Machine.runCommand
  rw [hseq]
  cases hs : s.seq with
  | idle => exact ⟨s, u, rfl, rfl, h⟩
  | busy w =>
    cases hd : decode w with
    | ok i =>
      obtain ⟨hik, hie⟩ := hc w i hs hd
      simpa only [hd] using h.exec hik hie
    | error r => simpa only [hd] using ⟨_, _, rfl, rfl, h.complete ..⟩

theorem Twin.takeInput (h : Twin k e s u) (i : Input) (hc : i = .progress → AvoidsStores k e s)
    (ht : takeInput i s = .next t) : ∃ v, takeInput i u = .next v ∧ Twin k e t v := by
  cases i with
  | read bits addr =>
    have hcfg : u.cfg = s.cfg := by cases h; rfl
    have hrst : u.rst = s.rst := by cases h; rfl
    simp only [Machine.takeInput, hostRead, hcfg, hrst, h.memRead] at ht ⊢
    cases hoff : windowOffset s.cfg addr with
    | none => simp [hoff] at ht
    | some off =>
      simp only [hoff] at ht ⊢
      split_ifs at ht ⊢
      all_goals
        cases ht
        obtain ⟨sk, ek, sec, hk, he⟩ := h
        exact ⟨_, rfl, .mk sk ek sec hk he⟩
  | write bits addr x =>
    have hcfg : u.cfg = s.cfg := by cases h; rfl
    have hrst : u.rst = s.rst := by cases h; rfl
    simp only [Machine.takeInput, hostWrite, hcfg, hrst] at ht ⊢
    cases hoff : windowOffset s.cfg addr with
    | none => simp [hoff] at ht
    | some off =>
      simp only [hoff] at ht ⊢
      split_ifs at ht ⊢
      · cases ht
        exact ⟨_, rfl, h⟩
      · cases ht
        exact ⟨_, rfl, h.memWrite _ x⟩
  | entropyAnswer b =>
    have hent : u.entropy = s.entropy := by cases h; rfl
    simp only [Machine.takeInput, entropyAnswered, hent] at ht ⊢
    cases hs : s.entropy with
    | waiting n =>
      simp only [hs] at ht ⊢
      split_ifs at ht ⊢
      cases ht
      obtain ⟨sk, ek, sec, hk, he⟩ := h
      exact ⟨_, rfl, .mk sk ek sec hk he⟩
    | _ =>
      simp only [hs] at ht ⊢
      cases ht
      exact ⟨_, rfl, h⟩
  | staleEntropy b =>
    cases ht
    exact ⟨_, rfl, h⟩
  | progress =>
    obtain ⟨t', v, ht', hv, htv⟩ := h.runCommand (hc rfl)
    cases ht.symm.trans ht'
    exact ⟨v, hv, htv⟩
  | rst b =>
    cases ht
    refine ⟨_, rfl, .ite ?_ ?_⟩
    · obtain ⟨sk, ek, sec, hk, he⟩ := h
      exact .refl _
    · obtain ⟨sk, ek, sec, hk, he⟩ := h
      exact .mk sk ek sec hk he

theorem Twin.step (h : Twin k e s u) (hc : ∀ rest, SequencerNext s rest → AvoidsStores k e s) (ht : step s = .next t) :
    ∃ v, step u = .next v ∧ Twin k e t v := by
  have hin : u.inputs = s.inputs := by cases h; rfl
  unfold Machine.step stepInputs at ht ⊢
  rw [hin]
  cases hs : s.inputs with
  | nil =>
    rw [hs] at ht
    obtain ⟨t', v, ht', hv, htv⟩ := h.runCommand (hc [] (.inr ⟨hs, rfl⟩))
    cases ht.symm.trans ht'
    exact ⟨v, hv, htv⟩
  | cons i rest =>
    rw [hs] at ht
    exact (h.setInputs rest).takeInput i (fun hp => hc rest (.inl (hp ▸ hs))) ht

/-! ### The obligations -/

/-- Settles O56: two runs that differ in the key bytes stay so, for what goes on does not use the key. -/
theorem keyBytesStayInTheStore : Obligations.KeyBytesStayInTheStore := by
  intro s t sk ek ht hc
  have h : Twin True False s { s with keySk := sk, keyEk := ek } :=
    .mk sk ek s.secret (fun h => absurd trivial h) fun _ => rfl
  have havoids (rest) (hn : SequencerNext s rest) : AvoidsStores True False s := fun w i hs hd => by
    obtain ⟨h1, h2⟩ := hc w i rest hs hd hn
    refine ⟨fun _ => ?_, False.elim⟩
    cases i with
    | tokenEncrypt raw => exact fun _ => h1 raw rfl
    | tokenDecrypt raw ttlEn => exact fun _ => h2 raw ttlEn rfl
    | _ => exact id
  obtain ⟨v, hv, htv⟩ := h.step havoids ht
  obtain ⟨sk', ek', sec', -, hsec⟩ := htv
  obtain rfl := hsec id
  exact ⟨sk', ek', hv⟩

/-- Settles O57: two runs that differ in the secret stay so, for what goes on does not use the secret. -/
theorem secretBytesStayInTheStore : Obligations.SecretBytesStayInTheStore := by
  intro s t sec ht hc
  have h : Twin False True s { s with secret := sec } :=
    .mk s.keySk s.keyEk sec (fun _ => ⟨rfl, rfl⟩) fun h => absurd trivial h
  have havoids (rest) (hn : SequencerNext s rest) : AvoidsStores False True s := fun w i hs hd => by
    obtain ⟨h1, h2, h3, h4⟩ := hc w i rest hs hd hn
    refine ⟨False.elim, fun _ => ?_⟩
    cases i with
    | otpGenerate => exact fun _ => h1 rfl
    | otpNow => exact fun _ => h2 rfl
    | otpVerify forTime => exact fun _ => h3 forTime rfl
    | otpUri => exact fun _ => h4 rfl
    | _ => exact id
  obtain ⟨v, hv, htv⟩ := h.step havoids ht
  obtain ⟨sk', ek', sec', hkey, -⟩ := htv
  obtain ⟨rfl, rfl⟩ := hkey id
  exact ⟨sec', hv⟩

end Sys2Proof.Machine
end

section
/-! PROOFS. The invariant: it holds of the reset state, every shared operation keeps it, and so does every step (10_state.md
R122, R140, R142, R153, R170; 60_exceptions.md R902, R903; 70_reset_and_hazards.md R1000, R1001). -/

namespace Sys2Proof.Machine

variable {s t : State} {i : Instr}

/-! ### Reset -/

/-- The reset state of legal parameters satisfies the invariant (10_state.md R170). -/
theorem invariant_of_isReset (h : IsReset t) (hc : t.cfg.Legal) : Invariant t := by
  obtain ⟨c, l, r, b, rfl⟩ : ∃ c l r b, t = { State.resetFor c with inputs := l, rdata := r, rst := b } := ⟨_, _, _, _, h⟩
  exact {
    cfg := hc
    ibufWf := Memory.wf_zeros
    ibufBelow := fun _ h => absurd h List.not_mem_nil
    obufWf := Memory.wf_zeros
    obufBelow := fun _ h => absurd h List.not_mem_nil
    outLen := Nat.zero_le _
    keySk := rfl
    keyEk := rfl
    keyZero := fun _ => ⟨rfl, rfl⟩
    secret := List.length_replicate
    secretLen := Nat.zero_le _
    secretTail := rfl
    secretZero := fun _ => rfl
    entropy := trivial
    busy := nofun
    failed := fun h => absurd rfl h
    matched := nofun
    rst := fun _ => rfl }

/-- While BUSY, RST is released, for the reset state is IDLE. -/
theorem Invariant.released_of_busy (h : Invariant s) {w : Word} (hs : s.seq = .busy w) : s.rst = false := by
  cases hr : s.rst with
  | false => rfl
  | true => nomatch hs.symm.trans (congrArg State.seq (h.rst hr))

/-- While RST is released, the invariant asks nothing for it. -/
theorem of_released {p : Prop} (hr : s.rst = false) (h : s.rst = true) : p := nomatch h.symm.trans hr

/-! ### The outside world -/

/-- The invariant speaks of the next inputs and the last bus answer nowhere. -/
theorem Invariant.setOutside (h : Invariant s) (l : List Input) (r : Option Word) :
    Invariant { s with inputs := l, rdata := r } :=
  { h with rst := fun hr => congrArg (fun t : State => { t with inputs := l, rdata := r }) (h.rst hr) }

theorem Invariant.driveRst (h : Invariant s) (b : Bool) : Invariant (s.driveRst b) := by
  cases b with
  | true => exact invariant_of_isReset rfl h.cfg
  | false => exact { h with rst := nofun }

theorem Invariant.setEntropy (h : Invariant s) {p : EntropyPort} (hp : EntropyFits { s with entropy := p })
    (hr : s.rst = false) : Invariant { s with entropy := p } :=
  { h with
    entropy := hp
    rst := of_released hr }

/-- An answer of the requested length fits the command that asked (10_state.md R150). -/
theorem Invariant.answered (h : Invariant s) {b : Bytes} (he : s.entropy = .waiting b.length) :
    Invariant { s with entropy := .answered b } := by
  have hfits := h.entropy
  unfold EntropyFits at hfits
  rw [he] at hfits
  obtain ⟨w, i, hs, hd, hn⟩ := hfits
  exact h.setEntropy ⟨w, i, hs, hd, hn⟩ (h.released_of_busy hs)

/-! ### Host writes -/

theorem Invariant.inputWrite (h : Invariant s) (hw : InputWrite s t) (hr : s.rst = false) : Invariant t := by
  have hwf := hw.ibufWf h.ibufWf
  have hbelow := hw.ibufBelow h.cfg h.ibufBelow
  rw [hw.eq]
  exact { h with
    ibufWf := hwf
    ibufBelow := hbelow
    rst := of_released hr }

theorem Invariant.start (h : Invariant s) (w : Word) (hr : s.rst = false) : Invariant (s.start w) :=
  { h with
    obufWf := Memory.wf_zeros
    obufBelow := fun _ h => absurd h List.not_mem_nil
    outLen := Nat.zero_le _
    entropy := trivial
    busy := fun _ => ⟨rfl, rfl, rfl, rfl, rfl⟩
    failed := fun h => absurd rfl h
    matched := nofun
    rst := of_released hr }

theorem Invariant.writeStatus (h : Invariant s) (v : Word) (hr : s.rst = false) : Invariant (s.writeStatus v) :=
  { h with
    busy := fun hb => by
      obtain ⟨hdone, hrest⟩ := h.busy hb
      exact ⟨by simp [State.writeStatus, hdone], hrest⟩
    rst := of_released hr }

theorem Invariant.writeEffect {off : Nat} {v : Word} (h : Invariant s) (hr : s.rst = false)
    (hw : WriteEffect s off v t) : Invariant t := by
  cases hw with
  | ignored => exact h
  | input t hs hw => exact h.inputWrite hw hr
  | starts ho hs => exact h.start v hr
  | overruns ho w hs => exact { h with rst := of_released hr }
  | resets ho hv => exact invariant_of_isReset rfl h.cfg
  | enables ho hv => exact { h with rst := of_released hr }
  | clears ho => exact h.writeStatus v hr

/-! ### Commands -/

/-- A completion whose output fits OBUF (60_exceptions.md R902, R903). -/
theorem Invariant.complete (h : Invariant s) {c : ErrCode} {out : Bytes} {m : Bool} (hr : s.rst = false)
    (hlen : out.length ≤ s.cfg.obufBytes) (hc : c ≠ .ok → out = [] ∧ m = false) (hm : m = true → out = []) :
    Invariant (s.complete c out m) := by
  have hout : (s.complete c out m).outLen.toNat = out.length := by
    obtain ⟨-, -, -, -, -, -, hmax, -⟩ := h.cfg
    rw [State.complete_outLen, BitVec.toNat_ofNat, Nat.mod_eq_of_lt (by omega)]
  exact { h with
    obufWf := Memory.wf_ofBytes
    obufBelow := hout ▸ Memory.below_ofBytes
    outLen := hout ▸ hlen
    entropy := trivial
    busy := nofun
    failed := fun he => by
      obtain ⟨rfl, rfl⟩ := hc he
      exact ⟨rfl, rfl, rfl⟩
    matched := fun he => by
      obtain rfl := hm he
      rfl
    rst := of_released hr }

theorem Invariant.completeEmpty (h : Invariant s) (c : ErrCode) (hr : s.rst = false) :
    Invariant (s.complete c [] false) :=
  h.complete hr (Nat.zero_le _) (fun _ => ⟨rfl, rfl⟩) nofun

theorem Invariant.zeroIbuf (h : Invariant s) (hr : s.rst = false) : Invariant s.zeroIbuf :=
  { h with
    ibufWf := Memory.wf_zeros
    ibufBelow := fun _ h => absurd h List.not_mem_nil
    rst := of_released hr }

theorem Invariant.loadKey (h : Invariant s) {m : Bytes} (hm : m.length = 32) (hr : s.rst = false) :
    Invariant (s.loadKey m) :=
  { h with
    keySk := by simp [hm]
    keyEk := by simp [hm]
    keyZero := nofun
    rst := of_released hr }

theorem Invariant.loadSecret (h : Invariant s) {b : Bytes} (hb : b.length ≤ s.cfg.secretMax) (hr : s.rst = false) :
    Invariant (s.loadSecret b) :=
  { h with
    secret := by simp [hb]
    secretLen := hb
    secretTail := List.drop_left
    secretZero := nofun
    rst := of_released hr }

theorem Invariant.clearStores (h : Invariant s) (hr : s.rst = false) : Invariant s.clearStores :=
  { h with
    keySk := rfl
    keyEk := rfl
    keyZero := fun _ => ⟨rfl, rfl⟩
    secret := length_bytesOf _ _
    secretLen := Nat.zero_le _
    secretTail := rfl
    secretZero := fun _ => rfl
    rst := of_released hr }

/-- The entropy answered to the command in progress has the length it draws. -/
theorem Invariant.answerFits (h : Invariant s) {w : Word} (hs : s.seq = .busy w) (hd : decode w = .ok i) :
    AnswerFits i s := by
  intro b hb n hn
  have hfits := h.entropy
  unfold EntropyFits at hfits
  rw [hb] at hfits
  obtain ⟨w', i', hs', hd', hn'⟩ := hfits
  cases hs.symm.trans hs'
  cases hd.symm.trans hd'
  exact Option.some.inj (hn'.symm.trans hn)

theorem Invariant.commandEffect (h : Invariant s) {w : Word} (hs : s.seq = .busy w) (hd : decode w = .ok i)
    (he : CommandEffect i s t) : Invariant t := by
  have hr := h.released_of_busy hs
  cases he with
  | requests n hn he => exact h.setEntropy ⟨w, i, hs, hd, hn⟩ hr
  | holds n m hn he => exact h
  | fails c hc hi => exact h.completeEmpty c hr
  | outputs out hlen => exact h.complete hr (hlen h.cfg (h.answerFits hs hd)) (fun hc => absurd rfl hc) nofun
  | failsLoad c hc hi => exact (h.completeEmpty c hr).zeroIbuf hr
  | loadsKey m hm hv hi => exact ((h.loadKey hm hr).completeEmpty .ok hr).zeroIbuf hr
  | loadsSecret b hb hv hi => exact ((h.loadSecret hb hr).completeEmpty .ok hr).zeroIbuf hr
  | zeroizes hi => exact ((h.clearStores hr).zeroIbuf hr).completeEmpty .ok hr
  | _ =>
    -- OTP_VERIFY sets RESULT.MATCH and outputs nothing (43_otp.md R740).
    exact h.complete hr (Nat.zero_le _) (fun hc => absurd rfl hc) fun _ => rfl

/-! ### The obligations -/

/-- Settles O59: whatever a step can do keeps the invariant. -/
theorem stepKeepsInvariant : Obligations.StepKeepsInvariant := by
  intro s t h hstep
  have hrest (l : List Input) : Invariant { s with inputs := l } := h.setOutside l s.rdata
  cases step_effect hstep with
  | drops rest => exact hrest rest
  | reads rest v => exact h.setOutside rest (some v)
  | writes off v rest t hn hw => exact (hrest rest).writeEffect hn.released hw
  | answers b rest he hi => exact (hrest rest).answered he
  | runs rest w i t hn hs hd hexec he => exact (hrest rest).commandEffect hs hd he
  | illegal rest w r hn hs hd => exact (hrest rest).completeEmpty _ (h.released_of_busy hs)
  | drives b rest hi => exact (hrest rest).driveRst b

/-- Settles O58: both are reset states of legal parameters. -/
theorem resetSatisfiesInvariant : Obligations.ResetSatisfiesInvariant :=
  ⟨fun c hc => invariant_of_isReset (t := State.resetFor c) rfl hc, invariant_of_isReset (t := State.reset) rfl (by decide)⟩

end Sys2Proof.Machine
end

section
/-! PROOFS. The words of the window: which meaning a read and a write of each has, and what the host's writes to CMD, STATUS,
CTRL, the read-only words and the input-locked registers do (10_state.md R104 to R106, R110 to R134; 20_memory.md R204,
R205). -/

namespace Sys2Proof.Machine

variable {s t : State}

/-! ### Where a register, an IBUF and an OBUF word lie -/

theorem locate_of_registerAt {c : Config} {woff : Nat} {r : Reg} (h : registerAt woff = some r) :
    locate c woff = .register r := by
  have hmap : ∀ e ∈ registerMap, e.1 < 0x10000 := by decide
  unfold locate
  rw [if_pos (hmap _ (mem_registerMap_of_registerAt h)), h]

/-- Every word of the OBUF window is an OBUF word or reserved (20_memory.md R205). -/
theorem locate_of_obufWindow (c : Config) {off : Nat} (h1 : 0x20000 ≤ off) (h2 : off < 0x30000) :
    (∃ k, locate c (wordOffset off) = .obufWord k) ∨ locate c (wordOffset off) = .reserved := by
  unfold locate
  rw [if_neg (by unfold wordOffset; omega), if_neg (by unfold wordOffset; omega), if_pos (by unfold wordOffset; omega)]
  split
  · exact .inl ⟨_, rfl⟩
  · exact .inr rfl

theorem memRead_register (s : State) {off : Nat} {r : Reg} (h : registerAt (wordOffset off) = some r) :
    s.memRead off = s.readReg r := by
  simp only [State.memRead, locate_of_registerAt h]

theorem memWrite_register (s : State) {off : Nat} {r : Reg} (h : registerAt (wordOffset off) = some r) (v : Word) :
    s.memWrite off v = s.writeReg r v := by
  simp only [State.memWrite, locate_of_registerAt h]

/-- A step whose next input is a host write to a register. -/
theorem step_of_registerWrite {off : Nat} {v : Word} {rest : List Input} (hn : NextWrite s off v rest) {r : Reg}
    (h : registerAt (wordOffset off) = some r) : step s = .next ({ s with inputs := rest }.writeReg r v) := by
  rw [step_of_nextWrite hn, memWrite_register _ h]

/-! ### Writes that are ignored -/

/-- While BUSY a write outside CTRL, STATUS and CMD is ignored (10_state.md R106). -/
theorem memWrite_of_busy {w : Word} (hs : s.seq = .busy w) {off : Nat} (hctrl : wordOffset off ≠ 0x010)
    (hstatus : wordOffset off ≠ 0x014) (hcmd : wordOffset off ≠ 0x018) (v : Word) : s.memWrite off v = s := by
  have heff := memWrite_effect s off v
  generalize s.memWrite off v = t at heff
  cases heff with
  | ignored => rfl
  | input t hi h => nomatch hi.symm.trans hs
  | starts ho hi => exact absurd ho hcmd
  | overruns ho => exact absurd ho hcmd
  | resets ho => exact absurd ho hctrl
  | enables ho => exact absurd ho hctrl
  | clears ho => exact absurd ho hstatus

/-- The read-only registers (10_state.md R105, R110 to R113, R127, R128). -/
def readOnlyRegs : List Reg := [.id, .ibufSize, .obufSize, .secretMax, .outLen, .result]

theorem writeReg_readOnly {r : Reg} (hr : r ∈ readOnlyRegs) (s : State) (v : Word) : s.writeReg r v = s := by
  simp only [readOnlyRegs, List.mem_cons, List.not_mem_nil, or_false] at hr
  rcases hr with rfl | rfl | rfl | rfl | rfl | rfl <;> rfl

/-- A write to the OBUF window is ignored (20_memory.md R205). -/
theorem memWrite_obufWindow (s : State) {off : Nat} (h1 : 0x20000 ≤ off) (h2 : off < 0x30000) (v : Word) :
    s.memWrite off v = s := by
  unfold State.memWrite
  rcases locate_of_obufWindow s.cfg h1 h2 with ⟨k, hk⟩ | hk <;> rw [hk]

/-- Settles O8: a write in these places is none to CTRL, STATUS or CMD. -/
theorem busyLocksInputs : Obligations.BusyLocksInputs := by
  intro s w v off rest hn hs hoff
  have hother : wordOffset off ≠ 0x010 ∧ wordOffset off ≠ 0x014 ∧ wordOffset off ≠ 0x018 := by
    rcases hoff with hreg | ⟨h1, h2⟩
    · simp only [List.mem_cons, List.not_mem_nil, or_false] at hreg
      omega
    · unfold wordOffset
      omega
  obtain ⟨hctrl, hstatus, hcmd⟩ := hother
  rw [step_of_nextWrite hn, memWrite_of_busy (s := { s with inputs := rest }) hs hctrl hstatus hcmd]

/-- Settles O15: the six registers ignore a write, and so do the words of OBUF. -/
theorem readOnlyWordsIgnoreWrites : Obligations.ReadOnlyWordsIgnoreWrites := by
  intro s v rest off hn hoff
  rcases hoff with hreg | ⟨h1, h2⟩
  · have hmap : ∀ k ∈ [0x000, 0x004, 0x008, 0x00C, 0x024, 0x028], ∃ r ∈ readOnlyRegs, registerAt k = some r := by decide
    obtain ⟨r, hr, hk⟩ := hmap _ hreg
    rw [step_of_registerWrite hn hk, writeReg_readOnly hr]
  · rw [step_of_nextWrite hn, memWrite_obufWindow _ h1 h2]

/-! ### The registers that every SEQ lets the host write: CMD, STATUS, CTRL -/

theorem step_of_cmdWrite {w : Word} {rest : List Input} (hn : NextWrite s 0x018 w rest) :
    step s = .next ({ s with inputs := rest }.writeCmd w) :=
  step_of_registerWrite hn (r := .cmd) (by decide)

theorem step_of_statusWrite {v : Word} {rest : List Input} (hn : NextWrite s 0x014 v rest) :
    step s = .next ({ s with inputs := rest }.writeStatus v) :=
  step_of_registerWrite hn (r := .status) (by decide)

theorem step_of_ctrlWrite {v : Word} {rest : List Input} (hn : NextWrite s 0x010 v rest) :
    step s = .next ({ s with inputs := rest }.writeCtrl v) :=
  step_of_registerWrite hn (r := .ctrl) (by decide)

theorem writeCmd_of_idle (hs : s.seq = .idle) (w : Word) : s.writeCmd w = s.start w := by
  simp only [State.writeCmd, hs]

theorem writeCmd_of_busy {v : Word} (hs : s.seq = .busy v) (w : Word) : s.writeCmd w = { s with overrun := true } := by
  simp only [State.writeCmd, hs]

theorem writeCtrl_of_srst {v : Word} (hv : v.getLsbD 1 = true) (s : State) : s.writeCtrl v = s.toReset := by
  simp only [State.writeCtrl, hv, if_true]

theorem writeCtrl_of_not_srst {v : Word} (hv : v.getLsbD 1 = false) (s : State) :
    s.writeCtrl v = { s with irqEn := v.getLsbD 0 } := by
  simp only [State.writeCtrl, if_neg (Bool.eq_false_iff.1 hv)]

/-- Settles O7: a write to CMD is a start while IDLE and an overrun while BUSY. -/
theorem cmdWriteStartsOrOverruns : Obligations.CmdWriteStartsOrOverruns := by
  refine ⟨fun s w rest hn hs => ?_, fun s w v rest hn hs => ?_, fun s => memRead_register s (r := .cmd) (by decide)⟩
  · rw [step_of_cmdWrite hn, writeCmd_of_idle (s := { s with inputs := rest }) hs]
    exact ⟨_, rfl, rfl, rfl, rfl, rfl, rfl, rfl, fun _ => rfl, by constructor <;> rfl, ⟨rfl, rfl, rfl⟩, ⟨rfl, rfl, rfl⟩,
      fun _ => rfl⟩
  · rw [step_of_cmdWrite hn, writeCmd_of_busy (s := { s with inputs := rest }) hs]

/-- Settles O18: the write is the one of R115. -/
theorem statusWriteOneClears : Obligations.StatusWriteOneClears := fun s v rest hn =>
  ⟨s.done && !v.getLsbD 1, s.overrun && !v.getLsbD 5, step_of_statusWrite hn, by simp, by simp⟩

/-- A word with bit 0 of `v` alone, as CTRL reads (10_state.md R114). -/
theorem ofNat_toNat_getLsbD_zero (v : Word) : BitVec.ofNat 32 (v.getLsbD 0).toNat = v &&& 1 := by
  have hbit : v &&& 1 = (BitVec.ofBool (v.getLsbD 0)).setWidth 32 := BitVec.and_one_eq_setWidth_ofBool_getLsbD
  rw [hbit]
  cases v.getLsbD 0 <;> rfl

/-- Settles O19: a write to CTRL is a reset or an IRQ_EN write. -/
theorem ctrlWriteResetsOrEnables : Obligations.CtrlWriteResetsOrEnables := by
  have hread (t : State) : t.memRead 0x010 = t.ctrlWord := memRead_register t (r := .ctrl) (by decide)
  refine ⟨fun s v rest hn hv => ?_, fun s v rest hn hv => ?_⟩
  · rw [step_of_ctrlWrite hn, writeCtrl_of_srst hv]
    exact ⟨_, rfl, rfl, hread _, rfl, rfl, hn.released⟩
  · rw [step_of_ctrlWrite hn, writeCtrl_of_not_srst hv]
    exact ⟨_, rfl, rfl, (hread _).trans (ofNat_toNat_getLsbD_zero v)⟩

/-! ### What the read-only words and STATUS read -/

/-- Settles O16: legal sizes fit a word. -/
theorem readOnlyRegisterValues : Obligations.ReadOnlyRegisterValues := by
  intro s hc
  obtain ⟨-, -, -, hibuf, -, -, hobuf, -, hsecret⟩ := hc
  rw [memRead_register s (r := .id) (by decide), memRead_register s (r := .ibufSize) (by decide),
    memRead_register s (r := .obufSize) (by decide), memRead_register s (r := .secretMax) (by decide),
    memRead_register s (r := .outLen) (by decide), memRead_register s (r := .result) (by decide)]
  simp only [State.readReg, BitVec.toNat_ofNat]
  refine ⟨trivial, Nat.mod_eq_of_lt (by omega), Nat.mod_eq_of_lt (by omega), Nat.mod_eq_of_lt (by omega), trivial, ?_⟩
  unfold State.resultWord
  cases s.matched <;> rfl

/-- The number STATUS reads as: its fields side by side (10_state.md R115). -/
def statusNumber (s : State) : Nat :=
  s.busyFlag.toNat * 2 ^ 0 + s.done.toNat * 2 ^ 1 + s.errFlag.toNat * 2 ^ 2 + s.keyValid.toNat * 2 ^ 3 +
    s.secretValid.toNat * 2 ^ 4 + s.overrun.toNat * 2 ^ 5 + s.entWaitFlag.toNat * 2 ^ 6 + errNumber s.errCode * 2 ^ 8

theorem errNumber_le (c : ErrCode) : errNumber c ≤ 10 := by cases c <;> decide

/-- No field of STATUS runs into the next: each is read back from its own bits. -/
theorem statusNumber_fields (s : State) :
    statusNumber s / 2 ^ 0 % 2 = s.busyFlag.toNat ∧ statusNumber s / 2 ^ 1 % 2 = s.done.toNat ∧
    statusNumber s / 2 ^ 2 % 2 = s.errFlag.toNat ∧ statusNumber s / 2 ^ 3 % 2 = s.keyValid.toNat ∧
    statusNumber s / 2 ^ 4 % 2 = s.secretValid.toNat ∧ statusNumber s / 2 ^ 5 % 2 = s.overrun.toNat ∧
    statusNumber s / 2 ^ 6 % 2 = s.entWaitFlag.toNat ∧ statusNumber s / 2 ^ 7 % 2 = false.toNat ∧
    statusNumber s / 2 ^ 8 % 2 ^ 4 = errNumber s.errCode ∧ statusNumber s / 2 ^ 12 = 0 := by
  have h0 := s.busyFlag.toNat_le
  have h1 := s.done.toNat_le
  have h2 := s.errFlag.toNat_le
  have h3 := s.keyValid.toNat_le
  have h4 := s.secretValid.toNat_le
  have h5 := s.overrun.toNat_le
  have h6 := s.entWaitFlag.toNat_le
  have h8 := errNumber_le s.errCode
  unfold statusNumber
  simp only [Bool.toNat_false]
  omega

theorem toNat_statusWord (s : State) : s.statusWord.toNat = statusNumber s := by
  obtain ⟨-, -, -, -, -, -, -, -, -, hhigh⟩ := statusNumber_fields s
  have hlt : statusNumber s < 2 ^ 32 := by omega
  exact (BitVec.toNat_ofNat ..).trans (Nat.mod_eq_of_lt hlt)

theorem getLsbD_statusWord {k : Nat} {b : Bool} (h : statusNumber s / 2 ^ k % 2 = b.toNat) :
    s.statusWord.getLsbD k = b := by
  rw [BitVec.getLsbD, toNat_statusWord, Nat.testBit_eq_decide_div_mod_eq, h]
  cases b <;> rfl

theorem toNat_extractLsb'_statusWord (s : State) (k n : Nat) :
    (s.statusWord.extractLsb' k n).toNat = statusNumber s / 2 ^ k % 2 ^ n := by
  rw [BitVec.extractLsb'_toNat, toNat_statusWord, Nat.shiftRight_eq_div_pow]

theorem busyFlag_iff : s.busyFlag = true ↔ ∃ w, s.seq = .busy w := by
  unfold State.busyFlag
  cases s.seq <;> simp

theorem entWaitFlag_iff : s.entWaitFlag = true ↔ (∃ w, s.seq = .busy w) ∧ ∃ n, s.entropy = .waiting n := by
  unfold State.entWaitFlag
  cases s.entropy <;> simp [busyFlag_iff]

/-- Settles O17: each field of STATUS is read back from its bits. -/
theorem statusFields : Obligations.StatusFields := by
  intro s
  rw [memRead_register s (r := .status) (by decide)]
  obtain ⟨hbusy, hdone, herr, hkey, hsecret, hoverrun, hwait, hzero, hcode, hhigh⟩ := statusNumber_fields s
  have hcode' : (s.statusWord.extractLsb' 8 4).toNat = errNumber s.errCode :=
    (toNat_extractLsb'_statusWord s 8 4).trans hcode
  have herr' : s.errFlag = true ↔ s.statusWord.extractLsb' 8 4 ≠ 0 := by
    rw [State.errFlag, decide_eq_true_iff, ← hcode', ne_eq, ne_eq, ← BitVec.toNat_inj]
    rfl
  have hhigh' : s.statusWord.extractLsb' 12 20 = 0 :=
    BitVec.eq_of_toNat_eq ((toNat_extractLsb'_statusWord s 12 20).trans (by rw [hhigh]; rfl))
  exact ⟨getLsbD_statusWord hbusy ▸ busyFlag_iff, getLsbD_statusWord hdone, getLsbD_statusWord herr ▸ herr',
    getLsbD_statusWord hkey, getLsbD_statusWord hsecret, getLsbD_statusWord hoverrun,
    getLsbD_statusWord hwait ▸ entWaitFlag_iff, getLsbD_statusWord hzero, hcode', hhigh'⟩

end Sys2Proof.Machine
end

section
/-! PROOFS. The input-locked registers: a write while IDLE stores its field and nothing else, and each register is the operand
of its offset (10_state.md R105, R125, R126, R129 to R134). -/

namespace Sys2Proof.Machine

variable {s t : State} {r : Reg} {field : Word}

/-- The writable field of an input-locked register (10_state.md R104, R105); no other register has one. -/
def inputField : Reg → Option Word
  | .inLen => some 0xFFFFFFFF
  | .auxLen => some 0xFFFFFFFF
  | .timeLo => some 0xFFFFFFFF
  | .timeHi => some 0xFFFFFFFF
  | .ttlLo => some 0xFFFFFFFF
  | .ttlHi => some 0xFFFFFFFF
  | .argLo => some 0xFFFFFFFF
  | .argHi => some 0xFFFFFFFF
  | .interval => some 0xFFFFFFFF
  | .window => some 0x000000FF
  | .otpCfg => some 0x0000003F
  | _ => none

/-- Cutting a word to its low bits and extending it again keeps those bits. -/
theorem setWidth_setWidth_eq_and (v : Word) {n : Nat} (h : n ≤ 32) :
    (v.setWidth n).setWidth 32 = v &&& BitVec.ofNat 32 (2 ^ n - 1) := by
  have hmask : 2 ^ n - 1 < 2 ^ 32 := (Nat.sub_lt (by positivity) (by decide)).trans_le (Nat.pow_le_pow_right (by decide) h)
  refine BitVec.eq_of_toNat_eq ?_
  rw [BitVec.toNat_setWidth_of_le h, BitVec.toNat_setWidth, BitVec.toNat_and, BitVec.toNat_ofNat, Nat.mod_eq_of_lt hmask,
    Nat.and_two_pow_sub_one_eq_mod]

theorem unlessBusy_of_idle (hs : s.seq = .idle) (t : State) : s.unlessBusy t = t := by
  simp only [State.unlessBusy, hs]

/-- While IDLE a write to an input-locked register is one that stores an input. -/
theorem inputWrite_writeReg (hr : inputField r = some field) (hs : s.seq = .idle) (v : Word) :
    InputWrite s (s.writeReg r v) ∧ (s.writeReg r v).ibuf = s.ibuf := by
  cases r
  all_goals cases hr
  all_goals
    simp only [State.writeReg, unlessBusy_of_idle hs]
    exact ⟨⟨rfl, id, fun _ h => h⟩, trivial⟩

theorem readReg_writeReg_same (hr : inputField r = some field) (hs : s.seq = .idle) (v : Word) :
    (s.writeReg r v).readReg r = v &&& field := by
  cases r
  all_goals cases hr
  all_goals simp only [State.writeReg, unlessBusy_of_idle hs]
  case window => exact setWidth_setWidth_eq_and v (by decide)
  case otpCfg => exact setWidth_setWidth_eq_and v (by decide)
  all_goals exact BitVec.and_allOnes.symm

theorem readReg_writeReg_of_ne (hr : inputField r = some field) (hs : s.seq = .idle) (v : Word) {r' : Reg} (hne : r' ≠ r) :
    (s.writeReg r v).readReg r' = s.readReg r' := by
  cases r
  all_goals cases hr
  all_goals
    simp only [State.writeReg, unlessBusy_of_idle hs]
    cases r'
  all_goals first
    | rfl
    | exact absurd rfl hne

theorem InputWrite.memRead (h : InputWrite s t) (hibuf : t.ibuf = s.ibuf) {off : Nat}
    (hreg : ∀ r, registerAt (wordOffset off) = some r → t.readReg r = s.readReg r) : t.memRead off = s.memRead off := by
  have hcfg : t.cfg = s.cfg := by rw [h.eq]
  have hobuf : t.obuf = s.obuf := by rw [h.eq]
  have hbusy : t.busyFlag = s.busyFlag := by rw [h.eq]; rfl
  unfold State.memRead
  rw [hcfg, hibuf, hobuf, hbusy]
  split
  · exact hreg _ (registerAt_of_locate ‹_›)
  · rfl
  · rfl
  · rfl

/-- Zero-extending a field does not change its own bits. -/
theorem extractLsb'_setWidth {w m : Nat} (x : BitVec w) (h : w ≤ m) (k n : Nat) :
    (x.setWidth m).extractLsb' k n = x.extractLsb' k n := by
  refine BitVec.eq_of_toNat_eq ?_
  rw [BitVec.extractLsb'_toNat, BitVec.extractLsb'_toNat, BitVec.toNat_setWidth_of_le h]

/-- In every state each word is the operand of its offset (10_state.md R125, R126, R129 to R134; 20_memory.md R223). -/
theorem operands_eq_memRead (s : State) :
    s.inLength = (s.memRead 0x01C).toNat ∧ s.auxLength = (s.memRead 0x020).toNat ∧
    s.time = (s.memRead 0x034).toNat * 2 ^ 32 + (s.memRead 0x030).toNat ∧
    s.ttl = (s.memRead 0x03C).toNat * 2 ^ 32 + (s.memRead 0x038).toNat ∧
    s.arg = (s.memRead 0x044).toNat * 2 ^ 32 + (s.memRead 0x040).toNat ∧
    s.interval = s.memRead 0x048 ∧ s.window.toNat = (s.memRead 0x04C).toNat ∧
    s.digits = ((s.memRead 0x050).extractLsb' 0 4).toNat ∧ s.hashSelector = (s.memRead 0x050).extractLsb' 4 2 := by
  have hotp : s.memRead 0x050 = s.otpCfg.setWidth 32 := rfl
  rw [hotp, extractLsb'_setWidth _ (by decide), extractLsb'_setWidth _ (by decide)]
  exact ⟨rfl, rfl, rfl, rfl, rfl, rfl, (BitVec.toNat_setWidth_of_le (by decide)).symm, rfl, rfl⟩

/-- Settles O14: the write stores an input and no other register reads differently. -/
theorem registerStoresItsField : Obligations.RegisterStoresItsField := by
  refine ⟨fun s v rest off field hmem hn hs => ?_, operands_eq_memRead⟩
  have hmap : ∀ e ∈ ([(0x01C, 0xFFFFFFFF), (0x020, 0xFFFFFFFF), (0x030, 0xFFFFFFFF), (0x034, 0xFFFFFFFF),
      (0x038, 0xFFFFFFFF), (0x03C, 0xFFFFFFFF), (0x040, 0xFFFFFFFF), (0x044, 0xFFFFFFFF), (0x048, 0xFFFFFFFF),
      (0x04C, 0x000000FF), (0x050, 0x0000003F)] : List (Nat × Word)),
      wordOffset e.1 = e.1 ∧ ∃ r, registerAt e.1 = some r ∧ inputField r = some e.2 := by
    simp only [← Option.bind_eq_some_iff]
    decide
  obtain ⟨hoff, r, hreg, hr⟩ := hmap _ hmem
  replace hreg : registerAt (wordOffset off) = some r := hoff.symm ▸ hreg
  obtain ⟨hw, hibuf⟩ := inputWrite_writeReg (s := { s with inputs := rest }) hr hs v
  refine ⟨_, step_of_registerWrite hn hreg, ?_, fun off' hne => ?_, ?_⟩
  · exact (memRead_register _ hreg).trans (readReg_writeReg_same (s := { s with inputs := rest }) hr hs v)
  · refine hw.memRead hibuf fun r' hr' =>
      readReg_writeReg_of_ne (s := { s with inputs := rest }) hr hs v ?_
    rintro rfl
    exact hne ((registerAt_inj hr' hreg).trans hoff)
  · rw [hw.eq]
    exact ⟨rfl, rfl, ⟨rfl, rfl, rfl⟩, ⟨rfl, rfl, rfl⟩, rfl, rfl, rfl, rfl⟩

end Sys2Proof.Machine
end

section
/-! PROOFS. What a step does to SEQ, DONE, OVERRUN and IRQ_EN, said once, and what follows for the life of a command, for
OVERRUN and for the interrupt; the entropy answers; the reset values (10_state.md R102, R116, R117, R121, R122, R150, R151,
R170). -/

namespace Sys2Proof.Machine

variable {s t : State}

/-- The values of SEQ, IRQ_EN, DONE and OVERRUN in a state. -/
structure HasFlags (t : State) (seq : Seq) (irqEn done overrun : Bool) : Prop where
  seq : t.seq = seq
  irqEn : t.irqEn = irqEn
  done : t.done = done
  overrun : t.overrun = overrun

/-- Everything a step can do to SEQ, IRQ_EN, DONE and OVERRUN. -/
inductive FlagEffect (s t : State) : Prop where
  | keeps (h : HasFlags t s.seq s.irqEn s.done s.overrun)
  /-- The command in progress completes (70_reset_and_hazards.md R1020). -/
  | completes (rest : List Input) (w : Word) (hn : SequencerNext s rest) (hs : s.seq = .busy w)
    (h : HasFlags t .idle s.irqEn true s.overrun)
  /-- A reset (70_reset_and_hazards.md R1001). -/
  | resets (h : IsReset t)
  /-- A command starts (70_reset_and_hazards.md R1010). -/
  | starts (v : Word) (hs : s.seq = .idle) (h : HasFlags t (.busy v) s.irqEn false s.overrun)
  /-- A write to CMD while BUSY (10_state.md R121). -/
  | overruns (off : Nat) (v : Word) (rest : List Input) (w : Word) (hn : NextWrite s off v rest)
    (ho : wordOffset off = 0x018) (hs : s.seq = .busy w) (h : HasFlags t s.seq s.irqEn s.done true)
  /-- A write to CTRL with SRST = 0 (10_state.md R114). -/
  | enables (off : Nat) (v : Word) (rest : List Input) (hn : NextWrite s off v rest) (ho : wordOffset off = 0x010)
    (hv : v.getLsbD 1 = false) (h : HasFlags t s.seq (v.getLsbD 0) s.done s.overrun)
  /-- A write to STATUS (10_state.md R115). -/
  | clears (off : Nat) (v : Word) (rest : List Input) (hn : NextWrite s off v rest) (ho : wordOffset off = 0x014)
    (h : HasFlags t s.seq s.irqEn (s.done && !v.getLsbD 1) (s.overrun && !v.getLsbD 5))

theorem flagEffect_of_writeEffect {off : Nat} {v : Word} {rest : List Input} (hn : NextWrite s off v rest)
    (h : WriteEffect { s with inputs := rest } off v t) : FlagEffect s t := by
  cases h with
  | ignored => exact .keeps ⟨rfl, rfl, rfl, rfl⟩
  | input t hs h =>
    refine .keeps ?_
    rw [h.eq]
    exact ⟨rfl, rfl, rfl, rfl⟩
  | starts ho hs => exact .starts v hs ⟨rfl, rfl, rfl, rfl⟩
  | overruns ho w hs => exact .overruns off v rest w hn ho hs ⟨rfl, rfl, rfl, rfl⟩
  | resets ho hv => exact .resets rfl
  | enables ho hv => exact .enables off v rest hn ho hv ⟨rfl, rfl, rfl, rfl⟩
  | clears ho => exact .clears off v rest hn ho ⟨rfl, rfl, rfl, rfl⟩

theorem flagEffect_of_commandEffect {rest : List Input} {w : Word} {i : Instr} (hn : SequencerNext s rest)
    (hs : s.seq = .busy w) (h : CommandEffect i { s with inputs := rest } t) : FlagEffect s t := by
  cases h with
  | requests => exact .keeps ⟨rfl, rfl, rfl, rfl⟩
  | holds => exact .keeps ⟨rfl, rfl, rfl, rfl⟩
  | _ => exact .completes rest w hn hs ⟨rfl, rfl, rfl, rfl⟩

/-- What a step can do to SEQ, IRQ_EN, DONE and OVERRUN. -/
theorem flagEffect_of_step (h : step s = .next t) : FlagEffect s t := by
  cases step_effect h with
  | writes off v rest t hn hw => exact flagEffect_of_writeEffect hn hw
  | runs rest w i t hn hs hd he hc => exact flagEffect_of_commandEffect hn hs hc
  | illegal rest w r hn hs hd => exact .completes rest w hn hs ⟨rfl, rfl, rfl, rfl⟩
  | drives b rest hi =>
    cases b
    · exact .keeps ⟨rfl, rfl, rfl, rfl⟩
    · exact .resets rfl
  | _ => exact .keeps ⟨rfl, rfl, rfl, rfl⟩

/-! ### The reset state -/

/-- A reset state is the reset state of some parameters, the outside world's part being free. -/
theorem exists_of_isReset (h : IsReset t) :
    ∃ c l r b, t = { State.resetFor c with inputs := l, rdata := r, rst := b } := ⟨_, _, _, _, h⟩

theorem hasFlags_of_isReset (h : IsReset t) : HasFlags t .idle false false false := by
  obtain ⟨c, l, r, b, rfl⟩ := exists_of_isReset h
  exact ⟨rfl, rfl, rfl, rfl⟩

theorem statusWord_of_isReset (h : IsReset t) : t.statusWord = 0 := by
  obtain ⟨c, l, r, b, rfl⟩ := exists_of_isReset h
  simp [State.statusWord, State.busyFlag, State.errFlag, State.entWaitFlag, State.resetFor, errNumber]

theorem irq_of_isReset (h : IsReset t) : t.irq = false := by
  simp [State.irq, (hasFlags_of_isReset h).irqEn]

/-! ### The end of a command -/

/-- BUSY ends by a completion or a reset (10_state.md R102, R116). -/
theorem completes_or_isReset {w : Word} (h : step s = .next t) (hs : s.seq = .busy w) (ht : t.seq = .idle) :
    (∃ rest, SequencerNext s rest ∧ HasFlags t .idle s.irqEn true s.overrun) ∨ IsReset t := by
  have hkept (hseq : t.seq = s.seq) : False := nomatch hs.symm.trans (hseq.symm.trans ht)
  cases flagEffect_of_step h with
  | keeps h => exact (hkept h.seq).elim
  | completes rest w hn hs h => exact .inl ⟨rest, hn, h⟩
  | resets h => exact .inr h
  | starts v hs h => nomatch h.seq.symm.trans ht
  | overruns off v rest w hn ho hs h => exact (hkept h.seq).elim
  | enables off v rest hn ho hv h => exact (hkept h.seq).elim
  | clears off v rest hn ho h => exact (hkept h.seq).elim

/-- DONE is set by a completion only (10_state.md R117). -/
theorem completes_of_done (h : step s = .next t) (hs : s.done = false) (ht : t.done = true) :
    (∃ w, s.seq = .busy w) ∧ t.seq = .idle ∧ ∃ rest, SequencerNext s rest := by
  have hkept (hdone : t.done = s.done) : False := nomatch hs.symm.trans (hdone.symm.trans ht)
  cases flagEffect_of_step h with
  | keeps h => exact (hkept h.done).elim
  | completes rest w hn hs h => exact ⟨⟨w, hs⟩, h.seq, rest, hn⟩
  | resets h => nomatch (hasFlags_of_isReset h).done.symm.trans ht
  | starts v hs h => nomatch h.done.symm.trans ht
  | overruns off v rest w hn ho hs h => exact (hkept h.done).elim
  | enables off v rest hn ho hv h => exact (hkept h.done).elim
  | clears off v rest hn ho h => exact (hkept (by rw [h.done, hs]; rfl)).elim

/-! ### IRQ -/

theorem irq_eq_true_iff : s.irq = true ↔ s.irqEn = true ∧ s.done = true := Bool.and_eq_true_iff

theorem irq_iff_memRead (s : State) :
    s.irq = true ↔ (s.memRead 0x010).getLsbD 0 = true ∧ (s.memRead 0x014).getLsbD 1 = true := by
  obtain ⟨-, hdone, -⟩ := statusNumber_fields s
  have hctrl : s.ctrlWord.getLsbD 0 = s.irqEn := by
    unfold State.ctrlWord
    cases s.irqEn <;> rfl
  rw [memRead_register s (r := .ctrl) (by decide), memRead_register s (r := .status) (by decide), irq_eq_true_iff]
  simp only [State.readReg, hctrl, getLsbD_statusWord hdone]

/-- IRQ is raised by a completion and by a write to CTRL that sets IRQ_EN only (60_exceptions.md R911). -/
theorem raises_of_irq (h : step s = .next t) (hs : s.irq = false) (ht : t.irq = true) :
    ((∃ w, s.seq = .busy w) ∧ t.seq = .idle ∧ ∃ rest, SequencerNext s rest) ∨
      ∃ off v rest, NextWrite s off v rest ∧ wordOffset off = 0x010 ∧ v.getLsbD 0 = true ∧ v.getLsbD 1 = false := by
  obtain ⟨hen, hdone⟩ := irq_eq_true_iff.1 ht
  have hnot (hen : s.irqEn = true) (hdone : s.done = true) : False := nomatch hs.symm.trans (irq_eq_true_iff.2 ⟨hen, hdone⟩)
  cases flagEffect_of_step h with
  | keeps h => exact (hnot (h.irqEn ▸ hen) (h.done ▸ hdone)).elim
  | completes rest w hn hs h => exact .inl ⟨⟨w, hs⟩, h.seq, rest, hn⟩
  | resets h => nomatch (hasFlags_of_isReset h).done.symm.trans hdone
  | starts v hs h => nomatch h.done.symm.trans hdone
  | overruns off v rest w hn ho hs h => exact (hnot (h.irqEn ▸ hen) (h.done ▸ hdone)).elim
  | enables off v rest hn ho hv h => exact .inr ⟨off, v, rest, hn, ho, h.irqEn ▸ hen, hv⟩
  | clears off v rest hn ho h =>
    exact (hnot (h.irqEn ▸ hen) (Bool.and_eq_true_iff.1 (h.done ▸ hdone)).1).elim

/-! ### The obligations -/

/-- Settles O11: of what a step can do to SEQ and DONE, a completion and a reset end BUSY, and a completion alone sets DONE. -/
theorem busyEndsByCompletionOrReset : Obligations.BusyEndsByCompletionOrReset :=
  ⟨fun _ _ _ h hs ht => (completes_or_isReset h hs ht).imp_left fun ⟨rest, hn, hflags⟩ => ⟨⟨rest, hn⟩, hflags.done⟩,
    fun _ _ => completes_of_done⟩

/-- Settles O12: of what a step can do to OVERRUN, a write to CMD while BUSY alone sets it, and a write to STATUS and a reset
alone clear it. -/
theorem overrunSetAndCleared : Obligations.OverrunSetAndCleared := by
  refine ⟨fun s w v rest hn hs => ⟨_, step_of_cmdWrite hn, ?_⟩, fun s v rest hn hv => ⟨_, step_of_statusWrite hn, ?_⟩,
    fun t h => (hasFlags_of_isReset h).overrun, fun s v rest hn hs => ⟨_, step_of_cmdWrite hn, ?_⟩, fun s t h hs ht => ?_,
    fun s t h hs ht => ?_⟩
  · rw [writeCmd_of_busy (s := { s with inputs := rest }) hs]
  · simp only [State.writeStatus, hv, Bool.not_true, Bool.and_false]
  · rw [writeCmd_of_idle (s := { s with inputs := rest }) hs, State.start_overrun]
  · have hkept (hover : t.overrun = s.overrun) : False := nomatch hs.symm.trans (hover.symm.trans ht)
    cases flagEffect_of_step h with
    | keeps h => exact (hkept h.overrun).elim
    | completes rest w hn hs h => exact (hkept h.overrun).elim
    | resets h => nomatch (hasFlags_of_isReset h).overrun.symm.trans ht
    | starts v hs h => exact (hkept h.overrun).elim
    | overruns off v rest w hn ho hs h => exact ⟨off, v, rest, w, hn, ho, hs⟩
    | enables off v rest hn ho hv h => exact (hkept h.overrun).elim
    | clears off v rest hn ho h => exact (hkept (by rw [h.overrun, hs]; rfl)).elim
  · have hkept (hover : t.overrun = s.overrun) : False := nomatch hs.symm.trans (hover.symm.trans ht)
    cases flagEffect_of_step h with
    | keeps h => exact (hkept h.overrun).elim
    | completes rest w hn hs h => exact (hkept h.overrun).elim
    | resets h => exact .inr h
    | starts v hs h => exact (hkept h.overrun).elim
    | overruns off v rest w hn ho hs h => nomatch h.overrun.symm.trans ht
    | enables off v rest hn ho hv h => exact (hkept h.overrun).elim
    | clears off v rest hn ho h =>
      refine .inl ⟨off, v, rest, hn, ho, ?_⟩
      simpa [hs, ht] using h.overrun

/-- Settles O22: of what a step can do to IRQ_EN and DONE, a completion and a write to CTRL alone raise IRQ. -/
theorem interruptFollowsDone : Obligations.InterruptFollowsDone := by
  refine ⟨irq_iff_memRead, fun t => irq_of_isReset, fun s t w h hs ht hr => ?_,
    fun s v rest hn hv => ⟨_, step_of_statusWrite hn, ?_⟩, fun s v rest hn h0 h1 hdone => ⟨_, step_of_ctrlWrite hn, ?_⟩,
    fun s v rest hn hs => ⟨_, step_of_cmdWrite hn, ?_⟩, fun s t => raises_of_irq⟩
  · obtain ⟨rest, hn, hflags⟩ := (completes_or_isReset h hs ht).resolve_right hr
    rw [State.irq, hflags.irqEn, hflags.done, Bool.and_true]
  · simp only [State.irq, State.writeStatus, hv, Bool.not_true, Bool.and_false]
  · rw [writeCtrl_of_not_srst h1]
    exact irq_eq_true_iff.2 ⟨h0, hdone⟩
  · rw [writeCmd_of_idle (s := { s with inputs := rest }) hs, State.irq, State.start_done, Bool.and_false]

/-- Settles O13: the three clauses are the entropy port's own (10_state.md R150). -/
theorem entropyAnswers : Obligations.EntropyAnswers := by
  refine ⟨fun s b rest hi he => ?_, fun s b rest hi he => ?_, fun s b rest hi => ?_⟩
  · refine ⟨{ s with inputs := rest, entropy := .answered b }, ?_, rfl, rfl, rfl, ?_, ⟨rfl, rfl, rfl, rfl, fun _ => rfl⟩,
      ⟨rfl, rfl, rfl⟩, ⟨rfl, rfl, rfl⟩, fun _ => rfl⟩
    · simp only [step, stepInputs, hi, takeInput, entropyAnswered, he, if_true]
    · constructor <;> rfl
  · simp only [step, stepInputs, hi, takeInput, entropyAnswered]
    cases hs : s.entropy with
    | idle => rfl
    | waiting n => exact absurd hs (he n)
    | answered b => rfl
  · simp only [step, stepInputs, hi, takeInput]

/-- Settles O21: each of the three leaves the reset state of R170 for its parameters, whose fields are the table. -/
theorem resetValues : Obligations.ResetValues := by
  intro t h
  have hreset : IsReset t := by
    rcases h with rfl | ⟨s, rest, hi, h⟩ | ⟨s, v, rest, hn, hv, h⟩
    · rfl
    · simp only [step, stepInputs, hi, takeInput] at h
      cases h
      rfl
    · rw [step_of_ctrlWrite hn, writeCtrl_of_srst hv] at h
      cases h
      rfl
  have hstatus := statusWord_of_isReset hreset
  obtain ⟨c, l, r, b, rfl⟩ := exists_of_isReset hreset
  exact ⟨rfl, rfl, hstatus, rfl, rfl, rfl, rfl, rfl, rfl, rfl, rfl, rfl, rfl, rfl, rfl, rfl, fun _ => rfl, fun _ => rfl, rfl, rfl,
    rfl, rfl, rfl, rfl, rfl, rfl, rfl⟩

end Sys2Proof.Machine
end

section
/-! PROOFS. The host's accesses to the window: which word an offset means, what a read returns and what a write stores, and the
accesses that are none (20_memory.md R201 to R206, R210 to R213, R220). -/

namespace Sys2Proof.Machine

variable {s : State} {c : Config} {off woff k : Nat} {v : Word} {rest : List Input}

/-! ### The word of an offset -/

/-- The word of an offset lies above an aligned bound where the offset does. -/
theorem le_wordOffset_iff (h : off < 0x40000) (hk : k % 4 = 0) : k ≤ wordOffset off ↔ k ≤ off := by
  unfold wordOffset
  omega

theorem wordOffset_aligned (off : Nat) : wordOffset (off / 4 * 4) = wordOffset off := by
  unfold wordOffset
  omega

theorem memRead_aligned (s : State) (off : Nat) : s.memRead (off / 4 * 4) = s.memRead off := by
  unfold State.memRead
  rw [wordOffset_aligned]

theorem memWrite_aligned (s : State) (off : Nat) (v : Word) : s.memWrite (off / 4 * 4) v = s.memWrite off v := by
  unfold State.memWrite
  rw [wordOffset_aligned]

/-! ### The words of the buffers -/

theorem memRead_ibufWord (hc : s.cfg.Legal) (hk : 4 * k < s.cfg.ibufBytes) :
    s.memRead (0x10000 + 4 * k) = s.ibuf.readWord (4 * k) := by
  obtain ⟨-, -, -, hmax, -⟩ := hc
  simp only [State.memRead, locate_ibuf hk hmax]

theorem memWrite_ibufWord_of_idle (hc : s.cfg.Legal) (hk : 4 * k < s.cfg.ibufBytes) (hs : s.seq = .idle) (v : Word) :
    s.memWrite (0x10000 + 4 * k) v = { s with ibuf := s.ibuf.writeWord (4 * k) v } := by
  obtain ⟨-, -, -, hmax, -⟩ := hc
  simp only [State.memWrite, locate_ibuf hk hmax, unlessBusy_of_idle hs]

theorem memRead_obufWord_of_idle (hc : s.cfg.Legal) (hk : 4 * k < s.cfg.obufBytes) (hs : s.seq = .idle) :
    s.memRead (0x20000 + 4 * k) = s.obuf.readWord (4 * k) := by
  obtain ⟨-, -, -, -, -, -, hmax, -⟩ := hc
  have hbusy : s.busyFlag = false := by simp only [State.busyFlag, hs]
  simp only [State.memRead, locate_obuf hk hmax, hbusy, Bool.false_eq_true, if_false]

/-- While BUSY the words of OBUF read as the reserved ones of its window do (20_memory.md R206). -/
theorem memRead_obufWindow_of_busy {w : Word} (hs : s.seq = .busy w) (h1 : 0x20000 ≤ off) (h2 : off < 0x30000) :
    s.memRead off = 0 := by
  unfold State.memRead
  rcases locate_of_obufWindow s.cfg h1 h2 with ⟨k, hk⟩ | hk
  · rw [hk]
    exact if_pos (busyFlag_iff.2 ⟨w, hs⟩)
  · rw [hk]

/-- The word of four bytes is the number with these digits (20_memory.md R210). -/
theorem Memory.toNat_readWord (m : Memory) (a : Nat) :
    (m.readWord a).toNat =
      (m.read a).toNat + (m.read (a + 1)).toNat * 2 ^ 8 + (m.read (a + 2)).toNat * 2 ^ 16 +
        (m.read (a + 3)).toNat * 2 ^ 24 :=
  toNat_ofLanes ..

/-! ### Reserved words -/

/-- No register lies above OTP_CFG (10_state.md R104, R135). -/
theorem registerAt_above (h : 0x054 ≤ woff) : registerAt woff = none := by
  have hmap : ∀ e ∈ registerMap, e.1 < 0x054 := by decide
  refine List.lookup_eq_none_iff.2 fun e he => ?_
  have hlt := hmap e he
  simp only [bne_iff_ne]
  omega

theorem locate_of_registerAt_none (hw : woff < 0x10000) (hr : registerAt woff = none) : locate c woff = .reserved := by
  unfold locate
  rw [if_pos hw, hr]

theorem locate_beyondIbuf (h1 : 0x10000 + c.ibufBytes ≤ woff) (h2 : woff < 0x20000) : locate c woff = .reserved := by
  unfold locate
  rw [if_neg (by omega), if_pos h2, if_neg (by omega)]

theorem locate_beyondObuf (h1 : 0x20000 + c.obufBytes ≤ woff) (h2 : woff < 0x30000) : locate c woff = .reserved := by
  unfold locate
  rw [if_neg (by omega), if_neg (by omega), if_pos h2, if_neg (by omega)]

theorem locate_beyondBuffers (h : 0x30000 ≤ woff) : locate c woff = .reserved := by
  unfold locate
  rw [if_neg (by omega), if_neg (by omega), if_neg (by omega)]

/-- The reserved words of the window (20_memory.md R202 to R205, 10_state.md R135). -/
theorem locate_reserved (hc : c.Legal) (hlt : off < 0x40000)
    (h : wordOffset off = 0x02C ∨ (0x054 ≤ off ∧ off < 0x10000) ∨ (0x10000 + c.ibufBytes ≤ off ∧ off < 0x20000) ∨
      (0x20000 + c.obufBytes ≤ off ∧ off < 0x30000) ∨ 0x30000 ≤ off) :
    locate c (wordOffset off) = .reserved := by
  obtain ⟨-, hibuf, -, -, hobuf, -⟩ := hc
  have above {b : Nat} (hb : b % 4 = 0) (h : b ≤ off) : b ≤ wordOffset off := (le_wordOffset_iff hlt hb).2 h
  have below {b : Nat} (hb : b % 4 = 0) (h : off < b) : wordOffset off < b :=
    (lt_iff_lt_of_le_iff_le (le_wordOffset_iff hlt hb)).2 h
  rcases h with hgap | ⟨h1, h2⟩ | ⟨h1, h2⟩ | ⟨h1, h2⟩ | h1
  · rw [hgap]
    exact locate_of_registerAt_none (by decide) (by decide)
  · exact locate_of_registerAt_none (below (by decide) h2) (registerAt_above (above (by decide) h1))
  · exact locate_beyondIbuf (above (by omega) h1) (below (by decide) h2)
  · exact locate_beyondObuf (above (by omega) h1) (below (by decide) h2)
  · exact locate_beyondBuffers (above (by decide) h1)

theorem memRead_reserved (h : locate s.cfg (wordOffset off) = .reserved) : s.memRead off = 0 := by
  simp only [State.memRead, h]

theorem memWrite_reserved (h : locate s.cfg (wordOffset off) = .reserved) (v : Word) : s.memWrite off v = s := by
  simp only [State.memWrite, h]

/-! ### Accesses at the bus -/

/-- A host read returns what the word reads before it; the queue of inputs is no part of a word. -/
theorem step_of_nextRead_memRead (h : NextRead s off rest) :
    step s = .next { s with inputs := rest, rdata := some (s.memRead off) } :=
  step_of_nextRead h

theorem hostRead_aligned (s : State) (h : off < 0x40000) :
    hostRead 32 (s.cfg.base + off) s = hostRead 32 (s.cfg.base + off / 4 * 4) s := by
  simp only [hostRead, windowOffset_base s.cfg h, windowOffset_base s.cfg (off := off / 4 * 4) (by omega), memRead_aligned]

theorem hostWrite_aligned (s : State) (h : off < 0x40000) (v : Word) :
    hostWrite 32 (s.cfg.base + off) v s = hostWrite 32 (s.cfg.base + off / 4 * 4) v s := by
  simp only [hostWrite, windowOffset_base s.cfg h, windowOffset_base s.cfg (off := off / 4 * 4) (by omega), memWrite_aligned]

theorem windowOffset_inside {addr : Nat} (h1 : c.base ≤ addr) (h2 : addr < c.base + 0x40000) :
    windowOffset c addr = some (addr - c.base) := if_pos ⟨h1, h2⟩

theorem windowOffset_outside {addr : Nat} (h : addr < c.base ∨ c.base + 0x40000 ≤ addr) : windowOffset c addr = none :=
  if_neg (by omega)

/-! ### The obligations -/

/-- Settles O24: each of the five places is a reserved word. -/
theorem reservedWordsAreInert : Obligations.ReservedWordsAreInert := by
  intro s off v rest hc hlt hoff
  have hres : locate s.cfg (wordOffset off) = .reserved := locate_reserved hc hlt hoff
  refine ⟨memRead_reserved hres, fun hn => ?_, fun hn => ?_⟩
  · rw [step_of_nextRead_memRead hn, memRead_reserved hres]
  · rw [step_of_nextWrite hn, memWrite_reserved (s := { s with inputs := rest }) hres]

/-- Settles O23: the step of a read, and the lanes of a buffer word. -/
theorem readsHaveNoSideEffect : Obligations.ReadsHaveNoSideEffect := by
  refine ⟨fun s off rest hn => step_of_nextRead_memRead hn, fun s k hc hk => ?_, fun s k hc hs hk => ?_⟩
  · rw [memRead_ibufWord hc hk, Memory.toNat_readWord]
  · rw [memRead_obufWord_of_idle hc hk hs, Memory.toNat_readWord]

/-- Settles O26: while IDLE the write stores the word into IBUF, whose bytes then are the word's lanes. -/
theorem ibufWordStoresFourBytes : Obligations.IbufWordStoresFourBytes := by
  intro s k v rest hc hwf hk hn hs
  have hread := Memory.read_writeWord hwf (4 * k) v
  refine ⟨{ s with inputs := rest, ibuf := s.ibuf.writeWord (4 * k) v }, ?_, rfl,
    by simp [hread], by simp [hread], by simp [hread], by simp [hread], fun a ha => ?_, ?_⟩
  · rw [step_of_nextWrite hn, memWrite_ibufWord_of_idle (s := { s with inputs := rest }) hc hk hs]
  · rw [hread, if_neg (by omega), if_neg (by omega), if_neg (by omega), if_neg (by omega)]
  · rw [memRead_ibufWord (s := { s with inputs := rest, ibuf := _ }) hc hk, Memory.readWord_writeWord hwf]

/-- Settles O25: an access depends on its offset by the word only. -/
theorem lowAddressBitsIgnored : Obligations.LowAddressBitsIgnored := fun s _ v rest _ hlt =>
  ⟨hostRead_aligned { s with inputs := rest } hlt, hostWrite_aligned { s with inputs := rest } hlt v⟩

/-- Settles O27: the read returns the word, which is 0 while BUSY. -/
theorem obufReadsZeroWhileBusy : Obligations.ObufReadsZeroWhileBusy := by
  intro s w off rest hs h1 h2 hn
  rw [step_of_nextRead_memRead hn, memRead_obufWindow_of_busy hs h1 h2]

/-- Settles O28: inside the window the width is refused, and outside it the bus faults at any width. -/
theorem otherAccessesStop : Obligations.OtherAccessesStop := by
  refine fun s bits addr v rest => ⟨fun h1 h2 hbits => ?_, fun h => ?_⟩
  · simp only [step, stepInputs, takeInput, hostRead, hostWrite, windowOffset_inside h1 h2, if_pos hbits, and_self]
  · simp only [step, stepInputs, takeInput, hostRead, hostWrite, windowOffset_outside h, and_self]

end Sys2Proof.Machine
end

section
/-! PROOFS. The command words: a word is the command of the one row it matches, decoding and encoding are inverse, and the
commands are 22 (30_encoding.md R301 to R310). -/

namespace Sys2Proof.Machine

variable {w k m : Word} {i : Instr} {r r' : OpcodeRow}

/-! ### Matching a row -/

/-- A match fixes every bit its mask holds. -/
theorem getLsbD_of_match (hw : w &&& k = m) (n : Nat) : (w.getLsbD n && k.getLsbD n) = m.getLsbD n := by
  rw [← hw, BitVec.getLsbD_and]

theorem extractLsb'_of_match (hw : w &&& k = m) (a n : Nat) :
    w.extractLsb' a n &&& k.extractLsb' a n = m.extractLsb' a n := by
  rw [← hw, BitVec.extractLsb'_and]

/-- Every mask holds OPCODE, and a match word is its OPCODE (30_encoding.md R302, R310). -/
theorem opcodeField_of_match (hr : r ∈ opcodeRows) (hw : w &&& r.mask = r.matchWord) :
    opcodeField w = r.matchWord.toNat := by
  have hrow : ∀ r ∈ opcodeRows,
      r.mask.extractLsb' 0 8 = BitVec.allOnes 8 ∧ opcodeField r.matchWord = r.matchWord.toNat := by decide
  obtain ⟨hmask, hmatch⟩ := hrow r hr
  have hfield := extractLsb'_of_match hw 0 8
  rw [hmask, BitVec.and_allOnes] at hfield
  rw [← hmatch, opcodeField, opcodeField, hfield]

/-- Every mask holds the reserved bits, 11 and 31:14, which are 0 in every match word (30_encoding.md R307). -/
theorem reservedBits_of_match (hr : r ∈ opcodeRows) (hw : w &&& r.mask = r.matchWord) :
    w.getLsbD 11 = false ∧ w.extractLsb' 14 18 = 0 := by
  have hrow : ∀ r ∈ opcodeRows, (r.mask.getLsbD 11 = true ∧ r.mask.extractLsb' 14 18 = BitVec.allOnes 18) ∧
      r.matchWord.getLsbD 11 = false ∧ r.matchWord.extractLsb' 14 18 = 0 := by decide
  obtain ⟨⟨hmask11, hmask14⟩, hmatch11, hmatch14⟩ := hrow r hr
  have h11 := getLsbD_of_match hw 11
  have h14 := extractLsb'_of_match hw 14 18
  rw [hmask11, hmatch11, Bool.and_true] at h11
  rw [hmask14, hmatch14, BitVec.and_allOnes] at h14
  exact ⟨h11, h14⟩

/-- A match word has 0 in every field but OPCODE: a word that matches has 0 where the mask holds a field. -/
theorem fields_of_match (hr : r ∈ opcodeRows) (hw : w &&& r.mask = r.matchWord) :
    (fmtField w && fmtField r.mask) = false ∧ (ttlEnField w && ttlEnField r.mask) = false ∧
      (forTimeField w && forTimeField r.mask) = false ∧ hselField w &&& hselField r.mask = 0 := by
  have hrow : ∀ r ∈ opcodeRows, fmtField r.matchWord = false ∧ ttlEnField r.matchWord = false ∧
      forTimeField r.matchWord = false ∧ hselField r.matchWord = 0 := by decide
  obtain ⟨hfmt, httlEn, hforTime, hhsel⟩ := hrow r hr
  exact ⟨(getLsbD_of_match hw 8).trans hfmt, (getLsbD_of_match hw 9).trans httlEn,
    (getLsbD_of_match hw 10).trans hforTime, (extractLsb'_of_match hw 12 2).trans hhsel⟩

/-- Every mask holds bit 13, the upper bit of HSEL (30_encoding.md R306). -/
theorem hselLegal_of_match (hr : r ∈ opcodeRows) (hw : w &&& r.mask = r.matchWord) : hselLegal (hselField w) := by
  have hmask : ∀ r ∈ opcodeRows, hselField r.mask = 2 ∨ hselField r.mask = 3 := by decide
  have hbit : ∀ h k : BitVec 2, k = 2 ∨ k = 3 → h &&& k = 0 → hselLegal h := by decide
  obtain ⟨-, -, -, hhsel⟩ := fields_of_match hr hw
  exact hbit _ _ (hmask r hr) hhsel

/-! ### The row of a word -/

/-- Two rows that match one word have the OPCODE of that word (30_encoding.md R308). -/
theorem matchWord_unique (hr : r ∈ opcodeRows) (hr' : r' ∈ opcodeRows) (hw : w &&& r.mask = r.matchWord)
    (hw' : w &&& r'.mask = r'.matchWord) : r.matchWord = r'.matchWord :=
  BitVec.eq_of_toNat_eq ((opcodeField_of_match hr hw).symm.trans (opcodeField_of_match hr' hw'))

theorem row_unique (hr : r ∈ opcodeRows) (hr' : r' ∈ opcodeRows) (hw : w &&& r.mask = r.matchWord)
    (hw' : w &&& r'.mask = r'.matchWord) : r = r' := by
  have hnodup : (opcodeRows.map OpcodeRow.matchWord).Nodup := by decide
  exact List.inj_on_of_nodup_map hnodup hr hr' (matchWord_unique hr hr' hw hw')

/-- A word that matches a row is that row's command, whichever row the search finds (30_encoding.md R308). -/
theorem decode_of_match (hr : r ∈ opcodeRows) (hw : w &&& r.mask = r.matchWord) : decode w = .ok (r.command w) := by
  unfold decode
  split
  next r' hr' => rw [row_unique hr (List.mem_of_find?_eq_some hr') hw (by simpa using List.find?_some hr')]
  next hnone => exact absurd hw (by simpa using List.find?_eq_none.1 hnone r hr)

theorem decode_ok_iff_match : decode w = .ok i ↔ ∃ r ∈ opcodeRows, w &&& r.mask = r.matchWord ∧ i = r.command w :=
  ⟨exists_row_of_decode, fun ⟨_, hr, hw, hi⟩ => hi ▸ decode_of_match hr hw⟩

/-! ### A word and its fields -/

theorem toNat_getLsbD (w : Word) (n : Nat) : (w.getLsbD n).toNat = w.toNat / 2 ^ n % 2 := Nat.toNat_testBit w.toNat n

theorem toNat_extractLsb' (w : Word) (a n : Nat) : (w.extractLsb' a n).toNat = w.toNat / 2 ^ a % 2 ^ n := by
  rw [BitVec.extractLsb'_toNat, Nat.shiftRight_eq_div_pow]

/-- A word whose reserved bits are 0 is the command word of its fields (30_encoding.md R301). -/
theorem commandWord_fields (h11 : w.getLsbD 11 = false) (h14 : w.extractLsb' 14 18 = 0) :
    commandWord (opcodeField w) (fmtField w) (ttlEnField w) (forTimeField w) (hselField w) = w := by
  apply BitVec.eq_of_toNat_eq
  have hbit11 := toNat_getLsbD w 11
  have hbits14 := toNat_extractLsb' w 14 18
  rw [h11, Bool.toNat_false] at hbit11
  rw [h14, show (0 : BitVec 18).toNat = 0 from rfl] at hbits14
  simp only [commandWord, opcodeField, fmtField, ttlEnField, forTimeField, hselField, toNat_getLsbD, toNat_extractLsb',
    BitVec.toNat_ofNat]
  omega

/-- The encoding of a row's command has the row's OPCODE and those fields of the word that the mask leaves free. -/
theorem encode_command (hr : r ∈ opcodeRows) (w : Word) :
    encode (r.command w) = commandWord r.matchWord.toNat (fmtField w && !fmtField r.mask) (ttlEnField w && !ttlEnField r.mask)
      (forTimeField w && !forTimeField r.mask) (if hselField r.mask = 3 then 0 else hselField w) := by
  revert r
  simp [opcodeRows, encode, fmtField, ttlEnField, forTimeField, hselField]

/-- A word that matches a row is the encoding of the row's command: the fields that the mask holds are 0. -/
theorem encode_command_of_match (hr : r ∈ opcodeRows) (hw : w &&& r.mask = r.matchWord) : encode (r.command w) = w := by
  obtain ⟨h11, h14⟩ := reservedBits_of_match hr hw
  obtain ⟨hfmt, httlEn, hforTime, hhsel⟩ := fields_of_match hr hw
  have hfree : ∀ a b : Bool, (a && b) = false → (a && !b) = a := by decide
  have hfreeHsel : ∀ a b : BitVec 2, a &&& b = 0 → (if b = 3 then 0 else a) = a := by decide
  rw [encode_command hr, hfree _ _ hfmt, hfree _ _ httlEn, hfree _ _ hforTime, hfreeHsel _ _ hhsel,
    ← opcodeField_of_match hr hw, commandWord_fields h11 h14]

/-- HSEL is the only field of a command that can be ill-formed (30_encoding.md R306). -/
theorem wellFormed_command (hr : r ∈ opcodeRows) (h : hselLegal (hselField w)) : (r.command w).wellFormed = true := by
  revert r
  simpa [opcodeRows, Instr.wellFormed] using h

/-! ### The 22 commands -/

/-- The well-formed commands, in the order of 95_test_vectors.md 2.1. -/
def legalCommands : List Instr :=
  [.keyLoad false, .keyLoad true, .keyGenerate false, .keyGenerate true, .tokenEncrypt false, .tokenEncrypt true,
   .tokenDecrypt false false, .tokenDecrypt true false, .tokenDecrypt false true, .tokenDecrypt true true,
   .cbcEncrypt, .cbcDecrypt, .mac 0, .mac 1, .secretLoad false, .secretLoad true, .otpGenerate, .otpNow,
   .otpVerify false, .otpVerify true, .otpUri, .zeroize]

theorem mem_legalCommands_iff : i ∈ legalCommands ↔ i.wellFormed = true := by
  cases i with
  | keyLoad raw => revert raw; decide
  | keyGenerate raw => revert raw; decide
  | tokenEncrypt raw => revert raw; decide
  | tokenDecrypt raw ttlEn => revert raw ttlEn; decide
  | mac hsel => revert hsel; decide
  | secretLoad raw => revert raw; decide
  | otpVerify forTime => revert forTime; decide
  | _ => decide

theorem decode_encode (h : i.wellFormed = true) : decode (encode i) = .ok i := by
  have hround : ∀ i ∈ legalCommands, decode (encode i) = .ok i := by decide
  exact hround i (mem_legalCommands_iff.2 h)

theorem decode_ok_iff_encode : decode w = .ok i ↔ i.wellFormed = true ∧ encode i = w := by
  constructor
  · intro h
    obtain ⟨r, hr, hw, rfl⟩ := exists_row_of_decode h
    exact ⟨wellFormed_command hr (hselLegal_of_match hr hw), encode_command_of_match hr hw⟩
  · rintro ⟨hwf, rfl⟩
    exact decode_encode hwf

theorem exists_decode_iff : (∃ i, decode w = .ok i) ↔ w ∈ legalCommands.map encode := by
  simp only [decode_ok_iff_encode, List.mem_map, mem_legalCommands_iff]

/-! ### Words that are no command -/

/-- The clauses of 30_encoding.md R309. -/
abbrev IllegalWord (w : Word) : Prop :=
  opcodeField w = 0 ∨ 0x0E ≤ opcodeField w ∨ w.getLsbD 11 = true ∨ w.extractLsb' 14 18 ≠ 0 ∨
    (fmtField w = true ∧ opcodeField w ∉ [0x01, 0x02, 0x03, 0x04, 0x08]) ∨
    (ttlEnField w = true ∧ opcodeField w ≠ 0x04) ∨ (forTimeField w = true ∧ opcodeField w ≠ 0x0B) ∨
    (hselField w ≠ 0 ∧ opcodeField w ≠ 0x07) ∨ (opcodeField w = 0x07 ∧ 2 ≤ (hselField w).toNat)

/-- The opcodes that leave a field free (30_encoding.md R303 to R307, R310). -/
theorem freeFields_opcode (hr : r ∈ opcodeRows) :
    (fmtField r.mask = false → r.matchWord.toNat ∈ [0x01, 0x02, 0x03, 0x04, 0x08]) ∧
      (ttlEnField r.mask = false → r.matchWord.toNat = 0x04) ∧ (forTimeField r.mask = false → r.matchWord.toNat = 0x0B) ∧
      (hselField r.mask ≠ 3 → r.matchWord.toNat = 0x07) := by
  revert r
  decide

/-- No clause holds of a word that matches a row. -/
theorem not_illegalWord_of_match (hr : r ∈ opcodeRows) (hw : w &&& r.mask = r.matchWord) : ¬IllegalWord w := by
  have hopcodes : ∀ r ∈ opcodeRows, r.matchWord.toNat ≠ 0 ∧ r.matchWord.toNat < 0x0E := by decide
  obtain ⟨hne, hlt⟩ := hopcodes r hr
  obtain ⟨h11, h14⟩ := reservedBits_of_match hr hw
  obtain ⟨hfmt, httlEn, hforTime, hhsel⟩ := fields_of_match hr hw
  obtain ⟨hfmtOp, httlEnOp, hforTimeOp, hhselOp⟩ := freeFields_opcode hr
  unfold IllegalWord
  rw [opcodeField_of_match hr hw]
  rintro (h | h | h | h | ⟨h, hop⟩ | ⟨h, hop⟩ | ⟨h, hop⟩ | ⟨h, hop⟩ | ⟨-, h⟩)
  · exact hne h
  · omega
  · exact Bool.noConfusion (h11.symm.trans h)
  · exact h h14
  · exact hop (hfmtOp (by simpa [h] using hfmt))
  · exact hop (httlEnOp (by simpa [h] using httlEn))
  · exact hop (hforTimeOp (by simpa [h] using hforTime))
  · refine hop (hhselOp fun hmask => h ?_)
    rwa [hmask, show (3 : BitVec 2) = BitVec.allOnes 2 from rfl, BitVec.and_allOnes] at hhsel
  · exact absurd (hselLegal_of_match hr hw) (by omega)

theorem decode_of_illegalWord (h : IllegalWord w) : ∃ e, decode w = .error e := by
  cases hd : decode w with
  | error e => exact ⟨e, rfl⟩
  | ok i =>
    obtain ⟨r, hr, hw, -⟩ := exists_row_of_decode hd
    exact absurd h (not_illegalWord_of_match hr hw)

/-- A word in progress that is no command completes with ILLEGAL_COMMAND (30_encoding.md R309). -/
theorem step_of_decode_error {s : State} {rest : List Input} {e : Reject} (hs : s.seq = .busy w) (hn : SequencerNext s rest)
    (hd : decode w = .error e) : step s = .next ({ s with inputs := rest }.raiseError .illegalCommand) := by
  simp only [step_of_sequencerNext hn, runCommand, hs, hd]

/-! ### The obligations -/

/-- Settles O1: a word that decodes matches a row, of whose fields it is the encoding; each of the 22 encodings decodes. -/
theorem decodeInvertsEncode : Obligations.DecodeInvertsEncode := fun _ _ => decode_ok_iff_encode

/-- Settles O2: the words are the encodings of the well-formed commands. -/
theorem legalWordsAreTheTwentyTwo : Obligations.LegalWordsAreTheTwentyTwo := by
  have hwords : ∀ w : Word, (∃ i, decode w = .ok i) ↔ w ∈ legalCommands.map encode := fun _ => exists_decode_iff
  exact ⟨rfl, by decide, hwords⟩

/-- Settles O3: matching rows have the word's OPCODE, so the row the search finds is the only one. -/
theorem atMostOneRowMatches : Obligations.AtMostOneRowMatches :=
  ⟨fun _ _ => decode_ok_iff_match, fun _ _ hr _ hr' => matchWord_unique hr hr'⟩

/-- Settles O5: such a word is rejected, and the step of a rejected word is the error completion. -/
theorem illegalWordCompletes : Obligations.IllegalWordCompletes := by
  intro s w rest hs hn hw
  obtain ⟨e, hd⟩ := decode_of_illegalWord hw
  exact ⟨_, step_of_decode_error hs hn hd, fails_raiseError { s with inputs := rest } .illegalCommand⟩

/-- Settles O4: the seven commands by their encodings, the two rejections by evaluation. -/
theorem wordsOfTheMnemonics : Obligations.WordsOfTheMnemonics :=
  have hlegal {w : Word} {i : Instr} (hwf : i.wellFormed = true) (hw : encode i = w) : decode w = .ok i :=
    decode_ok_iff_encode.2 ⟨hwf, hw⟩
  ⟨hlegal rfl rfl, hlegal rfl rfl, hlegal rfl rfl, hlegal rfl rfl, hlegal rfl rfl, hlegal rfl rfl, hlegal rfl rfl,
    by decide, by decide⟩

end Sys2Proof.Machine
end

section
/-! PROOFS. The block cipher: AES_Dec undoes AES_Enc round by round, unpadding undoes padding, and CBC_Decrypt undoes
CBC_Encrypt block by block (40_block_cipher.md R425 to R437); the outcomes of CBC_ENCRYPT and CBC_DECRYPT (R440, R441). -/

namespace Sys2Proof.Machine

variable {key iv p q r c : Bytes} {s : State}

/-! ### The single-block cipher -/

/-- A loop whose turns `f` are each undone by `g` seen through `h` is undone by the turns `g` in reverse, seen through `h`. -/
theorem foldl_reverse_foldl {α β : Type} {f g : α → β → α} {h : α → α} (hturn : ∀ x n, g (h (f x n)) n = h x)
    (l : List β) (x : α) : l.reverse.foldl g (h (l.foldl f x)) = h x := by
  induction l generalizing x with
  | nil => rfl
  | cons n rest ih =>
    rw [List.reverse_cons, List.foldl_concat, List.foldl_cons, ih (f x n), hturn x n]

/-- A round of AES_Dec starts and ends half a round away from one of AES_Enc, past SubBytes and ShiftRows (R425, R426). -/
theorem aesInvRound_aesRound (w : List Bytes) (x : Bytes) (n : Nat) :
    aesInvRound w (shiftRows (subBytes (aesRound w x n))) n = shiftRows (subBytes x) := by
  rw [aesRound, aesInvRound, invShiftRows_shiftRows (length_subBytes _), invSubBytes_subBytes (length_addRoundKey ..),
    addRoundKey_addRoundKey (length_mixColumns _), invMixColumns_mixColumns (length_shiftRows _)]

theorem aesRound_aesInvRound (w : List Bytes) (x : Bytes) (n : Nat) :
    aesRound w (invSubBytes (invShiftRows (aesInvRound w x n))) n = invSubBytes (invShiftRows x) := by
  rw [aesInvRound, aesRound, subBytes_invSubBytes (length_invShiftRows _), shiftRows_invShiftRows (length_invMixColumns _),
    mixColumns_invMixColumns (length_addRoundKey ..), addRoundKey_addRoundKey (length_invSubBytes _)]

/-- The loops over the rounds undo each other, at the same half round's distance (R425, R426). -/
theorem aesInvRounds_aesRounds (w : List Bytes) (rounds : List Nat) (x : Bytes) :
    rounds.reverse.foldl (aesInvRound w) (shiftRows (subBytes (rounds.foldl (aesRound w) x))) = shiftRows (subBytes x) :=
  foldl_reverse_foldl (h := shiftRows ∘ subBytes) (aesInvRound_aesRound w) rounds x

theorem aesRounds_aesInvRounds (w : List Bytes) (rounds : List Nat) (x : Bytes) :
    rounds.foldl (aesRound w) (invSubBytes (invShiftRows (rounds.reverse.foldl (aesInvRound w) x))) =
      invSubBytes (invShiftRows x) := by
  have h := foldl_reverse_foldl (h := invSubBytes ∘ invShiftRows) (aesRound_aesInvRound w) rounds.reverse x
  rwa [List.reverse_reverse] at h

theorem aesDec_aesEnc (key : Bytes) (hp : p.length = 16) : aesDec key (aesEnc key p) = p := by
  rw [aesEnc, aesDec, addRoundKey_addRoundKey (length_shiftRows _), aesInvRounds_aesRounds,
    invShiftRows_shiftRows (length_subBytes _), invSubBytes_subBytes (length_addRoundKey ..), addRoundKey_addRoundKey hp]

theorem aesEnc_aesDec (key : Bytes) (hc : c.length = 16) : aesEnc key (aesDec key c) = c := by
  rw [aesDec, aesEnc, addRoundKey_addRoundKey (length_invSubBytes _), aesRounds_aesInvRounds,
    subBytes_invSubBytes (length_invShiftRows _), shiftRows_invShiftRows (length_addRoundKey ..), addRoundKey_addRoundKey hc]

/-! ### Padding -/

/-- A pad of 1 to 16 bytes is taken off (R430, R431). -/
theorem pkcs7Unpad_append_pad (p : Bytes) {k : Nat} (h1 : 1 ≤ k) (h16 : k ≤ 16) :
    pkcs7Unpad (p ++ bytesOf k (BitVec.ofNat 8 k)) = .ok p := by
  have hm : (p ++ bytesOf k (BitVec.ofNat 8 k)).length = p.length + k := by rw [List.length_append, length_bytesOf]
  have hlast : ((p ++ bytesOf k (BitVec.ofNat 8 k)).getD (p.length + k - 1) 0).toNat = k := by
    rw [List.getD_append_right _ _ _ _ (by omega), bytesOf, List.getD_replicate _ (by omega), BitVec.toNat_ofNat]
    omega
  have htail : slice (p ++ bytesOf k (BitVec.ofNat 8 k)) p.length (p.length + k) = bytesOf k (BitVec.ofNat 8 k) :=
    slice_append_right (by rw [length_bytesOf])
  simp only [pkcs7Unpad, hm, hlast, Nat.add_sub_cancel]
  rw [if_neg (by omega), if_neg (not_not.2 htail), slice_append_left]

/-- Unpadding fails, or what it takes off is a pad (R431). -/
theorem pkcs7Unpad_cases (q : Bytes) :
    pkcs7Unpad q = .error .padFail ∨
      ∃ r k, 1 ≤ k ∧ k ≤ 16 ∧ q = r ++ bytesOf k (BitVec.ofNat 8 k) ∧ pkcs7Unpad q = .ok r := by
  unfold pkcs7Unpad
  dsimp only
  generalize (q.getD (q.length - 1) 0).toNat = k
  by_cases hk : k < 1 ∨ 16 < k
  · exact .inl (if_pos hk)
  by_cases htail : slice q (q.length - k) q.length = bytesOf k (BitVec.ofNat 8 k)
  · refine .inr ⟨slice q 0 (q.length - k), k, by omega, by omega, ?_, by rw [if_neg hk, if_neg (not_not.2 htail)]⟩
    rw [← htail, slice, slice, List.drop_zero, List.take_length, List.take_append_drop]
  · exact .inl (by rw [if_neg hk, if_pos htail])

theorem length_lt_of_pkcs7Unpad (h : pkcs7Unpad q = .ok r) : r.length < q.length := by
  rcases pkcs7Unpad_cases q with hf | ⟨r', k, h1, -, rfl, ho⟩
  · nomatch hf.symm.trans h
  · cases ho.symm.trans h
    rw [List.length_append, length_bytesOf]
    omega

theorem pkcs7Unpad_ne_lenFail (q : Bytes) : pkcs7Unpad q ≠ .error .lenFail := by
  rcases pkcs7Unpad_cases q with hf | ⟨r, k, -, -, -, ho⟩
  · rw [hf]
    nofun
  · rw [ho]
    nofun

/-! ### Cipher-block chaining -/

/-- xor undoes itself, as far as the string reaches. -/
theorem xorBytes_xorBytes {a b : Bytes} (h : a.length ≤ b.length) : xorBytes (xorBytes a b) b = a := by
  refine List.ext_getElem (by simpa using h) fun n h1 h2 => ?_
  simp only [xorBytes, List.getElem_zipWith, BitVec.xor_assoc, BitVec.xor_self, BitVec.xor_zero]

/-- The loop of CBC_Decrypt undoes that of CBC_Encrypt on n whole blocks (R435, R436). -/
theorem cbcDecBlocks_cbcEncBlocks (key : Bytes) {n : Nat} (hiv : iv.length = 16) (hq : q.length = 16 * n) :
    cbcDecBlocks key iv (groupsOf 16 (cbcEncBlocks key iv (groupsOf 16 q))) = q := by
  induction n generalizing iv q with
  | zero =>
    obtain rfl : q = [] := List.length_eq_zero_iff.1 hq
    simp only [groupsOf_nil, cbcEncBlocks, cbcDecBlocks]
  | succ n ih =>
    obtain ⟨b, rest, rfl, hb, hrest⟩ : ∃ b rest, q = b ++ rest ∧ b.length = 16 ∧ rest.length = 16 * n :=
      ⟨q.take 16, q.drop 16, (List.take_append_drop 16 q).symm, by rw [List.length_take]; omega,
        by rw [List.length_drop]; omega⟩
    have hx : (xorBytes b iv).length = 16 := by rw [length_xorBytes, hb, hiv, Nat.min_self]
    rw [groupsOf_append (by decide) hb, cbcEncBlocks, groupsOf_append (by decide) (length_aesEnc ..), cbcDecBlocks,
      aesDec_aesEnc key hx, xorBytes_xorBytes (by omega), ih (length_aesEnc ..) hrest]

/-- On a ciphertext of whole blocks, at least one, CBC_Decrypt comes to the pad (R436). -/
theorem cbcDecrypt_of_blocks (key iv : Bytes) (h0 : c.length ≠ 0) (h16 : c.length % 16 = 0) :
    cbcDecrypt key iv c = pkcs7Unpad (cbcDecBlocks key iv (groupsOf 16 c)) :=
  if_neg (by omega)

/-- A plaintext is shorter than the ciphertext it comes from, by its pad (R436). -/
theorem length_lt_of_cbcDecrypt (h0 : c.length ≠ 0) (h16 : c.length % 16 = 0) (h : cbcDecrypt key iv c = .ok r) :
    r.length < c.length := by
  rw [cbcDecrypt_of_blocks key iv h0 h16] at h
  have hunpad := length_lt_of_pkcs7Unpad h
  have hblocks := length_cbcDecBlocks_le key (groupsOf 16 c) iv
  rw [length_groupsOf] at hblocks
  omega

/-! ### The commands -/

@[simp] theorem length_ibufRange (s : State) (i j : Nat) : (s.ibufRange i j).length = j - i := Memory.length_readBytes ..

theorem exec_cbcEncrypt_of_badLength (h : s.cfg.ibufBytes < s.inLength ∨ s.inLength < 32) :
    exec .cbcEncrypt s = .next (s.raiseError .length) := by
  rw [exec, execCbcEncrypt, if_pos h]

theorem exec_cbcEncrypt_of_overflow (h32 : 32 ≤ s.inLength) (hL : s.inLength ≤ s.cfg.ibufBytes)
    (h : s.cfg.obufBytes < 16 * ((s.inLength - 32) / 16 + 1)) : exec .cbcEncrypt s = .next (s.raiseError .outputOverflow) := by
  rw [exec, execCbcEncrypt, if_neg (by omega), if_pos h]

theorem exec_cbcEncrypt_of_fits (h32 : 32 ≤ s.inLength) (hL : s.inLength ≤ s.cfg.ibufBytes)
    (h : 16 * ((s.inLength - 32) / 16 + 1) ≤ s.cfg.obufBytes) :
    exec .cbcEncrypt s =
      .next (s.finish (cbcEncrypt (s.ibufRange 0 16) (s.ibufRange 16 32) (s.ibufRange 32 s.inLength))) := by
  rw [exec, execCbcEncrypt, if_neg (by omega), if_neg (by omega)]

theorem exec_cbcDecrypt_of_badLength
    (h : s.cfg.ibufBytes < s.inLength ∨ s.inLength < 48 ∨ (s.inLength - 32) % 16 ≠ 0) :
    exec .cbcDecrypt s = .next (s.raiseError .length) := by
  rw [exec, execCbcDecrypt, if_pos h]

section
variable (h48 : 48 ≤ s.inLength) (hL : s.inLength ≤ s.cfg.ibufBytes) (h16 : (s.inLength - 32) % 16 = 0)
include h48 hL h16

theorem exec_cbcDecrypt_of_padFail
    (h : cbcDecrypt (s.ibufRange 0 16) (s.ibufRange 16 32) (s.ibufRange 32 s.inLength) = .error .padFail) :
    exec .cbcDecrypt s = .next (s.raiseError .padding) := by
  rw [exec, execCbcDecrypt, if_neg (by omega), h]

theorem exec_cbcDecrypt_of_ok
    (h : cbcDecrypt (s.ibufRange 0 16) (s.ibufRange 16 32) (s.ibufRange 32 s.inLength) = .ok r) :
    exec .cbcDecrypt s = .next (s.finish r) := by
  rw [exec, execCbcDecrypt, if_neg (by omega), h]

end

/-! ### The obligations -/

/-- Settles O29: each round of one cipher undoes the round of the other, and the preimage of a block is its decryption. -/
theorem aesDecInvertsAesEnc : Obligations.AesDecInvertsAesEnc := fun key _ =>
  ⟨fun p hp => ⟨length_aesEnc key p, aesDec_aesEnc key hp⟩, fun c hc =>
    ⟨aesDec key c, length_aesDec key c, aesEnc_aesDec key hc, fun _ hq h => h ▸ (aesDec_aesEnc key hq).symm⟩⟩

/-- Settles O30: a pad has 1 to 16 bytes. -/
theorem unpadInvertsPad : Obligations.UnpadInvertsPad := fun p => pkcs7Unpad_append_pad p (by omega) (by omega)

/-- Settles O31: by induction on the blocks of the padded plaintext, then by unpadding. -/
theorem cbcDecryptInvertsEncrypt : Obligations.CbcDecryptInvertsEncrypt := by
  intro key iv p _ hiv
  have hlen := length_cbcEncrypt key iv p
  rw [cbcDecrypt_of_blocks key iv (by omega) (by omega), cbcEncrypt,
    cbcDecBlocks_cbcEncBlocks key hiv (length_pkcs7Pad p)]
  exact unpadInvertsPad p

/-- Settles O32: the ciphertext has n bytes, and n is less than IN_LEN. -/
theorem cbcEncryptResult : Obligations.CbcEncryptResult := by
  refine fun s => ⟨fun h => ⟨_, exec_cbcEncrypt_of_badLength h, fails_raiseError s _⟩, fun n h32 hL hn => ?_⟩
  subst hn
  have hlt : s.inLength < 2 ^ 32 := s.inLen.isLt
  refine ⟨fun h => ⟨_, exec_cbcEncrypt_of_overflow h32 hL h, fails_raiseError s _⟩, fun h => ?_, fun hc => ?_⟩
  · have hlen := length_cbcEncrypt (s.ibufRange 0 16) (s.ibufRange 16 32) (s.ibufRange 32 s.inLength)
    rw [length_ibufRange] at hlen
    have hout := outputs_complete s false (hlen ▸ (by omega : 16 * ((s.inLength - 32) / 16 + 1) < 2 ^ 32))
    exact ⟨_, exec_cbcEncrypt_of_fits h32 hL h, hout.completed.outLen.trans hlen, hout⟩
  · have := ibufBytes_le_obufBytes hc
    omega

/-- Settles O33: a ciphertext that passes the LENGTH check has whole blocks, and its plaintext is shorter by the pad. -/
theorem cbcDecryptResult : Obligations.CbcDecryptResult := by
  refine fun s _ => ⟨fun h => ⟨_, exec_cbcDecrypt_of_badLength h, fails_raiseError s _⟩, fun h48 hL h16 => ?_⟩
  have hc := length_ibufRange s 32 s.inLength
  have hlt : s.inLength < 2 ^ 32 := s.inLen.isLt
  refine ⟨fun h => ⟨_, exec_cbcDecrypt_of_padFail h48 hL h16 h, fails_raiseError s _⟩, fun r h => ?_, ?_⟩
  · have hr := length_lt_of_cbcDecrypt (by omega) (by omega) h
    have hout := outputs_complete s (out := r) false (by omega)
    exact ⟨_, exec_cbcDecrypt_of_ok h48 hL h16 h, hout, hout.completed.outLen.trans_le (by omega)⟩
  · rw [cbcDecrypt_of_blocks _ _ (by omega) (by omega)]
    exact pkcs7Unpad_ne_lenFail _

end Sys2Proof.Machine
end

section
/-! PROOFS. The outcomes of MAC: the LENGTH check, and the HMAC of the message with the digest length of the hash function that
HSEL selects (41_mac.md R530). -/

namespace Sys2Proof.Machine

variable {s : State} {hsel : BitVec 2} {h : HashAlg}

/-! ### The hash function of a selector (30_encoding.md R306) -/

@[simp] theorem hashOfSelector_zero : hashOfSelector 0 = some .sha1 := rfl

@[simp] theorem hashOfSelector_one : hashOfSelector 1 = some .sha256 := rfl

/-! ### The command -/

section
variable (hh : hashOfSelector hsel = some h)
include hh

theorem exec_mac_of_badLength (hL : s.cfg.ibufBytes < s.inLength ∨ s.inLength < s.auxLength) :
    exec (.mac hsel) s = .next (s.raiseError .length) := by
  simp only [exec, execMac, hh, if_pos hL]

theorem exec_mac_of_goodLength (hA : s.auxLength ≤ s.inLength) (hL : s.inLength ≤ s.cfg.ibufBytes) :
    exec (.mac hsel) s =
      .next (s.finish (hmac h (s.ibufRange 0 s.auxLength) (s.ibufRange s.auxLength s.inLength))) := by
  have hok : ¬(s.cfg.ibufBytes < s.inLength ∨ s.inLength < s.auxLength) := by omega
  simp only [exec, execMac, hh, if_neg hok]

end

/-! ### The obligation -/

/-- Settles O34: HSEL selects the hash function, and the MAC has its digest length. -/
theorem macResult : Obligations.MacResult := by
  intro s hsel h d _ hsel_cases
  obtain ⟨hh, rfl⟩ : hashOfSelector hsel = some h ∧ h.digestLength = d := by
    obtain ⟨rfl, rfl, rfl⟩ | ⟨rfl, rfl, rfl⟩ := hsel_cases
    · exact ⟨hashOfSelector_zero, rfl⟩
    · exact ⟨hashOfSelector_one, rfl⟩
  refine ⟨fun hL => ⟨_, exec_mac_of_badLength hh hL, fails_raiseError s _⟩, fun hA hL => ?_⟩
  have hlen := length_hmac h (s.ibufRange 0 s.auxLength) (s.ibufRange s.auxLength s.inLength)
  have hle := digestLength_le h
  have hout := outputs_complete s false (hlen ▸ (by omega : h.digestLength < 2 ^ 32))
  exact ⟨_, exec_mac_of_goodLength hh hA hL, hout, hout.completed.outLen.trans hlen⟩

end Sys2Proof.Machine
end

section
/-! PROOFS. Base64url: the three forms of a group of 4 characters, and that decoding a group and encoding its bytes undo each
other (42_token_codec.md R600 to R603). -/

namespace Sys2Proof.Machine

/-! ### One group of 4 characters -/

/-- A group of 4 characters and the bytes it stands for: four characters, or in the final group three with unused low bits 0,
or two (R601, R602). -/
inductive GroupStandsFor : Bool → Byte → Byte → Byte → Byte → Bytes → Prop where
  | three {v0 v1 v2 v3 : Nat} (last : Bool) (h0 : v0 < 64) (h1 : v1 < 64) (h2 : v2 < 64) (h3 : v3 < 64) :
    GroupStandsFor last (b64Char v0) (b64Char v1) (b64Char v2) (b64Char v3) (be (((v0 * 64 + v1) * 64 + v2) * 64 + v3) 3)
  | two {v0 v1 v2 : Nat} (h0 : v0 < 64) (h1 : v1 < 64) (h2 : v2 < 64) (hlow : v2 % 2 ^ 2 = 0) :
    GroupStandsFor true (b64Char v0) (b64Char v1) (b64Char v2) padChar (be (((v0 * 64 + v1) * 64 + v2) / 2 ^ 2) 2)
  | one {v0 v1 : Nat} (h0 : v0 < 64) (h1 : v1 < 64) (hlow : v1 % 2 ^ 4 = 0) :
    GroupStandsFor true (b64Char v0) (b64Char v1) padChar padChar [BitVec.ofNat 8 ((v0 * 64 + v1) / 2 ^ 4)]

variable {last : Bool} {q0 q1 q2 q3 : Byte} {g s out : Bytes} {v v0 v1 v2 v3 : Nat}

/-- The decoder gives a group the bytes it stands for. -/
theorem GroupStandsFor.b64Group_eq (h : GroupStandsFor last q0 q1 q2 q3 g) : b64Group last q0 q1 q2 q3 = some g := by
  cases h with
  | three last h0 h1 h2 h3 =>
    obtain ⟨e0, n0⟩ := b64Val_b64Char _ h0
    obtain ⟨e1, n1⟩ := b64Val_b64Char _ h1
    obtain ⟨e2, n2⟩ := b64Val_b64Char _ h2
    obtain ⟨e3, n3⟩ := b64Val_b64Char _ h3
    simp only [b64Group, n0, n1, n2, n3, e0, e1, e2, e3, or_self, false_and, if_false]
  | @two v0 v1 v2 h0 h1 h2 hlow =>
    obtain ⟨e0, n0⟩ := b64Val_b64Char _ h0
    obtain ⟨e1, n1⟩ := b64Val_b64Char _ h1
    obtain ⟨e2, n2⟩ := b64Val_b64Char _ h2
    have hv : ((v0 * 64 + v1) * 64 + v2) % 4 = 0 := by omega
    simp [b64Group, n0, n1, n2, e0, e1, e2, hv]
  | @one v0 v1 h0 h1 hlow =>
    obtain ⟨e0, n0⟩ := b64Val_b64Char _ h0
    obtain ⟨e1, n1⟩ := b64Val_b64Char _ h1
    have hv : (v0 * 64 + v1) % 16 = 0 := by omega
    simp [b64Group, n0, n1, e0, e1, hv]

/-- The decoder accepts no other group. -/
theorem groupStandsFor_of_b64Group (h : b64Group last q0 q1 q2 q3 = some g) : GroupStandsFor last q0 q1 q2 q3 g := by
  unfold b64Group at h
  split at h
  · nomatch h
  split at h
  · nomatch h
  rename_i _ hpads
  split at h
  · nomatch h
  rename_i hfinal
  split at h
  swap
  · nomatch h
  rename_i v0 v1 e0 e1
  obtain ⟨h0, rfl⟩ := b64Char_of_b64Val _ _ e0
  obtain ⟨h1, rfl⟩ := b64Char_of_b64Val _ _ e1
  split at h
  · rename_i hq2
    obtain rfl : last = true := by simpa [hq2] using hfinal
    obtain rfl : q3 = padChar := by simpa [hq2] using hpads
    subst hq2
    dsimp only at h
    split at h
    · nomatch h
    cases h
    exact .one h0 h1 (by omega)
  split at h
  swap
  · nomatch h
  rename_i v2 e2
  obtain ⟨h2, rfl⟩ := b64Char_of_b64Val _ _ e2
  split at h
  · rename_i hq3
    obtain rfl : last = true := by simpa [hq3] using hfinal
    subst hq3
    dsimp only at h
    split at h
    · nomatch h
    cases h
    exact .two h0 h1 h2 (by omega)
  split at h
  swap
  · nomatch h
  rename_i v3 e3
  obtain ⟨h3, rfl⟩ := b64Char_of_b64Val _ _ e3
  cases h
  exact .three last h0 h1 h2 h3

/-! ### The numbers of a group -/

/-- The characters of a 24-bit number are those of its four 6-bit digits (R601). -/
theorem b64Digit_of_sixBitDigits (h0 : v0 < 64) (h1 : v1 < 64) (h2 : v2 < 64) (h3 : v3 < 64)
    (hv : v = ((v0 * 64 + v1) * 64 + v2) * 64 + v3) :
    b64Digit v 0 = b64Char v0 ∧ b64Digit v 1 = b64Char v1 ∧ b64Digit v 2 = b64Char v2 ∧ b64Digit v 3 = b64Char v3 := by
  unfold b64Digit
  refine ⟨?_, ?_, ?_, ?_⟩ <;> congr 1 <;> omega

/-- Every 24-bit number has four 6-bit digits. -/
theorem exists_sixBitDigits (hv : v < 2 ^ 24) :
    ∃ v0 v1 v2 v3, v0 < 64 ∧ v1 < 64 ∧ v2 < 64 ∧ v3 < 64 ∧ v = ((v0 * 64 + v1) * 64 + v2) * 64 + v3 :=
  ⟨v / 2 ^ 18, v / 2 ^ 12 % 64, v / 2 ^ 6 % 64, v % 64, by omega, by omega, by omega, by omega, by omega⟩

theorem be_two (n : Nat) : be n 2 = [BitVec.ofNat 8 (n / 2 ^ 8), BitVec.ofNat 8 n] := by
  simp [be, List.range_succ]

theorem be_three (n : Nat) : be n 3 = [BitVec.ofNat 8 (n / 2 ^ 16), BitVec.ofNat 8 (n / 2 ^ 8), BitVec.ofNat 8 n] := by
  simp [be, List.range_succ]

/-- A byte is the byte of every number it is the residue of. -/
theorem ofNat_eq_of_mod {n : Nat} {b : Byte} (h : n % 2 ^ 8 = b.toNat) : BitVec.ofNat 8 n = b :=
  BitVec.eq_of_toNat_eq (by rw [BitVec.toNat_ofNat, h])

/-! ### A group and its bytes -/

/-- The encoding of three bytes stands for them, at any place; that of two and of one, in the final group (R601). -/
theorem groupStandsFor_three (last : Bool) (a b c : Byte) (hv : v = a.toNat * 2 ^ 16 + b.toNat * 2 ^ 8 + c.toNat) :
    GroupStandsFor last (b64Digit v 0) (b64Digit v 1) (b64Digit v 2) (b64Digit v 3) [a, b, c] := by
  obtain ⟨v0, v1, v2, v3, h0, h1, h2, h3, hd⟩ := exists_sixBitDigits (v := v) (by omega)
  obtain ⟨e0, e1, e2, e3⟩ := b64Digit_of_sixBitDigits h0 h1 h2 h3 hd
  have hbytes : be (((v0 * 64 + v1) * 64 + v2) * 64 + v3) 3 = [a, b, c] := by
    rw [be_three, ← hd, ofNat_eq_of_mod (b := a) (by omega), ofNat_eq_of_mod (b := b) (by omega),
      ofNat_eq_of_mod (b := c) (by omega)]
  rw [e0, e1, e2, e3, ← hbytes]
  exact .three last h0 h1 h2 h3

theorem groupStandsFor_two (a b : Byte) (hv : v = a.toNat * 2 ^ 16 + b.toNat * 2 ^ 8) :
    GroupStandsFor true (b64Digit v 0) (b64Digit v 1) (b64Digit v 2) padChar [a, b] := by
  obtain ⟨v0, v1, v2, v3, h0, h1, h2, h3, hd⟩ := exists_sixBitDigits (v := v) (by omega)
  obtain ⟨e0, e1, e2, -⟩ := b64Digit_of_sixBitDigits h0 h1 h2 h3 hd
  have hbytes : be (((v0 * 64 + v1) * 64 + v2) / 2 ^ 2) 2 = [a, b] := by
    rw [be_two, ofNat_eq_of_mod (b := a) (by omega), ofNat_eq_of_mod (b := b) (by omega)]
  rw [e0, e1, e2, ← hbytes]
  exact .two h0 h1 h2 (by omega)

theorem groupStandsFor_one (a : Byte) (hv : v = a.toNat * 2 ^ 16) :
    GroupStandsFor true (b64Digit v 0) (b64Digit v 1) padChar padChar [a] := by
  obtain ⟨v0, v1, v2, v3, h0, h1, h2, h3, hd⟩ := exists_sixBitDigits (v := v) (by omega)
  obtain ⟨e0, e1, -, -⟩ := b64Digit_of_sixBitDigits h0 h1 h2 h3 hd
  have hbyte : BitVec.ofNat 8 ((v0 * 64 + v1) / 2 ^ 4) = a := ofNat_eq_of_mod (by omega)
  rw [e0, e1, ← hbyte]
  exact .one h0 h1 (by omega)

/-- A group is the encoding of the bytes it stands for, and all but the final group stand for three bytes (R601). -/
theorem GroupStandsFor.b64Encode_append (h : GroupStandsFor last q0 q1 q2 q3 g) (hout : last = true → out = []) :
    b64Encode (g ++ out) = q0 :: q1 :: q2 :: q3 :: b64Encode out := by
  cases h with
  | @three v0 v1 v2 v3 last h0 h1 h2 h3 =>
    obtain ⟨e0, e1, e2, e3⟩ := b64Digit_of_sixBitDigits h0 h1 h2 h3 rfl
    have hv : ((v0 * 64 + v1) * 64 + v2) * 64 + v3 < 2 ^ 24 := by omega
    rw [← e0, ← e1, ← e2, ← e3]
    generalize ((v0 * 64 + v1) * 64 + v2) * 64 + v3 = v at hv
    have hsum : v / 2 ^ 16 % 2 ^ 8 * 2 ^ 16 + v / 2 ^ 8 % 2 ^ 8 * 2 ^ 8 + v % 2 ^ 8 = v := by omega
    simp only [be_three, List.cons_append, List.nil_append, b64Encode, BitVec.toNat_ofNat, hsum]
  | @two v0 v1 v2 h0 h1 h2 hlow =>
    obtain ⟨e0, e1, e2, -⟩ := b64Digit_of_sixBitDigits h0 h1 h2 (v3 := 0) (by decide) rfl
    have hsum : ((v0 * 64 + v1) * 64 + v2) / 2 ^ 2 / 2 ^ 8 % 2 ^ 8 * 2 ^ 16 +
        ((v0 * 64 + v1) * 64 + v2) / 2 ^ 2 % 2 ^ 8 * 2 ^ 8 = ((v0 * 64 + v1) * 64 + v2) * 64 + 0 := by omega
    simp only [hout rfl, be_two, List.append_nil, b64Encode, BitVec.toNat_ofNat, hsum, e0, e1, e2]
  | @one v0 v1 h0 h1 hlow =>
    obtain ⟨e0, e1, -, -⟩ := b64Digit_of_sixBitDigits h0 h1 (v2 := 0) (v3 := 0) (by decide) (by decide) rfl
    have hsum : (v0 * 64 + v1) / 2 ^ 4 % 2 ^ 8 * 2 ^ 16 = ((v0 * 64 + v1) * 64 + 0) * 64 + 0 := by omega
    simp only [hout rfl, List.append_nil, b64Encode, BitVec.toNat_ofNat, hsum, e0, e1]

/-! ### The loop over the groups -/

/-- A group that stands for bytes, followed by groups that decode, decodes (R602). -/
theorem GroupStandsFor.b64Groups_cons (h : GroupStandsFor s.isEmpty q0 q1 q2 q3 g) (hs : b64Groups s = some out) :
    b64Groups (q0 :: q1 :: q2 :: q3 :: s) = some (g ++ out) := by
  rw [b64Groups, h.b64Group_eq, hs]

theorem b64Groups_b64Encode (b : Bytes) : b64Groups (b64Encode b) = some b := by
  induction b using b64Encode.induct with
  | case1 a b c rest ih => exact (groupStandsFor_three _ a b c rfl).b64Groups_cons ih
  | case2 a b => exact (groupStandsFor_two a b rfl).b64Groups_cons (s := []) rfl
  | case3 a => exact (groupStandsFor_one a rfl).b64Groups_cons (s := []) rfl
  | case4 => rfl

/-- Groups that decode are a group that stands for bytes, and groups that decode (R602). -/
theorem b64Groups_cons_eq_some (h : b64Groups (q0 :: q1 :: q2 :: q3 :: s) = some out) :
    ∃ g rest, GroupStandsFor s.isEmpty q0 q1 q2 q3 g ∧ b64Groups s = some rest ∧ out = g ++ rest := by
  rw [b64Groups] at h
  split at h
  next g rest hg hs => exact ⟨g, rest, groupStandsFor_of_b64Group hg, hs, (Option.some.inj h).symm⟩
  next => nomatch h

theorem b64Encode_of_b64Groups : ∀ {s out : Bytes}, b64Groups s = some out → b64Encode out = s
  | [], _, rfl => rfl
  | q0 :: q1 :: q2 :: q3 :: s, out, h => by
    obtain ⟨g, rest, hg, hs, rfl⟩ := b64Groups_cons_eq_some h
    have hfinal : s.isEmpty = true → rest = [] := fun he => by
      obtain rfl := List.isEmpty_iff.1 he
      exact (Option.some.inj hs).symm
    rw [hg.b64Encode_append hfinal, b64Encode_of_b64Groups hs]
  | [_], _, h => by simp [b64Groups] at h
  | [_, _], _, h => by simp [b64Groups] at h
  | [_, _, _], _, h => by simp [b64Groups] at h

theorem b64Decode_b64Encode (b : Bytes) : b64Decode (b64Encode b) = some b := by
  have hlen := length_b64Encode b
  rw [b64Decode, if_neg (by rw [hlen, b64Length]; omega), b64Groups_b64Encode]

theorem b64Encode_of_b64Decode (h : b64Decode s = some out) : b64Encode out = s := by
  unfold b64Decode at h
  split at h
  · nomatch h
  · exact b64Encode_of_b64Groups h

/-! ### The obligation -/

/-- Settles O35: by induction on the groups, each of which is the encoding of the bytes it stands for. -/
theorem base64IsCanonical : Obligations.Base64IsCanonical :=
  ⟨b64Decode_b64Encode, fun _ _ => b64Encode_of_b64Decode, by decide⟩

end Sys2Proof.Machine
end

section
/-! PROOFS. The token format: where the fields of a raw token stand, and that TOKEN_DECRYPT's checks accept the token of the key
(42_token_codec.md R610, R640 to R644); the outcomes of KEY_LOAD, KEY_GENERATE, TOKEN_ENCRYPT and TOKEN_DECRYPT (R620 to R643). -/

namespace Sys2Proof.Machine

variable {s t u : State} {raw ttlEn : Bool} {m iv tok r : Bytes}

/-! ### The fields of a raw token -/

/-- The string between two others, by its indices. -/
theorem slice_append_middle {a b c : Bytes} {i j : Nat} (hi : i = a.length) (hj : j = i + b.length) :
    slice (a ++ (b ++ c)) i j = b := by
  subst hi hj
  rw [slice, ← List.append_assoc, ← List.length_append, List.take_left, List.drop_left]

section
variable (sk ek : Bytes) (hiv : iv.length = 16) (time : Nat) (p : Bytes)
include hiv

theorem length_tokenBody : (tokenBody ek iv time p).length = 25 + (cbcEncrypt ek iv p).length := by
  simp only [tokenBody, List.length_append, length_be64, hiv, List.length_singleton]

/-- Where the fields stand (R610): the signed bytes and their tag, the timestamp, the iv and the ciphertext. -/
theorem slices_rawToken {n : Nat} (hn : (rawToken sk ek iv time p).length = n) :
    slice (rawToken sk ek iv time p) 0 (n - 32) = tokenBody ek iv time p ∧
    slice (rawToken sk ek iv time p) (n - 32) n = hmac .sha256 sk (tokenBody ek iv time p) ∧
    slice (rawToken sk ek iv time p) 1 9 = be64 time ∧
    slice (rawToken sk ek iv time p) 9 25 = iv ∧
    slice (rawToken sk ek iv time p) 25 (n - 32) = cbcEncrypt ek iv p := by
  have hbody := length_tokenBody ek hiv time p
  have htag : (hmac .sha256 sk (tokenBody ek iv time p)).length = 32 := length_hmac ..
  have htok : rawToken sk ek iv time p = tokenBody ek iv time p ++ hmac .sha256 sk (tokenBody ek iv time p) := rfl
  rw [htok, List.length_append] at hn
  rw [htok]
  generalize hmac .sha256 sk (tokenBody ek iv time p) = tag at *
  have hn32 : n - 32 = (tokenBody ek iv time p).length := by omega
  refine ⟨hn32 ▸ slice_append_left, hn32 ▸ slice_append_right hn.symm, ?_, ?_, ?_⟩
  all_goals rw [tokenBody]
  · simp only [List.append_assoc]
    exact slice_append_middle rfl (by simp)
  · rw [List.append_assoc, List.append_assoc]
    exact slice_append_middle (by simp) (by rw [hiv])
  · rw [List.append_assoc]
    exact slice_append_middle (by simp [hiv]) (by omega)

end

theorem getD_zero_rawToken (sk ek iv : Bytes) (time : Nat) (p : Bytes) : (rawToken sk ek iv time p).getD 0 0 = 0x80 := rfl

theorem time_lt (s : State) : s.time < 2 ^ 64 := by
  have hhi := s.timeHi.isLt
  have hlo := s.timeLo.isLt
  rw [State.time, pairValue]
  omega

/-- The token of the key at time `time` passes every check at a time that R642 allows (R644). -/
theorem tokenAccepted_rawToken {time : Nat} (htime : time < 2 ^ 64) (hek : s.keyEk.length = 16) (hiv : iv.length = 16)
    (hold : ttlEn = true → s.time ≤ time + s.ttl) (hfuture : time ≤ s.time + 60) (p : Bytes) :
    TokenAccepted s ttlEn (rawToken s.keySk s.keyEk iv time p) p := by
  obtain ⟨hbody, htag, hts, hivs, hc⟩ := slices_rawToken s.keySk s.keyEk hiv time p rfl
  have hfrom : fromBe (be64 time) = time := fromBe_be htime
  refine ⟨?_, ?_, getD_zero_rawToken .., ?_, ?_, ?_⟩
  · rw [length_rawToken _ _ hiv, rawTokenLength]
    omega
  · rw [hbody, htag]
  · rwa [hts, hfrom]
  · rwa [hts, hfrom]
  · rw [hivs, hc]
    exact cbcDecryptInvertsEncrypt s.keyEk iv p hek hiv

theorem decodeToken_formatOut (raw : Bool) (b : Bytes) : decodeToken raw (formatOut raw b) = some b := by
  cases raw
  · exact b64Decode_b64Encode b
  · rfl

/-! ### The draw of entropy -/

theorem drawEntropy_of_idle (h : s.entropy = .idle) (n : Nat) (k : Bytes → State) :
    s.drawEntropy n k = { s with entropy := .waiting n } := by
  rw [State.drawEntropy, h]

theorem drawEntropy_of_waiting {n' : Nat} (h : s.entropy = .waiting n') (n : Nat) (k : Bytes → State) :
    s.drawEntropy n k = s := by
  rw [State.drawEntropy, h]

theorem drawEntropy_of_answered (h : s.entropy = .answered m) (n : Nat) (k : Bytes → State) : s.drawEntropy n k = k m := by
  rw [State.drawEntropy, h]

/-- The request changes nothing but the entropy port (70_reset_and_hazards.md R1012). -/
theorem sameButEntropy_setEntropy (s : State) (e : EntropyPort) : SameButEntropy s { s with entropy := e } := by
  refine ⟨rfl, ?_, ⟨rfl, rfl, rfl, rfl, fun _ => rfl⟩, ⟨rfl, rfl, rfl⟩, ⟨rfl, rfl, rfl⟩, fun _ => rfl⟩
  constructor <;> rfl

/-! ### KEY_LOAD -/

section
variable (hv : s.keyValid = false)
include hv

theorem exec_keyLoad_of_badLength (raw : Bool) (hL : s.cfg.ibufBytes < s.inLength) :
    exec (.keyLoad raw) s = .next (s.raiseError .length).zeroIbuf := by
  rw [exec, execKeyLoad, if_neg (ne_true_of_eq_false hv), if_pos hL]

theorem exec_keyLoad_of_badMaterial (hL : s.inLength ≤ s.cfg.ibufBytes) (hm : keyDecode raw s.primaryInput = none) :
    exec (.keyLoad raw) s = .next (s.raiseError .invalidKeyMaterial).zeroIbuf := by
  rw [exec, execKeyLoad, if_neg (ne_true_of_eq_false hv), if_neg (by omega), hm]

theorem exec_keyLoad_of_material (hL : s.inLength ≤ s.cfg.ibufBytes) (hm : keyDecode raw s.primaryInput = some m) :
    exec (.keyLoad raw) s = .next ((s.loadKey m).finish []).zeroIbuf := by
  rw [exec, execKeyLoad, if_neg (ne_true_of_eq_false hv), if_neg (by omega), hm]

end

/-- Zeroing IBUF touches nothing that a completion writes. -/
theorem Completed.zeroIbuf {code : ErrCode} {out : Bytes} {matched : Bool} (h : Completed t code out matched) :
    Completed t.zeroIbuf code out matched :=
  ⟨h.seq, h.entropy, h.done, h.errCode, h.outLen, h.matched, h.obuf⟩

/-- The completion of a load writes no other register (R620). -/
theorem sameRegisters_loadKey (s : State) (m : Bytes) : SameRegisters s ((s.loadKey m).finish []).zeroIbuf := by
  constructor <;> rfl

/-! ### KEY_GENERATE -/

theorem exec_keyGenerate (raw : Bool) (s : State) :
    exec (.keyGenerate raw) s = .next (s.drawEntropy 32 fun m => s.finish (formatOut raw m)) := rfl

/-! ### TOKEN_ENCRYPT -/

theorem exec_tokenEncrypt_of_noKey (raw : Bool) (hv : s.keyValid = false) :
    exec (.tokenEncrypt raw) s = .next (s.raiseError .noKey) := by
  rw [exec, execTokenEncrypt, if_pos hv]

/-- The token that TOKEN_ENCRYPT outputs fits OUT_LEN (R630). -/
theorem outputs_token (hc : s.cfg.Legal) (hO : tokenLength raw s.inLength ≤ s.cfg.obufBytes) (hiv : iv.length = 16) :
    Outputs s (s.finish (formatOut raw (rawToken s.keySk s.keyEk iv s.time s.primaryInput)))
      (formatOut raw (rawToken s.keySk s.keyEk iv s.time s.primaryInput)) false := by
  refine outputs_complete s false ?_
  obtain ⟨-, -, -, -, -, -, hmax, -⟩ := hc
  rw [length_token raw _ _ hiv, length_primaryInput]
  omega

section
variable (hv : s.keyValid = true)
include hv

theorem exec_tokenEncrypt_of_badLength (raw : Bool) (hL : s.cfg.ibufBytes < s.inLength) :
    exec (.tokenEncrypt raw) s = .next (s.raiseError .length) := by
  rw [exec, execTokenEncrypt, if_neg (ne_false_of_eq_true hv), if_pos hL]

theorem exec_tokenEncrypt_of_overflow (hL : s.inLength ≤ s.cfg.ibufBytes)
    (hO : s.cfg.obufBytes < tokenLength raw s.inLength) :
    exec (.tokenEncrypt raw) s = .next (s.raiseError .outputOverflow) := by
  rw [exec, execTokenEncrypt, if_neg (ne_false_of_eq_true hv), if_neg (by omega), if_pos hO]

/-- Past its checks TOKEN_ENCRYPT draws the iv and outputs the token (R630). -/
theorem exec_tokenEncrypt_of_fits (hL : s.inLength ≤ s.cfg.ibufBytes)
    (hO : tokenLength raw s.inLength ≤ s.cfg.obufBytes) :
    exec (.tokenEncrypt raw) s = .next (s.drawEntropy 16 fun iv =>
      s.finish (formatOut raw (rawToken s.keySk s.keyEk iv s.time s.primaryInput))) := by
  rw [exec, execTokenEncrypt, if_neg (ne_false_of_eq_true hv), if_neg (by omega), if_neg (by omega)]

theorem exec_tokenEncrypt_of_answered (hL : s.inLength ≤ s.cfg.ibufBytes)
    (hO : tokenLength raw s.inLength ≤ s.cfg.obufBytes) (he : s.entropy = .answered iv) :
    exec (.tokenEncrypt raw) s =
      .next (s.finish (formatOut raw (rawToken s.keySk s.keyEk iv s.time s.primaryInput))) := by
  rw [exec_tokenEncrypt_of_fits hv hL hO, drawEntropy_of_answered he]

end

/-! ### TOKEN_DECRYPT -/

theorem exec_tokenDecrypt_of_noKey (raw ttlEn : Bool) (hv : s.keyValid = false) :
    exec (.tokenDecrypt raw ttlEn) s = .next (s.raiseError .noKey) := by
  rw [exec, execTokenDecrypt, if_pos hv]

section
variable (hv : s.keyValid = true)
include hv

theorem exec_tokenDecrypt_of_badLength (raw ttlEn : Bool) (hL : s.cfg.ibufBytes < s.inLength) :
    exec (.tokenDecrypt raw ttlEn) s = .next (s.raiseError .length) := by
  rw [exec, execTokenDecrypt, if_neg (ne_false_of_eq_true hv), if_pos hL]

theorem exec_tokenDecrypt_of_accepted (hL : s.inLength ≤ s.cfg.ibufBytes) (htok : decodeToken raw s.primaryInput = some tok)
    (hacc : TokenAccepted s ttlEn tok r) : exec (.tokenDecrypt raw ttlEn) s = .next (s.finish r) := by
  rw [exec, execTokenDecrypt, if_neg (ne_false_of_eq_true hv), if_neg (by omega), htok]
  simp only [(openToken_iff s ttlEn tok r).2 hacc]

theorem exec_tokenDecrypt_of_refused (hL : s.inLength ≤ s.cfg.ibufBytes)
    (hrej : ∀ tok r, decodeToken raw s.primaryInput = some tok → ¬TokenAccepted s ttlEn tok r) :
    exec (.tokenDecrypt raw ttlEn) s = .next (s.raiseError .invalidToken) := by
  rw [exec, execTokenDecrypt, if_neg (ne_false_of_eq_true hv), if_neg (by omega)]
  cases htok : decodeToken raw s.primaryInput with
  | none => rfl
  | some tok =>
    have hnone : openToken s.keySk s.keyEk s.time (if ttlEn then some s.ttl else none) tok = none :=
      Option.eq_none_iff_forall_not_mem.2 fun r hr => hrej tok r htok ((openToken_iff s ttlEn tok r).1 hr)
    simp only [hnone]

end

/-- The plaintext of an accepted operand is shorter than 2^32 bytes, as OUT_LEN needs. -/
theorem TokenAccepted.length_lt (hacc : TokenAccepted s ttlEn tok r) (htok : decodeToken raw s.primaryInput = some tok) :
    r.length < 2 ^ 32 := by
  have hplain := length_cbcDecrypt_le hacc.plaintext
  have hdec := length_decodeToken_le htok
  have hlt : s.inLength < 2 ^ 32 := s.inLen.isLt
  rw [length_slice] at hplain
  rw [length_primaryInput] at hdec
  omega

/-- With a key and an operand that fits, TOKEN_DECRYPT outputs a plaintext or fails with the one code (R640, R643). -/
theorem exec_tokenDecrypt_cases (raw ttlEn : Bool) (hv : s.keyValid = true) (hL : s.inLength ≤ s.cfg.ibufBytes) :
    (∃ r, r.length < 2 ^ 32 ∧ exec (.tokenDecrypt raw ttlEn) s = .next (s.finish r)) ∨
      exec (.tokenDecrypt raw ttlEn) s = .next (s.raiseError .invalidToken) := by
  by_cases hacc : ∃ tok r, decodeToken raw s.primaryInput = some tok ∧ TokenAccepted s ttlEn tok r
  · obtain ⟨tok, r, htok, hacc⟩ := hacc
    exact .inl ⟨r, hacc.length_lt htok, exec_tokenDecrypt_of_accepted hv hL htok hacc⟩
  · exact .inr (exec_tokenDecrypt_of_refused hv hL fun tok r htok h => hacc ⟨tok, r, htok, h⟩)

/-! ### The token back in IBUF -/

/-- The operand of a later command in a state whose IN_LEN and IBUF bytes are the OUT_LEN and OBUF bytes of a completion. -/
theorem primaryInput_of_copied {code : ErrCode} {out : Bytes} {matched : Bool} (hout : Completed t code out matched)
    (hlen : u.inLen = t.outLen) (hcopy : ∀ a, a < t.outLen.toNat → u.ibuf.read a = t.obuf.read a) : u.primaryInput = out := by
  have hn : u.inLength = out.length := (congrArg BitVec.toNat hlen).trans hout.outLen
  have hread : ∀ a, 0 ≤ a → a < out.length → u.ibuf.read a = (Memory.ofBytes out).read a := fun a _ ha => by
    rw [hcopy a (by rwa [hout.outLen]), hout.obuf, Memory.read_ofBytes]
  rw [State.primaryInput, State.ibufRange, hn, Memory.readBytes_congr hread, Memory.readBytes_ofBytes]

/-! ### The obligations -/

/-- Settles O36: the sizes of the ciphertext and of the raw token, whose text has 4 characters for each 3 bytes. -/
theorem tokenSizes : Obligations.TokenSizes := by
  intro sk ek iv p time hiv
  have hraw := length_rawToken sk ek hiv time p
  exact ⟨length_cbcEncrypt ek iv p, hraw, by rw [length_b64Encode, hraw, b64Length, rawTokenLength]⟩

/-- Settles O37: the operand is key material, or it is not, and each completion zeroes IBUF. -/
theorem keyLoadResult : Obligations.KeyLoadResult := by
  refine fun s raw => ⟨fun hv => ⟨_, exec_keyLoad_of_loaded raw hv, failsZeroingIbuf_raiseError s _⟩,
    fun hv hL => ⟨_, exec_keyLoad_of_badLength hv raw hL, failsZeroingIbuf_raiseError s _⟩, fun hv hL hm => ?_,
    fun m hv hL hm hlen => ?_⟩
  · have hnone : keyDecode raw s.primaryInput = none := Option.eq_none_iff_forall_not_mem.2 fun m hk =>
      hm m (keyDecode_eq_some_iff.1 hk).1 (keyDecode_eq_some_iff.1 hk).2
    exact ⟨_, exec_keyLoad_of_badMaterial hv hL hnone, failsZeroingIbuf_raiseError s _⟩
  · have hdone := (completed_complete (s.loadKey m) .ok (out := []) false (by decide)).zeroIbuf
    exact ⟨_, exec_keyLoad_of_material hv hL (keyDecode_eq_some_iff.2 ⟨hm, hlen⟩), hdone, sameRegisters_loadKey ..,
      ⟨rfl, rfl, rfl⟩, fun _ => rfl, rfl, rfl, rfl⟩

/-- Settles O38: a draw of 32 bytes, which are the output, raw or as text. -/
theorem keyGenerateResult : Obligations.KeyGenerateResult := by
  refine fun s raw => ⟨fun he => ?_, fun n he => ?_, fun m he hm => ?_⟩
  · exact ⟨_, (exec_keyGenerate raw s).trans (congrArg _ (drawEntropy_of_idle he ..)), rfl, sameButEntropy_setEntropy ..⟩
  · rw [exec_keyGenerate, drawEntropy_of_waiting he]
  · have hlen : (formatOut raw m).length = if raw then 32 else 44 := by rw [length_formatOut, hm]; rfl
    have hout := outputs_complete s (out := formatOut raw m) false (by rw [hlen]; split <;> decide)
    exact ⟨_, (exec_keyGenerate raw s).trans (congrArg _ (drawEntropy_of_answered he ..)), hout,
      hout.completed.outLen.trans hlen⟩

/-- Settles O39: past the checks a draw of 16 bytes, the iv of the token that is the output. -/
theorem tokenEncryptResult : Obligations.TokenEncryptResult := by
  intro s raw hc
  refine ⟨fun hv => ⟨_, exec_tokenEncrypt_of_noKey raw hv, fails_raiseError s _⟩,
    fun hv hL => ⟨_, exec_tokenEncrypt_of_badLength hv raw hL, fails_raiseError s _⟩,
    fun hv hL hO => ⟨_, exec_tokenEncrypt_of_overflow hv hL hO, fails_raiseError s _⟩,
    fun hv hL hO => ⟨fun he => ?_, fun n he => ?_⟩, rfl, fun iv hv hL hO he hiv => ?_⟩
  · exact ⟨_, (exec_tokenEncrypt_of_fits hv hL hO).trans (congrArg _ (drawEntropy_of_idle he ..)), rfl,
      sameButEntropy_setEntropy ..⟩
  · rw [exec_tokenEncrypt_of_fits hv hL hO, drawEntropy_of_waiting he]
  · have hout := outputs_token hc hO hiv
    have hlen := length_token raw s.keySk s.keyEk hiv s.time s.primaryInput
    rw [length_primaryInput] at hlen
    exact ⟨_, _, exec_tokenEncrypt_of_answered hv hL hO he, rfl, hout,
      hout.completed.outLen.trans hlen⟩

/-- Settles O40: the operand is a token that the checks accept, or it is not. -/
theorem tokenDecryptResult : Obligations.TokenDecryptResult := by
  intro s raw ttlEn _
  exact ⟨fun hv => ⟨_, exec_tokenDecrypt_of_noKey raw ttlEn hv, fails_raiseError s _⟩,
    fun hv hL => ⟨_, exec_tokenDecrypt_of_badLength hv raw ttlEn hL, fails_raiseError s _⟩,
    fun tok r hv hL htok hacc =>
      ⟨_, exec_tokenDecrypt_of_accepted hv hL htok hacc, outputs_complete s false (hacc.length_lt htok)⟩,
    fun hv hL hrej => ⟨_, exec_tokenDecrypt_of_refused hv hL hrej, fails_raiseError s _⟩⟩

/-- Settles O41: each of the two runs outputs or fails with INVALID_TOKEN, and what the failure writes does not depend on
IBUF. -/
theorem tokenFailuresAreOpaque : Obligations.TokenFailuresAreOpaque := by
  intro s m raw ttlEn t u _ hv hL ht hu
  rcases exec_tokenDecrypt_cases raw ttlEn hv hL with ⟨r, hr, h⟩ | h
  · obtain rfl := Host.Outcome.next.inj (h.symm.trans ht)
    exact ⟨.inl ⟨r, outputs_complete s false hr⟩, fun herr => absurd rfl herr⟩
  · obtain rfl := Host.Outcome.next.inj (h.symm.trans ht)
    refine ⟨.inr (fails_raiseError s _), fun _ herr => ?_⟩
    rcases exec_tokenDecrypt_cases (s := { s with ibuf := m }) raw ttlEn hv hL with ⟨r, -, h'⟩ | h'
    · obtain rfl := Host.Outcome.next.inj (h'.symm.trans hu)
      exact absurd rfl herr
    · exact (Host.Outcome.next.inj (h'.symm.trans hu)).symm

/-- Settles O42: the operand is the token, and the checks accept it under the key and the times that R644 allows. -/
theorem tokenRoundTrip : Obligations.TokenRoundTrip := by
  intro s t u raw ttlEn iv hinv hv hL hO he hiv hexec hkey _ hlen hfit hcopy hfuture hold
  obtain rfl := Host.Outcome.next.inj ((exec_tokenEncrypt_of_answered hv hL hO he).symm.trans hexec)
  have hoperand := primaryInput_of_copied (outputs_token hinv.cfg hO hiv).completed hlen hcopy
  have htok : decodeToken raw u.primaryInput = some (rawToken u.keySk u.keyEk iv s.time s.primaryInput) := by
    rw [hoperand, decodeToken_formatOut, hkey.keySk, hkey.keyEk]
  have hek : u.keyEk.length = 16 := hkey.keyEk ▸ hinv.keyEk
  have hacc := tokenAccepted_rawToken (time_lt s) hek hiv hold hfuture s.primaryInput
  exact ⟨rfl, _, exec_tokenDecrypt_of_accepted (hkey.keyValid.trans hv) hfit htok hacc,
    outputs_complete u false (hacc.length_lt htok)⟩

end Sys2Proof.Machine
end

section
/-! PROOFS. Base32 and the codes: the positional digits of a number give it back, so decoding undoes encoding group by group
(43_otp.md R700 to R703) and a code is the decimal form of its value (R710, R755). -/

namespace Sys2Proof.Machine

variable {b g s : Bytes}

/-! ### Positional digits -/

/-- The m lowest digits of n in base B, the most significant first. -/
def digitsOf (B n m : Nat) : List Nat := (List.range m).map fun i => n / B ^ (m - 1 - i) % B

theorem digitsOf_succ (B n m : Nat) : digitsOf B n (m + 1) = n / B ^ m % B :: digitsOf B n m := by
  simp only [digitsOf, List.range_succ_eq_map, List.map_cons, List.map_map, Nat.add_sub_cancel, Nat.sub_zero]
  exact congrArg _ (List.map_congr_left fun i _ => by rw [Function.comp, Nat.succ_eq_add_one, Nat.sub_sub, Nat.add_comm i])

theorem digit_lt {B n m v : Nat} (hB : 0 < B) (hv : v ∈ digitsOf B n m) : v < B := by
  obtain ⟨i, -, rfl⟩ := List.mem_map.1 hv
  exact Nat.mod_lt _ hB

/-- Appending the digits of n to a number. -/
theorem foldl_digitsOf (B n m acc : Nat) : (digitsOf B n m).foldl (fun a v => a * B + v) acc = acc * B ^ m + n % B ^ m := by
  induction m generalizing acc with
  | zero => simp [digitsOf, Nat.mod_one]
  | succ m ih => rw [digitsOf_succ, List.foldl_cons, ih, pow_succ, Nat.mod_mul]; ring

/-! ### A byte string and its integer (00_scope.md R12) -/

theorem fromBe_concat (s : Bytes) (c : Byte) : fromBe (s ++ [c]) = fromBe s * 2 ^ 8 + c.toNat := by simp [fromBe]

theorem be_succ (n k : Nat) : be n (k + 1) = be (n / 2 ^ 8) k ++ [BitVec.ofNat 8 n] := by
  have hinit : ∀ i ∈ List.range k,
      BitVec.ofNat 8 (n / 2 ^ (8 * (k + 1 - 1 - i))) = BitVec.ofNat 8 (n / 2 ^ 8 / 2 ^ (8 * (k - 1 - i))) := fun i hi => by
    have := List.mem_range.1 hi
    rw [Nat.div_div_eq_div_mul, ← pow_add]
    congr 3
    omega
  rw [be, List.range_succ, List.map_append, List.map_congr_left hinit]
  simp [be]

/-- be undoes from_be. -/
theorem be_fromBe (s : Bytes) : be (fromBe s) s.length = s := by
  induction s using List.reverseRecOn with
  | nil => rfl
  | append_singleton s c ih =>
    have hinit : (fromBe s * 2 ^ 8 + c.toNat) / 2 ^ 8 = fromBe s := by omega
    rw [List.length_append, List.length_singleton, be_succ, fromBe_concat, hinit, ih, ofNat_eq_of_mod (b := c) (by omega)]

theorem fromBe_lt (s : Bytes) : fromBe s < 2 ^ (8 * s.length) := by
  induction s using List.reverseRecOn with
  | nil => decide
  | append_singleton s c ih =>
    rw [fromBe_concat, List.length_append, List.length_singleton, Nat.mul_succ, pow_add]
    omega

/-! ### One group of base32 -/

/-- The characters of 5-bit values are read back as the number that the values are the digits of (R702). -/
theorem b32Number_map_b32Char {vs : List Nat} (hvs : ∀ v ∈ vs, v < 32) (acc : Nat) :
    b32Number acc (vs.map b32Char) = some (vs.foldl (fun a v => a * 32 + v) acc) := by
  induction vs generalizing acc with
  | nil => rfl
  | cons v vs ih =>
    obtain ⟨hv, hvs⟩ := List.forall_mem_cons.1 hvs
    rw [List.map_cons, b32Number, (b32Val_b32Char v hv).1]
    exact ih hvs _

/-- A group's text: the characters of the base-32 digits of its bits, zero-filled at the end (R701). -/
theorem b32EncodeGroup_eq (g : Bytes) {m : Nat} (hm : m = (8 * g.length + 4) / 5) :
    b32EncodeGroup g = (digitsOf 32 (fromBe g * 2 ^ (5 * m - 8 * g.length)) m).map b32Char := by
  subst hm
  simp only [b32EncodeGroup, digitsOf, List.map_map, pow_mul]
  rfl

theorem length_b32EncodeGroup (g : Bytes) : (b32EncodeGroup g).length = (8 * g.length + 4) / 5 := by simp [b32EncodeGroup]

/-- Every character of an encoding is the character of a 5-bit value. -/
theorem exists_b32Char_of_mem {c : Byte} (hc : c ∈ b32EncodeNoPad b) : ∃ v < 32, c = b32Char v := by
  obtain ⟨g, -, hc⟩ := List.mem_flatMap.1 hc
  rw [b32EncodeGroup_eq g rfl] at hc
  obtain ⟨v, hv, rfl⟩ := List.mem_map.1 hc
  exact ⟨v, digit_lt (by decide) hv, rfl⟩

/-- The data characters of 1 to 5 bytes carry just these bytes (R702). -/
theorem b32GroupBytes_of_length {n : Nat} (h1 : 1 ≤ n) (h5 : n ≤ 5) : b32GroupBytes (8 - (8 * n + 4) / 5) = some n := by
  have htable : ∀ n ≤ 5, 1 ≤ n → b32GroupBytes (8 - (8 * n + 4) / 5) = some n := by decide
  exact htable n h5 h1

/-- Decoding a group undoes encoding it: the number of its characters is that of its bytes with zero bits after it. -/
theorem b32DecodeData_b32EncodeGroup (h1 : 1 ≤ g.length) (h5 : g.length ≤ 5) :
    b32DecodeData (b32EncodeGroup g) = some g := by
  have hlen := length_b32EncodeGroup g
  obtain ⟨m, hm⟩ : ∃ m, m = (8 * g.length + 4) / 5 := ⟨_, rfl⟩
  have hfits : fromBe g * 2 ^ (5 * m - 8 * g.length) < 32 ^ m := by
    calc fromBe g * 2 ^ (5 * m - 8 * g.length)
        < 2 ^ (8 * g.length) * 2 ^ (5 * m - 8 * g.length) := Nat.mul_lt_mul_of_pos_right (fromBe_lt g) (by positivity)
      _ = 2 ^ (5 * m) := by rw [← pow_add]; congr 1; omega
      _ = 32 ^ m := pow_mul 2 5 m
  have hnumber : b32Number 0 (b32EncodeGroup g) = some (fromBe g * 2 ^ (5 * m - 8 * g.length)) := by
    rw [b32EncodeGroup_eq g hm, b32Number_map_b32Char fun v => digit_lt (by decide), foldl_digitsOf, Nat.zero_mul,
      Nat.zero_add, Nat.mod_eq_of_lt hfits]
  rw [← hm] at hlen
  simp only [b32DecodeData, hnumber, hlen, hm ▸ b32GroupBytes_of_length h1 h5,
    Nat.mul_div_cancel _ (Nat.two_pow_pos _), be_fromBe]

/-! ### The loop over the groups -/

/-- The pad of a text of n characters: up to a multiple of 8 (R702). -/
def b32Pad (n : Nat) : Bytes := bytesOf ((8 - n % 8) % 8) padChar

/-- B32D of a text without lower-case letters: the loop over the groups of the padded text. -/
theorem b32Decode_of_upperCase (hs : ∀ c ∈ s, upperCase c = c) :
    b32Decode s = b32Groups (groupsOf 8 (s ++ b32Pad s.length)) := by
  rw [b32Decode, List.map_congr_left hs, List.map_id']
  by_cases h8 : s.length % 8 = 0
  · simp [h8, b32Pad, bytesOf]
  · simp only [if_pos h8, b32Pad, Nat.mod_eq_of_lt (by omega : 8 - s.length % 8 < 8)]

/-- A group's trailing pad is dropped down to the last other character. -/
theorem b32Data_append_pad (hs : ∀ c ∈ s, c ≠ padChar) (k : Nat) : b32Data (s ++ bytesOf k padChar) = s := by
  have hlast : s.reverse.dropWhile (· = padChar) = s.reverse :=
    List.dropWhile_eq_self_iff.2 fun h => by simpa using hs _ (List.mem_reverse.1 (List.getElem_mem h))
  rw [b32Data, List.reverse_append, List.dropWhile_append_of_pos (by simp [bytesOf]), hlast, List.reverse_reverse]

theorem b32Groups_cons {gs : List Bytes} {a out : Bytes} (hg : b32DecodeData g = some a) (hgs : gs ≠ [])
    (h : b32Groups gs = some out) : b32Groups (g :: gs) = some (a ++ out) := by
  obtain ⟨g', rest, rfl⟩ := List.exists_cons_of_ne_nil hgs
  rw [b32Groups, hg, h]

theorem b32EncodeNoPad_of_le (h0 : b ≠ []) (h5 : b.length ≤ 5) : b32EncodeNoPad b = b32EncodeGroup b := by
  rw [b32EncodeNoPad, groupsOf_of_le h0 h5, List.flatMap_singleton]

theorem b32EncodeNoPad_append (hg : g.length = 5) (b : Bytes) :
    b32EncodeNoPad (g ++ b) = b32EncodeGroup g ++ b32EncodeNoPad b := by
  rw [b32EncodeNoPad, groupsOf_append (by decide) hg, List.flatMap_cons, b32EncodeNoPad]

/-- Induction over the groups of 5 bytes: the empty string, a final group, a full group before others. -/
theorem groups_induction {P : Bytes → Prop} (nil : P []) (final : ∀ g, g ≠ [] → g.length ≤ 5 → P g)
    (full : ∀ g rest, g.length = 5 → rest ≠ [] → P rest → P (g ++ rest)) (b : Bytes) : P b := by
  induction hn : b.length using Nat.strong_induction_on generalizing b with
  | _ n ih =>
    by_cases h0 : b = []
    · exact h0 ▸ nil
    · by_cases h5 : b.length ≤ 5
      · exact final b h0 h5
      · have hrest : (b.drop 5).length = b.length - 5 := List.length_drop
        rw [← List.take_append_drop 5 b]
        exact full _ _ (by rw [List.length_take]; omega) (List.ne_nil_of_length_pos (by omega)) (ih _ (by omega) _ hrest)

theorem b32Groups_b32EncodeNoPad (b : Bytes) :
    b32Groups (groupsOf 8 (b32EncodeNoPad b ++ b32Pad (b32EncodeNoPad b).length)) = some b := by
  induction b using groups_induction with
  | nil => rfl
  | final g h0 h5 =>
    have hpos := List.length_pos_iff.2 h0
    have hdata : ∀ c ∈ b32EncodeGroup g, c ≠ padChar := fun c hc => by
      obtain ⟨v, hv, rfl⟩ := exists_b32Char_of_mem (b32EncodeNoPad_of_le h0 h5 ▸ hc)
      exact (b32Val_b32Char v hv).2.1
    have hlen := length_b32EncodeGroup g
    have hgroup : groupsOf 8 (b32EncodeGroup g ++ b32Pad (b32EncodeGroup g).length) =
        [b32EncodeGroup g ++ b32Pad (b32EncodeGroup g).length] :=
      groupsOf_of_le (List.append_ne_nil_of_left_ne_nil (List.ne_nil_of_length_pos (by omega)) _)
        (by rw [List.length_append, b32Pad, length_bytesOf]; omega)
    rw [b32EncodeNoPad_of_le h0 h5, hgroup, b32Groups, b32Pad, b32Data_append_pad hdata,
      b32DecodeData_b32EncodeGroup hpos h5]
  | full g rest h5 hrest ih =>
    have hlen : (b32EncodeGroup g).length = 8 := by rw [length_b32EncodeGroup, h5]
    have hpad : b32Pad (b32EncodeGroup g ++ b32EncodeNoPad rest).length = b32Pad (b32EncodeNoPad rest).length := by
      rw [b32Pad, List.length_append, hlen, Nat.add_mod_left, b32Pad]
    have hmore : groupsOf 8 (b32EncodeNoPad rest ++ b32Pad (b32EncodeNoPad rest).length) ≠ [] := fun hnil => by
      rw [hnil] at ih
      exact hrest (Option.some.inj ih).symm
    rw [b32EncodeNoPad_append h5, hpad, List.append_assoc, groupsOf_append (by decide) hlen]
    exact b32Groups_cons (b32DecodeData_b32EncodeGroup (by omega) h5.le) hmore ih

theorem b32Decode_b32EncodeNoPad (b : Bytes) : b32Decode (b32EncodeNoPad b) = some b := by
  rw [b32Decode_of_upperCase, b32Groups_b32EncodeNoPad]
  intro c hc
  obtain ⟨v, hv, rfl⟩ := exists_b32Char_of_mem hc
  exact (b32Val_b32Char v hv).2.2

/-! ### Decimal digits -/

/-- The characters of a decimal form are ASCII digits, of the values that are the number's digits (00_scope.md R12). -/
theorem map_toNat_asciiDec (n d : Nat) : (asciiDec n d).map (fun c => c.toNat) = (digitsOf 10 n d).map (0x30 + ·) := by
  simp only [asciiDec, digitsOf, List.map_map]
  refine List.map_congr_left fun i _ => ?_
  simp only [Function.comp, BitVec.toNat_ofNat]
  omega

theorem asciiDec_digit {n d : Nat} {c : Byte} (hc : c ∈ asciiDec n d) : 0x30 ≤ c.toNat ∧ c.toNat ≤ 0x39 := by
  obtain ⟨v, hv, hcv⟩ := List.mem_map.1 (map_toNat_asciiDec n d ▸ List.mem_map_of_mem hc)
  have := digit_lt (by decide) hv
  omega

theorem foldl_asciiDec (n d : Nat) : (asciiDec n d).foldl (fun n c => 10 * n + (c.toNat - 0x30)) 0 = n % 10 ^ d := by
  have hvalues : (asciiDec n d).foldl (fun n c => 10 * n + (c.toNat - 0x30)) 0 =
      ((asciiDec n d).map fun c => c.toNat).foldl (fun n k => 10 * n + (k - 0x30)) 0 := by rw [List.foldl_map]
  rw [hvalues, map_toNat_asciiDec, List.foldl_map]
  simpa [Nat.mul_comm] using foldl_digitsOf 10 n d 0

/-! ### The obligations -/

/-- Settles O43: by induction on the groups, each of which decodes to its bytes. -/
theorem base32RoundTrip : Obligations.Base32RoundTrip :=
  ⟨b32Decode_b32EncodeNoPad, by decide, by decide, by decide, by decide, by decide⟩

/-- Settles O44: a code is the decimal form of the truncated value. -/
theorem otpCodesAreDigits : Obligations.OtpCodesAreDigits := fun secret counter digits h _ _ =>
  ⟨length_hotp .., fun _ => asciiDec_digit, (foldl_asciiDec ..).trans (Nat.mod_mod ..), Nat.mod_lt _ (by decide)⟩

end Sys2Proof.Machine
end

section
/-! PROOFS. The outcomes of SECRET_LOAD, OTP_GENERATE, OTP_NOW, OTP_VERIFY and OTP_URI: each check that fails, in the rule's
order, and the success past all of them (43_otp.md R711, R720 to R750). -/

namespace Sys2Proof.Machine

variable {s : State} {raw forTime : Bool} {b : Bytes} {d : Nat} {h : HashAlg}

/-! ### SECRET_LOAD -/

theorem sameRegisters_loadSecret (s : State) (b : Bytes) : SameRegisters s ((s.loadSecret b).finish []).zeroIbuf := by
  constructor <;> rfl

section
variable (hv : s.secretValid = false)
include hv

theorem exec_secretLoad_of_badLength (raw : Bool) (hL : s.cfg.ibufBytes < s.inLength) :
    exec (.secretLoad raw) s = .next (s.raiseError .length).zeroIbuf := by
  rw [exec, execSecretLoad, if_neg (ne_true_of_eq_false hv), if_pos hL]

theorem exec_secretLoad_of_badText (hL : s.inLength ≤ s.cfg.ibufBytes) (hb : decodeSecret raw s.primaryInput = none) :
    exec (.secretLoad raw) s = .next (s.raiseError .invalidKeyMaterial).zeroIbuf := by
  rw [exec, execSecretLoad, if_neg (ne_true_of_eq_false hv), if_neg (by omega), hb]

theorem exec_secretLoad_of_tooLong (hL : s.inLength ≤ s.cfg.ibufBytes) (hb : decodeSecret raw s.primaryInput = some b)
    (hlen : s.cfg.secretMax < b.length) : exec (.secretLoad raw) s = .next (s.raiseError .length).zeroIbuf := by
  simp only [exec, execSecretLoad, if_neg (ne_true_of_eq_false hv), if_neg (Nat.not_lt.2 hL), hb, if_pos hlen]

theorem exec_secretLoad_of_fits (hL : s.inLength ≤ s.cfg.ibufBytes) (hb : decodeSecret raw s.primaryInput = some b)
    (hlen : b.length ≤ s.cfg.secretMax) : exec (.secretLoad raw) s = .next ((s.loadSecret b).finish []).zeroIbuf := by
  simp only [exec, execSecretLoad, if_neg (ne_true_of_eq_false hv), if_neg (Nat.not_lt.2 hL), hb,
    if_neg (Nat.not_lt.2 hlen)]

end

/-! ### The commands without a secret -/

section
variable (hv : s.secretValid = false)
include hv

theorem exec_otpGenerate_of_noSecret : exec .otpGenerate s = .next (s.raiseError .noSecret) := by
  rw [exec, execOtpGenerate, if_pos hv]

theorem exec_otpNow_of_noSecret : exec .otpNow s = .next (s.raiseError .noSecret) := by
  rw [exec, execOtpNow, if_pos hv]

theorem exec_otpVerify_of_noSecret (forTime : Bool) : exec (.otpVerify forTime) s = .next (s.raiseError .noSecret) := by
  rw [exec, execOtpVerify, if_pos hv]

theorem exec_otpUri_of_noSecret : exec .otpUri s = .next (s.raiseError .noSecret) := by
  rw [exec, execOtpUri, if_pos hv]

end

/-! ### The commands with a secret -/

/-- The output of a code: `digits` characters (R725, R730). -/
theorem outputs_hotp (s : State) (secret : Bytes) (counter : Nat) (h : HashAlg) (hd : d ≤ 10) :
    Outputs s (s.finish (hotp secret counter d h)) (hotp secret counter d h) false ∧
      (s.finish (hotp secret counter d h)).outLen.toNat = d := by
  have hlen := length_hotp secret counter d h
  have hout := outputs_complete s (out := hotp secret counter d h) false (by omega)
  exact ⟨hout, hout.completed.outLen.trans hlen⟩

theorem interval_eq_zero_iff : s.interval = 0 ↔ s.interval.toNat = 0 := BitVec.toNat_inj.symm

section
variable (hv : s.secretValid = true)
include hv

theorem exec_otpGenerate_of_illegal (hcfg : s.otpConfig = none) :
    exec .otpGenerate s = .next (s.raiseError .invalidArgument) := by
  rw [exec, execOtpGenerate, if_neg (ne_false_of_eq_true hv), hcfg]

theorem exec_otpGenerate_of_legal (hcfg : s.otpConfig = some (d, h)) :
    exec .otpGenerate s = .next (s.finish (hotp s.secretBytes s.arg d h)) := by
  rw [exec, execOtpGenerate, if_neg (ne_false_of_eq_true hv), hcfg]

theorem exec_otpNow_of_illegal (harg : s.otpConfig = none ∨ s.interval.toNat = 0) :
    exec .otpNow s = .next (s.raiseError .invalidArgument) := by
  rw [exec, execOtpNow, if_neg (ne_false_of_eq_true hv)]
  cases hcfg : s.otpConfig with
  | none => rfl
  | some cfg => simp only [if_pos (harg.resolve_left (by simp [hcfg]))]

theorem exec_otpNow_of_legal (hcfg : s.otpConfig = some (d, h)) (hint : s.interval.toNat ≠ 0) :
    exec .otpNow s = .next (s.finish (hotp s.secretBytes (timeStep s.time s.interval.toNat) d h)) := by
  simp only [exec, execOtpNow, if_neg (ne_false_of_eq_true hv), hcfg, if_neg hint]

theorem exec_otpVerify_of_badLength (forTime : Bool) (hL : s.cfg.ibufBytes < s.inLength) :
    exec (.otpVerify forTime) s = .next (s.raiseError .length) := by
  rw [exec, execOtpVerify, if_neg (ne_false_of_eq_true hv), if_pos hL]

theorem exec_otpUri_of_badLength (hL : s.cfg.ibufBytes < s.inLength ∨ s.inLength < s.auxLength) :
    exec .otpUri s = .next (s.raiseError .length) := by
  rw [exec, execOtpUri, if_neg (ne_false_of_eq_true hv), if_pos hL]

end

section
variable (hv : s.secretValid = true) (hL : s.inLength ≤ s.cfg.ibufBytes)
include hv hL

theorem exec_otpVerify_of_illegal {tm : Nat} (htm : tm = timeStep (s.verifyTime forTime) s.interval.toNat)
    (harg : s.otpConfig = none ∨ s.interval.toNat = 0 ∨ tm < s.window.toNat ∨ 2 ^ 64 - 1 < tm + s.window.toNat) :
    exec (.otpVerify forTime) s = .next (s.raiseError .invalidArgument) := by
  rw [exec, execOtpVerify, if_neg (ne_false_of_eq_true hv), if_neg (Nat.not_lt.2 hL)]
  cases hcfg : s.otpConfig with
  | none => rfl
  | some cfg =>
    have harg := harg.resolve_left (by simp [hcfg])
    by_cases hint : s.interval.toNat = 0
    · simp only [if_pos hint]
    · simp only [if_neg hint, ← htm, if_pos (harg.resolve_left hint)]

theorem exec_otpVerify_of_legal {tm : Nat} (htm : tm = timeStep (s.verifyTime forTime) s.interval.toNat)
    (hcfg : s.otpConfig = some (d, h)) (hint : s.interval.toNat ≠ 0) (hlow : s.window.toNat ≤ tm)
    (hhigh : tm + s.window.toNat ≤ 2 ^ 64 - 1) :
    exec (.otpVerify forTime) s =
      .next (s.finishMatch (verifyScan s.secretBytes s.primaryInput tm s.window.toNat d h)) := by
  have hwindow : ¬(tm < s.window.toNat ∨ 2 ^ 64 - 1 < tm + s.window.toNat) := by omega
  simp only [exec, execOtpVerify, if_neg (ne_false_of_eq_true hv), if_neg (Nat.not_lt.2 hL), hcfg, if_neg hint, ← htm,
    if_neg hwindow]

end

/-! ### OTP_URI's output -/

/-- The URI of OTP_URI's operands (R750). -/
def State.uri (s : State) : Bytes :=
  otpUri s.secretBytes (s.ibufRange 0 s.auxLength) (s.ibufRange s.auxLength s.inLength)

theorem length_uri (hA : s.auxLength ≤ s.inLength) :
    s.uri.length = 32 + s.inLength + s.auxLength + (8 * s.secretBytes.length + 4) / 5 := by
  simp only [State.uri, otpUri, uriHead, uriSecret, uriIssuer, List.length_append, List.length_cons, List.length_nil,
    length_b32EncodeNoPad, State.ibufRange, Memory.length_readBytes]
  omega

/-- Past its checks of the operands OTP_URI outputs the URI if it fits OBUF (R750). -/
theorem exec_otpUri_of_goodLength (hv : s.secretValid = true) (hA : s.auxLength ≤ s.inLength)
    (hL : s.inLength ≤ s.cfg.ibufBytes) :
    exec .otpUri s = .next (if s.cfg.obufBytes < s.uri.length then s.raiseError .outputOverflow else s.finish s.uri) := by
  rw [exec, execOtpUri, if_neg (ne_false_of_eq_true hv), if_neg (by omega)]
  rfl

/-! ### The obligations -/

/-- Settles O45: the operand is a secret that fits, one that is too long, or none, and each completion zeroes IBUF. -/
theorem secretLoadResult : Obligations.SecretLoadResult := by
  refine fun s raw => ⟨fun hv => ⟨_, exec_secretLoad_of_loaded raw hv, failsZeroingIbuf_raiseError s _⟩,
    fun hv hL => ⟨_, exec_secretLoad_of_badLength hv raw hL, failsZeroingIbuf_raiseError s _⟩,
    fun hv hL hraw hb => ?_, fun b hv hL hb => ⟨fun hlen => ?_, fun hlen => ?_⟩⟩
  · subst hraw
    exact ⟨_, exec_secretLoad_of_badText hv hL hb, failsZeroingIbuf_raiseError s _⟩
  · exact ⟨_, exec_secretLoad_of_tooLong hv hL hb hlen, failsZeroingIbuf_raiseError s _⟩
  · have hdone := (completed_complete (s.loadSecret b) .ok (out := []) false (by decide)).zeroIbuf
    exact ⟨_, exec_secretLoad_of_fits hv hL hb hlen, hdone, sameRegisters_loadSecret .., ⟨rfl, rfl, rfl⟩,
      fun _ => rfl, rfl, rfl, rfl⟩

/-- Settles O46: OTP_CFG is illegal, or gives the digits and the hash of the code of ARG. -/
theorem otpGenerateResult : Obligations.OtpGenerateResult := by
  refine fun s => ⟨fun hv => ⟨_, exec_otpGenerate_of_noSecret hv, fails_raiseError s _⟩,
    fun hv hcfg => ⟨_, exec_otpGenerate_of_illegal hv (otpConfig_of_illegal hcfg), fails_raiseError s _⟩,
    fun h hv h1 h10 hh => ?_⟩
  exact ⟨_, exec_otpGenerate_of_legal hv (otpConfig_of_legal h1 h10 hh), outputs_hotp s _ _ h h10⟩

/-- Settles O47: OTP_CFG or INTERVAL is illegal, or the output is the code of TIME's time-step. -/
theorem otpNowResult : Obligations.OtpNowResult := by
  refine fun s => ⟨fun hv => ⟨_, exec_otpNow_of_noSecret hv, fails_raiseError s _⟩, fun hv harg => ?_,
    fun h hv h1 h10 hh hint => ?_⟩
  · exact ⟨_, exec_otpNow_of_illegal hv (harg.imp otpConfig_of_illegal interval_eq_zero_iff.1), fails_raiseError s _⟩
  · exact ⟨_, exec_otpNow_of_legal hv (otpConfig_of_legal h1 h10 hh) (mt interval_eq_zero_iff.2 hint),
      outputs_hotp s _ _ h h10⟩

/-- Settles O48: an argument is illegal, or RESULT.MATCH is what the scan of the window finds. -/
theorem otpVerifyResult : Obligations.OtpVerifyResult := by
  refine fun s forTime tm htm => ⟨fun hv => ⟨_, exec_otpVerify_of_noSecret hv forTime, fails_raiseError s _⟩,
    fun hv hL => ⟨_, exec_otpVerify_of_badLength hv forTime hL, fails_raiseError s _⟩, fun hv hL harg => ?_,
    fun h hv hL h1 h10 hh hint hlow hhigh => ?_⟩
  · exact ⟨_, exec_otpVerify_of_illegal hv hL htm (harg.imp otpConfig_of_illegal (.imp_left interval_eq_zero_iff.1)),
      fails_raiseError s _⟩
  · exact ⟨_, _, exec_otpVerify_of_legal hv hL htm (otpConfig_of_legal h1 h10 hh) (mt interval_eq_zero_iff.2 hint) hlow
      hhigh, outputs_complete s _ (by decide), verifyScan_iff hlow⟩

/-- Settles O49: the URI's length decides between OUTPUT_OVERFLOW and the URI. -/
theorem otpUriResult : Obligations.OtpUriResult := by
  intro s hc
  refine ⟨fun hv => ⟨_, exec_otpUri_of_noSecret hv, fails_raiseError s _⟩,
    fun hv hL => ⟨_, exec_otpUri_of_badLength hv hL, fails_raiseError s _⟩, fun n hv hA hL hn => ?_⟩
  have hlen := (length_uri hA).trans hn.symm
  have hexec := exec_otpUri_of_goodLength hv hA hL
  rw [hlen] at hexec
  refine ⟨fun hO => ⟨_, hexec.trans (by rw [if_pos hO]), fails_raiseError s _⟩, fun hO => ?_⟩
  obtain ⟨-, -, -, -, -, -, hmax, -⟩ := hc
  have hout : Outputs s (s.finish s.uri) s.uri false := outputs_complete s false (by omega)
  exact ⟨_, hexec.trans (by rw [if_neg (Nat.not_lt.2 hO)]), hout.completed.outLen.trans hlen, hout⟩

end Sys2Proof.Machine
end

section
/-! PROOFS. The one outcome of ZEROIZE: the completion of the state with both stores and IBUF cleared (44_control.md R800). -/

namespace Sys2Proof.Machine

theorem exec_zeroize (s : State) : exec .zeroize s = .next (s.clearStores.zeroIbuf.finish []) := rfl

/-- What ZEROIZE clears and its completion change no other register (R800). -/
theorem sameRegisters_zeroize (s : State) : SameRegisters s (s.clearStores.zeroIbuf.finish []) := by
  constructor <;> rfl

/-- The completion leaves IBUF as zeroed. -/
theorem ibufZero_finish_zeroIbuf (s : State) (out : Bytes) : IbufZero (s.zeroIbuf.finish out) := Memory.read_zeros

/-- Settles O50: ZEROIZE checks nothing, and its completion keeps what it has cleared. -/
theorem zeroizeResult : Obligations.ZeroizeResult := by
  intro s
  have hdone := completed_complete s.clearStores.zeroIbuf .ok (out := []) false (by decide)
  obtain ⟨hsk, hek, hkey⟩ := sameKeyStore_complete s.clearStores.zeroIbuf .ok [] false
  obtain ⟨hsecret, hlen, hvalid⟩ := sameSecretStore_complete s.clearStores.zeroIbuf .ok [] false
  exact ⟨_, exec_zeroize s, hdone, sameRegisters_zeroize s, ibufZero_finish_zeroIbuf s.clearStores [],
    hsk, hek, hkey, hsecret, hlen, hvalid⟩

end Sys2Proof.Machine
end

section
/-! PROOFS. How a command in progress ends: a failure leaves the error writes and nothing else (60_exceptions.md R902), a success
its output (R903), and either has a code of its command (R901, R905). -/

namespace Sys2Proof.Machine

variable {s t : State} {i : Instr} {w : Word} {rest : List Input}

/-! ### The command in progress goes on -/

/-- A command in progress goes on as its word's command (70_reset_and_hazards.md R1011). -/
theorem step_of_decode_ok (hs : s.seq = .busy w) (hn : SequencerNext s rest) (hd : decode w = .ok i) :
    step s = exec i { s with inputs := rest } := by
  simp only [step_of_sequencerNext hn, runCommand, hs, hd]

/-- A word in progress goes on as its command, or fails with ILLEGAL_COMMAND if it is none (R1011, 30_encoding.md R309). -/
theorem commandEffect_or_illegal_of_step (hs : s.seq = .busy w) (hn : SequencerNext s rest) (h : step s = .next t) :
    (∃ i, decode w = .ok i ∧ CommandEffect i { s with inputs := rest } t) ∨
      ∃ r, decode w = .error r ∧ { s with inputs := rest }.raiseError .illegalCommand = t := by
  cases hd : decode w with
  | ok i =>
    obtain ⟨u, hu, hc⟩ := exec_effect i { s with inputs := rest }
    obtain rfl := Host.Outcome.next.inj (((step_of_decode_ok hs hn hd).trans hu).symm.trans h)
    exact .inl ⟨i, rfl, hc⟩
  | error r => exact .inr ⟨r, rfl, Host.Outcome.next.inj ((step_of_decode_error hs hn hd).symm.trans h)⟩

/-! ### What a command leaves unchanged -/

/-- No command changes a register besides STATUS, OUT_LEN and RESULT (R902, R903). -/
theorem CommandEffect.sameRegisters (h : CommandEffect i s t) : SameRegisters s t := by
  cases h
  all_goals constructor <;> rfl

theorem CommandEffect.sameKeyStore (h : CommandEffect i s t) (hl : ∀ raw, i ≠ .keyLoad raw) (hz : i ≠ .zeroize) :
    SameKeyStore s t := by
  cases h with
  | loadsKey m hm hv hi =>
    obtain ⟨raw, hi⟩ := hi
    exact absurd hi (hl raw)
  | zeroizes hi => exact absurd hi hz
  | _ => exact ⟨rfl, rfl, rfl⟩

theorem CommandEffect.sameSecretStore (h : CommandEffect i s t) (hl : ∀ raw, i ≠ .secretLoad raw) (hz : i ≠ .zeroize) :
    SameSecretStore s t := by
  cases h with
  | loadsSecret b hb hv hi =>
    obtain ⟨raw, hi⟩ := hi
    exact absurd hi (hl raw)
  | zeroizes hi => exact absurd hi hz
  | _ => exact ⟨rfl, rfl, rfl⟩

theorem CommandEffect.sameIbuf (h : CommandEffect i s t) (hl : ∀ raw, i ≠ .keyLoad raw ∧ i ≠ .secretLoad raw)
    (hz : i ≠ .zeroize) : SameIbuf s t := by
  cases h with
  | failsLoad c hc hi =>
    obtain ⟨raw, hi⟩ := hi
    exact (hi.elim (hl raw).1 (hl raw).2).elim
  | loadsKey m hm hv hi =>
    obtain ⟨raw, hi⟩ := hi
    exact absurd hi (hl raw).1
  | loadsSecret b hb hv hi =>
    obtain ⟨raw, hi⟩ := hi
    exact absurd hi (hl raw).2
  | zeroizes hi => exact absurd hi hz
  | _ => exact fun _ => rfl

/-- The frame of the key store does not speak of the inputs. -/
theorem SameKeyStore.of_setInputs (h : SameKeyStore { s with inputs := rest } t) : SameKeyStore s t :=
  ⟨h.keySk, h.keyEk, h.keyValid⟩

/-- The frame of the secret store does not speak of the inputs. -/
theorem SameSecretStore.of_setInputs (h : SameSecretStore { s with inputs := rest } t) : SameSecretStore s t :=
  ⟨h.secret, h.secretLen, h.secretValid⟩

/-! ### The ends of a command -/

section
variable (h : CommandEffect i s t) (hs : s.seq = .busy w) (ht : t.seq = .idle)
include h hs ht

/-- A command that ends with an error fails as R902 says, and zeroes IBUF if it is a load. -/
theorem CommandEffect.fails_of_error (he : t.errCode ≠ .ok) :
    ((∀ raw, i ≠ .keyLoad raw ∧ i ≠ .secretLoad raw) ∧ Fails s t t.errCode) ∨
      ((∃ raw, i = .keyLoad raw ∨ i = .secretLoad raw) ∧ FailsZeroingIbuf s t t.errCode) := by
  cases h with
  | requests n hd hent => nomatch hs.symm.trans ht
  | holds n m hd hent => nomatch hs.symm.trans ht
  | fails c hc hi => exact .inl ⟨hi, fails_raiseError s c⟩
  | failsLoad c hc hi => exact .inr ⟨hi, failsZeroingIbuf_raiseError s c⟩
  | _ => exact absurd rfl he

/-- A command that succeeds completes with an output that fits OBUF (R903). -/
theorem CommandEffect.completed_of_ok (hok : t.errCode = .ok) (hc : s.cfg.Legal) (ha : AnswerFits i s) :
    ∃ out, Completed t .ok out t.matched ∧ out.length ≤ s.cfg.obufBytes := by
  cases h with
  | requests n hd hent => nomatch hs.symm.trans ht
  | holds n m hd hent => nomatch hs.symm.trans ht
  | fails c hne hi => exact absurd hok hne
  | failsLoad c hne hi => exact absurd hok hne
  | outputs out hlen =>
    have hfit := hlen hc ha
    obtain ⟨-, -, -, -, -, -, hmax, -⟩ := hc
    exact ⟨out, completed_complete s .ok false (by omega), hfit⟩
  | loadsKey m hm hv hi =>
    exact ⟨[], (completed_complete (s.loadKey m) .ok false (by decide)).zeroIbuf, Nat.zero_le _⟩
  | loadsSecret b hb hv hi =>
    exact ⟨[], (completed_complete (s.loadSecret b) .ok false (by decide)).zeroIbuf, Nat.zero_le _⟩
  | zeroizes hi => exact ⟨[], completed_complete s.clearStores.zeroIbuf .ok false (by decide), Nat.zero_le _⟩
  | _ =>
    -- OTP_VERIFY sets RESULT.MATCH and outputs nothing (43_otp.md R740).
    exact ⟨[], completed_complete s .ok _ (by decide), Nat.zero_le _⟩

/-- RESULT.MATCH is set by OTP_VERIFY only (R903). -/
theorem CommandEffect.otpVerify_of_matched (hm : t.matched = true) : ∃ forTime, i = .otpVerify forTime := by
  cases h with
  | requests n hd hent => nomatch hs.symm.trans ht
  | holds n m hd hent => nomatch hs.symm.trans ht
  | fails | outputs | failsLoad | loadsKey | loadsSecret | zeroizes => nomatch hm
  | _ =>
    -- The one case left is OTP_VERIFY's own completion.
    assumption

end

/-! ### The codes of a command -/

/-- A completion with one of the codes (R901). -/
def CompletesWith (codes : List ErrCode) (t : State) : Prop := t.done = true ∧ t.seq = .idle ∧ t.errCode ∈ codes

/-- A command that draws entropy and has none yet: the request stands, and nothing else changes (70_reset_and_hazards.md
R1012, R1031). -/
def WaitsForEntropy (i : Instr) (s t : State) : Prop :=
  (∃ n, drawBytes i = some n ∧ ∀ b, s.entropy ≠ .answered b) ∧ (∃ n, t.entropy = .waiting n) ∧ SameButEntropy s t

theorem completesWith_complete {codes : List ErrCode} {c : ErrCode} (hc : c ∈ codes) (s : State) (out : Bytes) (m : Bool) :
    CompletesWith codes (s.complete c out m) := ⟨rfl, rfl, hc⟩

/-- A draw of entropy waits for it, or goes on with the answer to its completion (R1012). -/
theorem drawEntropy_completesWith_or_waits {codes : List ErrCode} {n : Nat} {k : Bytes → State}
    (hd : drawBytes i = some n) (hk : ∀ b, CompletesWith codes (k b)) :
    CompletesWith codes (s.drawEntropy n k) ∨ WaitsForEntropy i s (s.drawEntropy n k) := by
  rcases drawEntropy_cases s n k with ⟨he, h⟩ | ⟨m, he, h⟩ | ⟨b, he, h⟩
  · rw [h]
    exact .inr ⟨⟨n, hd, by simp [he]⟩, ⟨n, rfl⟩, sameButEntropy_setEntropy s (.waiting n)⟩
  · rw [h]
    exact .inr ⟨⟨n, hd, by simp [he]⟩, ⟨m, he⟩, sameButEntropy_setEntropy s s.entropy⟩
  · rw [h]
    exact .inl (hk b)

/-- A legal HSEL selects a hash function (30_encoding.md R306). -/
theorem exists_hashOfSelector_of_legal {hsel : BitVec 2} (h : hselLegal hsel) : ∃ alg, hashOfSelector hsel = some alg := by
  unfold hashOfSelector
  rcases Nat.le_one_iff_eq_zero_or_eq_one.1 h with h | h <;> simp [h]

/-- Every command completes with one of its codes, or waits for entropy (R901, R905). -/
theorem exec_completesWith_or_waits (s : State) (hw : i.wellFormed = true) :
    ∃ t, exec i s = .next t ∧ (CompletesWith (codesOf i) t ∨ WaitsForEntropy i s t) := by
  cases i with
  | keyGenerate raw =>
    exact ⟨_, rfl, drawEntropy_completesWith_or_waits rfl fun _ => completesWith_complete (by simp [codesOf]) s _ false⟩
  | tokenEncrypt raw =>
    have fails {c : ErrCode} (hc : c ∈ codesOf (.tokenEncrypt raw)) := completesWith_complete hc s [] false
    refine ⟨_, rfl, ?_⟩
    split
    · exact .inl (fails (by simp [codesOf]))
    · split
      · exact .inl (fails (by simp [codesOf]))
      · split
        · exact .inl (fails (by simp [codesOf]))
        · exact drawEntropy_completesWith_or_waits rfl fun _ => completesWith_complete (by simp [codesOf]) s _ false
  | mac hsel =>
    -- A legal HSEL selects a hash function, so ILLEGAL_COMMAND is not among the outcomes.
    obtain ⟨alg, halg⟩ := exists_hashOfSelector_of_legal (of_decide_eq_true hw)
    by_cases hL : s.cfg.ibufBytes < s.inLength ∨ s.inLength < s.auxLength
    · exact ⟨_, exec_mac_of_badLength halg hL, .inl (completesWith_complete (by simp [codesOf]) s [] false)⟩
    · exact ⟨_, exec_mac_of_goodLength halg (by omega) (by omega),
        .inl (completesWith_complete (by simp [codesOf]) s _ false)⟩
  | _ =>
    -- No other command draws entropy, so each branch of its checks is a completion.
    refine ⟨_, rfl, .inl ?_⟩
    dsimp only [codesOf]
    repeat' split
    all_goals exact ⟨rfl, rfl, by simp⟩

/-! ### The obligations -/

/-- Settles O51: a command that fails leaves the error writes and nothing else, a load zeroes IBUF besides, and a word that is no
command is no load. -/
theorem failureLeavesNoOutput : Obligations.FailureLeavesNoOutput := by
  intro s t w rest hs hn h ht he
  rcases commandEffect_or_illegal_of_step hs hn h with ⟨i, hd, hc⟩ | ⟨r, hd, rfl⟩
  · simp only [hd, ne_eq, Except.ok.injEq]
    rcases hc.fails_of_error hs ht he with ⟨hi, hf⟩ | ⟨⟨raw, hi⟩, hf⟩
    · exact ⟨hf.completed, hf.registers, hf.keyStore.of_setInputs, hf.secretStore.of_setInputs,
        fun ⟨raw, hl⟩ => (hl.elim (hi raw).1 (hi raw).2).elim, fun _ => hf.ibuf⟩
    · exact ⟨hf.completed, hf.registers, hf.keyStore.of_setInputs, hf.secretStore.of_setInputs,
        fun _ => hf.ibuf, fun hl => (hi.elim (hl raw).1 (hl raw).2).elim⟩
  · have hf := fails_raiseError { s with inputs := rest } .illegalCommand
    simp only [hd]
    exact ⟨hf.completed, hf.registers, hf.keyStore.of_setInputs, hf.secretStore.of_setInputs, nofun, fun _ => hf.ibuf⟩

/-- Settles O52: a word that is no command fails, so a success is one of the commands', whose output fits OBUF because the
invariant rules out an entropy answer of another length. -/
theorem successWritesItsOutput : Obligations.SuccessWritesItsOutput := by
  intro s t w rest hinv hs hn h ht hok
  rcases commandEffect_or_illegal_of_step hs hn h with ⟨i, hd, hc⟩ | ⟨r, -, rfl⟩
  · obtain ⟨out, hdone, hfit⟩ := hc.completed_of_ok hs ht hok hinv.cfg (hinv.answerFits hs hd)
    exact ⟨i, out, hd, hdone, hfit, hc.sameRegisters, hc.otpVerify_of_matched hs ht,
      fun hl hz => (hc.sameKeyStore hl hz).of_setInputs, fun hl hz => (hc.sameSecretStore hl hz).of_setInputs, hc.sameIbuf⟩
  · nomatch hok

/-- Settles O53: each branch of a command's checks is a completion with one of its codes, or a draw of entropy. -/
theorem codesOfEachCommand : Obligations.CodesOfEachCommand := by
  intro i s t hw h
  obtain ⟨u, hu, hend⟩ := exec_completesWith_or_waits s hw
  obtain rfl := Host.Outcome.next.inj (hu.symm.trans h)
  exact hend

end Sys2Proof.Machine
end

section
/-! PROOFS. The command in progress and the RST input: performing a command in one step reads nothing its start has written
(70_reset_and_hazards.md R1010, R1011, 10_state.md R160), no step changes what it reads (10_state.md R106), and what RST does
(R1000, R1001). -/

namespace Sys2Proof.Machine

variable {s t : State} {i : Instr} {w w' : Word}

/-! ### From one BUSY state to the next -/

/-- Nothing differs but the entropy request, IRQ_EN, DONE, OVERRUN, and the outside world's part: what may change while a
command is in progress. -/
abbrev SameWhileBusy (s t : State) : Prop :=
  t = { s with
    entropy := t.entropy, irqEn := t.irqEn, done := t.done, overrun := t.overrun, inputs := t.inputs, rdata := t.rdata,
    rst := t.rst }

/-- While BUSY a host write stores no input and starts no command, and a reset ends BUSY (10_state.md R106, R124). -/
theorem WriteEffect.sameWhileBusy {off : Nat} {v : Word} {rest : List Input}
    (h : WriteEffect { s with inputs := rest } off v t) (hs : s.seq = .busy w) (ht : t.seq = .busy w') :
    SameWhileBusy s t := by
  cases h with
  | input t hidle _ => nomatch hs.symm.trans hidle
  | starts _ hidle => nomatch hs.symm.trans hidle
  | resets => nomatch ht
  | ignored | overruns | enables | clears => rfl

/-- A command that has not completed has asked for entropy or holds for it (70_reset_and_hazards.md R1012, R1031). -/
theorem CommandEffect.sameWhileBusy {rest : List Input} (h : CommandEffect i { s with inputs := rest } t)
    (ht : t.seq = .busy w') : SameWhileBusy s t := by
  cases h with
  | requests | holds => rfl
  | _ => nomatch ht

/-- What a step can change while a command stays in progress. -/
theorem sameWhileBusy_of_step (h : step s = .next t) (hs : s.seq = .busy w) (ht : t.seq = .busy w') :
    SameWhileBusy s t := by
  cases step_effect h with
  | drops | reads | answers => rfl
  | writes off v rest t hn hw => exact hw.sameWhileBusy hs ht
  | runs rest w i t hn hs hd he hc => exact hc.sameWhileBusy ht
  | illegal => nomatch ht
  | drives b rest hi =>
    cases b
    · rfl
    · nomatch ht

/-! ### A command before and after its start -/

/-- A command that draws no entropy reads nothing a start writes, nor the entropy port, and its completion overwrites all of
it (R1010, R1020). -/
theorem exec_start_of_noDraw (hd : drawBytes i = none) (s : State) (w : Word) (p : EntropyPort) :
    exec i { s.start w with entropy := p } = exec i s := by
  cases i with
  | keyGenerate raw => nomatch hd
  | tokenEncrypt raw => nomatch hd
  | _ => rfl

/-- With the entropy answered no command reads what a start writes. -/
theorem exec_start_of_answered (i : Instr) (s : State) (w : Word) (b : Bytes) :
    exec i { s.start w with entropy := .answered b } = exec i { s with entropy := .answered b } := by
  cases i with
  | keyGenerate raw => rfl
  | tokenEncrypt raw => rfl
  | _ => exact exec_start_of_noDraw rfl { s with entropy := .answered b } w (.answered b)

/-! ### RST -/

section
variable {rest : List Input}

/-- A step whose next input drives RST. -/
theorem step_of_rst {b : Bool} (h : s.inputs = .rst b :: rest) : step s = .next ({ s with inputs := rest }.driveRst b) := by
  simp only [step, stepInputs, h, takeInput]

/-- While RST is asserted a host write inside the window is ignored (R1000). -/
theorem step_of_write_of_rst {off : Nat} {v : Word} (hr : s.rst = true) (ho : off < 0x40000)
    (h : s.inputs = .write 32 (s.cfg.base + off) v :: rest) : step s = .next { s with inputs := rest } := by
  simp [step, stepInputs, h, takeInput, hostWrite, windowOffset_base s.cfg ho, hr]

/-- While RST is asserted a host read inside the window returns 0 (R1000). -/
theorem step_of_read_of_rst {off : Nat} (hr : s.rst = true) (ho : off < 0x40000)
    (h : s.inputs = .read 32 (s.cfg.base + off) :: rest) : step s = .next { s with inputs := rest, rdata := some 0 } := by
  simp [step, stepInputs, h, takeInput, hostRead, windowOffset_base s.cfg ho, hr]

end

/-! ### The obligations -/

/-- Settles O10: a step after which a command is still in progress has changed no input, no store and not the word. -/
theorem inputsStableWhileBusy : Obligations.InputsStableWhileBusy := by
  intro s t w w' h hs ht
  have hsame : SameWhileBusy s t := sameWhileBusy_of_step h hs ht
  have hseq : t.seq = s.seq := by rw [hsame]
  refine ⟨Seq.busy.inj (ht.symm.trans (hseq.trans hs)), ?_⟩
  rw [hsame]
  exact ⟨rfl, rfl, rfl, rfl, rfl, rfl, rfl, rfl, rfl, rfl, rfl, rfl, fun _ => rfl, ⟨rfl, rfl, rfl⟩, ⟨rfl, rfl, rfl⟩⟩

/-- Settles O6: the word is decoded and its command performed. -/
theorem stepRunsCommandInProgress : Obligations.StepRunsCommandInProgress :=
  fun _ _ _ _ hs hd hn => step_of_decode_ok hs hn hd

/-- Settles O9: no command reads what its start writes, given the entropy it draws. -/
theorem commandIsAtomic : Obligations.CommandIsAtomic :=
  ⟨fun _ s w hd => exec_start_of_noDraw hd s w .idle, exec_start_of_answered⟩

/-- Settles O20: RST is driven, or an access meets it asserted. -/
theorem rstResetsAndHolds : Obligations.RstResetsAndHolds :=
  ⟨fun _ _ h => ⟨_, step_of_rst h, rfl, rfl, rfl, rfl⟩, fun _ _ _ _ => step_of_write_of_rst,
    fun _ _ _ => step_of_read_of_rst, fun _ _ => step_of_rst⟩

end Sys2Proof.Machine
end
